-- ==== Sys2Proof/Word.lean ====
section
/-! DEFINITION. The word types of the block: 64-bit beats, the unsigned words of the rules, and the
fixed groups of two and four words that the counter-based engines hold. -/

namespace Sys2Proof

/-- One 64-bit transfer on a port (R14). -/
abbrev Beat := BitVec 64

/-- A `u32` of the rules (R14). -/
abbrev U32 := BitVec 32

/-- A `u64` of the rules (R14). -/
abbrev U64 := BitVec 64

/-- Four words, word 0 first: a counter, a ThreeFry key or a block (R115, R116, R204). -/
structure Quad (w : Nat) where
  x0 : BitVec w
  x1 : BitVec w
  x2 : BitVec w
  x3 : BitVec w
deriving DecidableEq, Repr, Inhabited

/-- Two words, word 0 first: the Philox key (R115, R636). -/
structure Pair (w : Nat) where
  k0 : BitVec w
  k1 : BitVec w
deriving DecidableEq, Repr, Inhabited

end Sys2Proof
end

