-- ==== Sys2Proof/Machine/Bits.lean ====
section
/-! DEFINITION. The bit and list notation of 00_scope.md section 4 that more than one rule uses. -/

namespace Sys2Proof.Machine

/-- `rotl_w(x, r)` for `0 ≤ r < w` (R16). -/
def rotl {w : Nat} (x : BitVec w) (r : Nat) : BitVec w :=
  if r = 0 then x else (x <<< r) ||| (x >>> (w - r))

/-- `rotr_32(x, r)` for `0 ≤ r < 32` (R16). -/
def rotr32 (x : U32) (r : Nat) : U32 :=
  (x >>> r) ||| (x <<< ((32 - r) % 32))

/-- `zext_64(v)` (R15). -/
def zext64 {w : Nat} (v : BitVec w) : Beat := v.setWidth 64

/-- The `u64` made of two 32-bit words, the first high: `(w1 << 32) | w2` (R204, R455). Each argument
is a 32-bit word zero-extended into a beat. -/
def joinWords (w1 w2 : Beat) : Beat := (w1 <<< 32) ||| w2

/-- Entry `i` of an internal array. Every index that a rule computes is in range (R201), so the value
0 of an index outside the array is never used. -/
def rd {w : Nat} (s : List (BitVec w)) (i : Nat) : BitVec w := s.getD i 0

/-- Write entry `i` of an internal array (R201). -/
def wr {w : Nat} (s : List (BitVec w)) (i : Nat) (x : BitVec w) : List (BitVec w) := s.set i x

theorem wr_length {w : Nat} (s : List (BitVec w)) (i : Nat) (x : BitVec w) :
    (wr s i x).length = s.length := by
  simp [wr]

/-- Word `i` of a group of four, for `i` in `0..3` (R115, R116). -/
def quadWord {w : Nat} (q : Quad w) : Nat → BitVec w
  | 0 => q.x0
  | 1 => q.x1
  | 2 => q.x2
  | _ => q.x3

end Sys2Proof.Machine
end

