-- ==== Sys2Proof/Config.lean ====
section
/-! DEFINITION. What one implementation of the block fixes (the parameters of R13, kept in `State` so
that every statement covers every configuration) and the free values: values that the spec leaves
open and that no definition of the model chooses. -/

namespace Sys2Proof

/-- `PCG_SEED_MODE` (R13, R551). -/
inductive PcgSeedMode where
  | reference
  | twoAfterFold
deriving DecidableEq, Repr

/-- `BOUNDED64_MODE` (R13, R655). -/
inductive Bounded64Mode where
  | split
  | compose
deriving DecidableEq, Repr

/-- `TF_RED_ROUNDS`, whose legal values are 13 and 20 (R13, R637). -/
inductive TfRedRounds where
  | r13
  | r20
deriving DecidableEq, Repr

/-- `TF_RED_CTR_BITS`, whose legal values are 64 and 256 (R13, R637). -/
inductive TfRedCtrBits where
  | b64
  | b256
deriving DecidableEq, Repr

/-- The configuration parameters of the block (R13). A FIFO depth of `none` is the legal value
"unbounded". -/
structure Config where
  seedCap : Nat
  ssMaxOut : Nat
  pcgSeedMode : PcgSeedMode
  bounded64Mode : Bounded64Mode
  tfRedRounds : TfRedRounds
  tfRedCtrBits : TfRedCtrBits
  cmdFifoDepth : Option Nat
  rspFifoDepth : Option Nat
deriving DecidableEq, Repr

/-- The default configuration of R13. The two FIFO depths, which R13 and D33 leave OPEN, are
unbounded here, as R212 allows. DESIGN CHOICE (log entry 1), unsafe for a claim that rests on it. -/
def Config.specDefault : Config where
  seedCap := 1024
  ssMaxOut := 1024
  pcgSeedMode := .reference
  bounded64Mode := .split
  tfRedRounds := .r13
  tfRedCtrBits := .b64
  cmdFifoDepth := none
  rspFifoDepth := none

/-- A FIFO depth is unbounded or at least 1 (R13). -/
abbrev Config.DepthLegal (d : Option Nat) : Prop := ∀ n ∈ d, 1 ≤ n

/-- The legal values of R13. The bound `2 ^ 64` on the two sizes is DEDUCED (log entry 2) from R134
and R135: each is held whole in a 64-bit register. -/
abbrev Config.Legal (c : Config) : Prop :=
  (1 ≤ c.seedCap ∧ c.seedCap < 2 ^ 64) ∧ (624 ≤ c.ssMaxOut ∧ c.ssMaxOut < 2 ^ 64) ∧
    Config.DepthLegal c.cmdFifoDepth ∧ Config.DepthLegal c.rspFifoDepth

/-- Free value: what `ENG.BUF` holds after a PHILOX construction, before the first draw (R630: "BUF
holds no value until the first draw"). Applied to the command-stream position. No body: nothing can be
proved of it (log entry 3). -/
opaque Config.freeBuf32 : Nat → Quad 32

/-- Free value: what `ENG.BUF` holds after a TF20 or TFR construction, before the first draw (R630,
R631, R632; log entry 3). -/
opaque Config.freeBuf64 : Nat → Quad 64

end Sys2Proof
end

