-- ==== Sys2Proof/Syntax.lean ====
section
/-! DEFINITION. The 32 commands of QPRNG-1 (R310), one constructor per row of the opcode table. An
operand is the whole 64-bit operand beat as the packet carries it: the width check of a 32-bit operand
is made by the command's own rule, after its engine check (R303, R759), so a beat that fails it is
still an instruction. -/

namespace Sys2Proof

/-- One packet's command with its operand beats, in the order of R310. -/
inductive Instr where
  | nop
  | seedClear
  | seedPush (v : Beat)
  | ssIgr32 (seed n : Beat)
  | ssIgr64 (seed n : Beat)
  | ssIba32 (n : Beat)
  | ssIba64 (n : Beat)
  | ssSseq32 (n : Beat)
  | mt32Seed (seed : Beat)
  | mt32SeedArray
  | mt32SeedSeq
  | mt64Seed (seed : Beat)
  | mt64SeedArray
  | pcg32Seed (initstate stream : Beat)
  | philoxSeed (k0 k1 : Beat)
  | tf20Seed (k0 k1 k2 k3 : Beat)
  | tfrSeed (k0 k1 k2 k3 : Beat)
  | nextU32
  | nextU64
  | boundedU32 (max : Beat)
  | boundedU64 (max : Beat)
  | rangeU32 (min max : Beat)
  | rangeU64 (min max : Beat)
  | rangeI32 (min max : Beat)
  | rangeI64 (min max : Beat)
  | canon
  | canonInc
  | canonSym
  | normCanon (w : Beat)
  | normCanonInc (w : Beat)
  | normCanonSym (w : Beat)
  | readReg (reg : BitVec 8)
deriving DecidableEq, Repr

end Sys2Proof
end

