-- ==== Sys2Proof/WellFormed.lean ====
section
/-! DEFINITION. Which instructions have operands of the kinds R310 gives them: a `u32` or `i32` operand
beat has bits [63:32] = 0 (R203, R303). These are the packets the assembler of R316 can produce. An
ill-formed one still decodes and executes; its rule raises ArgumentError (R756). -/

namespace Sys2Proof

/-- A beat that can carry a 32-bit operand: bits [63:32] are 0 (R203). -/
abbrev Beat.IsU32 (b : Beat) : Prop := b.toNat < 2 ^ 32

/-- Every operand of the instruction has the kind that R310 gives it. -/
def Instr.wellFormed : Instr → Bool
  | .nop | .seedClear | .seedPush _ => true
  | .ssIgr32 seed _ => decide (Beat.IsU32 seed)
  | .ssIgr64 _ _ | .ssIba32 _ | .ssIba64 _ | .ssSseq32 _ => true
  | .mt32Seed seed => decide (Beat.IsU32 seed)
  | .mt32SeedArray | .mt32SeedSeq | .mt64Seed _ | .mt64SeedArray | .pcg32Seed _ _ => true
  | .philoxSeed k0 k1 => decide (Beat.IsU32 k0) && decide (Beat.IsU32 k1)
  | .tf20Seed _ _ _ _ | .tfrSeed _ _ _ _ | .nextU32 | .nextU64 => true
  | .boundedU32 max => decide (Beat.IsU32 max)
  | .boundedU64 _ => true
  | .rangeU32 min max => decide (Beat.IsU32 min) && decide (Beat.IsU32 max)
  | .rangeU64 _ _ => true
  | .rangeI32 min max => decide (Beat.IsU32 min) && decide (Beat.IsU32 max)
  | .rangeI64 _ _ | .canon | .canonInc | .canonSym => true
  | .normCanon _ | .normCanonInc _ | .normCanonSym _ | .readReg _ => true

end Sys2Proof
end

