-- ==== Sys2Proof/Decode.lean ====
section
/-! DEFINITION. The command encoding of R300 to R314: the command beat's fields, the opcode map, the
decoder of the beats at the head of the command port, the encoder, and the packet that a number of the
opcode table stands for. -/

namespace Sys2Proof

/-- The packet formats of R302. -/
inductive Format where
  | f0
  | f1
  | f2
  | f4
  | fr
deriving DecidableEq, Repr

/-- How many operand beats follow the command beat (R302). -/
def Format.operands : Format → Nat
  | .f0 => 0
  | .f1 => 1
  | .f2 => 2
  | .f4 => 4
  | .fr => 0

/-- Field OPC, bits [7:0] of the command beat (R301). -/
def opcOf (b : Beat) : Nat := b.toNat % 2 ^ 8

/-- Field SUB, bits [15:8] of the command beat, an unsigned 8-bit register number (R301, R305). -/
def subOf (b : Beat) : BitVec 8 := b.extractLsb' 8 8

/-- Field RSV, bits [63:16] of the command beat (R301). -/
def rsvOf (b : Beat) : BitVec 48 := b.extractLsb' 16 48

/-- One row of the opcode map: the packet format and the instruction that SUB and the operand beats
make. `build sub a b c d` ignores the beats its format does not have. -/
structure OpcodeRow where
  fmt : Format
  build : BitVec 8 → Beat → Beat → Beat → Beat → Instr

/-- The opcode map of R310. `none`: the OPC value is unassigned (R311). -/
def opcodeRow : Nat → Option OpcodeRow
  | 0x00 => some ⟨.f0, fun _ _ _ _ _ => .nop⟩
  | 0x01 => some ⟨.f0, fun _ _ _ _ _ => .seedClear⟩
  | 0x02 => some ⟨.f1, fun _ a _ _ _ => .seedPush a⟩
  | 0x08 => some ⟨.f2, fun _ a b _ _ => .ssIgr32 a b⟩
  | 0x09 => some ⟨.f2, fun _ a b _ _ => .ssIgr64 a b⟩
  | 0x0A => some ⟨.f1, fun _ a _ _ _ => .ssIba32 a⟩
  | 0x0B => some ⟨.f1, fun _ a _ _ _ => .ssIba64 a⟩
  | 0x0C => some ⟨.f1, fun _ a _ _ _ => .ssSseq32 a⟩
  | 0x10 => some ⟨.f1, fun _ a _ _ _ => .mt32Seed a⟩
  | 0x11 => some ⟨.f0, fun _ _ _ _ _ => .mt32SeedArray⟩
  | 0x12 => some ⟨.f0, fun _ _ _ _ _ => .mt32SeedSeq⟩
  | 0x14 => some ⟨.f1, fun _ a _ _ _ => .mt64Seed a⟩
  | 0x15 => some ⟨.f0, fun _ _ _ _ _ => .mt64SeedArray⟩
  | 0x18 => some ⟨.f2, fun _ a b _ _ => .pcg32Seed a b⟩
  | 0x1C => some ⟨.f2, fun _ a b _ _ => .philoxSeed a b⟩
  | 0x1D => some ⟨.f4, fun _ a b c d => .tf20Seed a b c d⟩
  | 0x1E => some ⟨.f4, fun _ a b c d => .tfrSeed a b c d⟩
  | 0x20 => some ⟨.f0, fun _ _ _ _ _ => .nextU32⟩
  | 0x21 => some ⟨.f0, fun _ _ _ _ _ => .nextU64⟩
  | 0x22 => some ⟨.f1, fun _ a _ _ _ => .boundedU32 a⟩
  | 0x23 => some ⟨.f1, fun _ a _ _ _ => .boundedU64 a⟩
  | 0x24 => some ⟨.f2, fun _ a b _ _ => .rangeU32 a b⟩
  | 0x25 => some ⟨.f2, fun _ a b _ _ => .rangeU64 a b⟩
  | 0x26 => some ⟨.f2, fun _ a b _ _ => .rangeI32 a b⟩
  | 0x27 => some ⟨.f2, fun _ a b _ _ => .rangeI64 a b⟩
  | 0x28 => some ⟨.f0, fun _ _ _ _ _ => .canon⟩
  | 0x29 => some ⟨.f0, fun _ _ _ _ _ => .canonInc⟩
  | 0x2A => some ⟨.f0, fun _ _ _ _ _ => .canonSym⟩
  | 0x2C => some ⟨.f1, fun _ a _ _ _ => .normCanon a⟩
  | 0x2D => some ⟨.f1, fun _ a _ _ _ => .normCanonInc a⟩
  | 0x2E => some ⟨.f1, fun _ a _ _ _ => .normCanonSym a⟩
  | 0x30 => some ⟨.fr, fun sub _ _ _ _ => .readReg sub⟩
  | _ => none

/-- The packet length in beats, found from OPC alone (R311, R313). -/
def packetLength (opc : Nat) : Nat :=
  match opcodeRow opc with
  | some row => 1 + row.fmt.operands
  | none => 1

/-- Why a complete packet is illegal. -/
inductive Reject where
  /-- OPC is not in the table of R310 (R311). -/
  | unassignedOpcode
  /-- OPC is assigned and RSV is not 0 (R312). -/
  | reservedBits
  /-- OPC is assigned, is not READ_REG's, and SUB is not 0 (R312). -/
  | straySub
deriving DecidableEq, Repr

/-- What the decoder finds at the head of the command port. -/
inductive Decoded where
  /-- No complete packet stands there yet (R315, R810). -/
  | incomplete
  /-- A complete packet of `len` beats that is illegal (R311, R312). -/
  | illegal (why : Reject) (len : Nat)
  /-- A complete packet of `len` beats that is an instruction. -/
  | instr (i : Instr) (len : Nat)
deriving DecidableEq, Repr

/-- The decoder (R311, R312, R313, R315), total on any beats. -/
def decode : List Beat → Decoded
  | [] => .incomplete
  | b0 :: rest =>
    match opcodeRow (opcOf b0) with
    | none => .illegal .unassignedOpcode 1
    | some row =>
      if rest.length < row.fmt.operands then .incomplete
      else if rsvOf b0 ≠ 0 then .illegal .reservedBits (1 + row.fmt.operands)
      else if subOf b0 ≠ 0 ∧ opcOf b0 ≠ 0x30 then .illegal .straySub (1 + row.fmt.operands)
      else .instr
        (row.build (subOf b0) (rest.getD 0 0) (rest.getD 1 0) (rest.getD 2 0) (rest.getD 3 0))
        (1 + row.fmt.operands)

/-- The encoder: an instruction's packet, written from R301 and R310. -/
def encode : Instr → List Beat
  | .nop => [0x00]
  | .seedClear => [0x01]
  | .seedPush v => [0x02, v]
  | .ssIgr32 seed n => [0x08, seed, n]
  | .ssIgr64 seed n => [0x09, seed, n]
  | .ssIba32 n => [0x0A, n]
  | .ssIba64 n => [0x0B, n]
  | .ssSseq32 n => [0x0C, n]
  | .mt32Seed seed => [0x10, seed]
  | .mt32SeedArray => [0x11]
  | .mt32SeedSeq => [0x12]
  | .mt64Seed seed => [0x14, seed]
  | .mt64SeedArray => [0x15]
  | .pcg32Seed initstate stream => [0x18, initstate, stream]
  | .philoxSeed k0 k1 => [0x1C, k0, k1]
  | .tf20Seed k0 k1 k2 k3 => [0x1D, k0, k1, k2, k3]
  | .tfrSeed k0 k1 k2 k3 => [0x1E, k0, k1, k2, k3]
  | .nextU32 => [0x20]
  | .nextU64 => [0x21]
  | .boundedU32 max => [0x22, max]
  | .boundedU64 max => [0x23, max]
  | .rangeU32 min max => [0x24, min, max]
  | .rangeU64 min max => [0x25, min, max]
  | .rangeI32 min max => [0x26, min, max]
  | .rangeI64 min max => [0x27, min, max]
  | .canon => [0x28]
  | .canonInc => [0x29]
  | .canonSym => [0x2A]
  | .normCanon w => [0x2C, w]
  | .normCanonInc w => [0x2D, w]
  | .normCanonSym w => [0x2E, w]
  | .readReg reg => [(0x30 : Beat) ||| (reg.setWidth 64 <<< 8)]

/-- The number of result beats that follow an OK status (column "res" of R310; R814). -/
def resultCount : Instr → Nat
  | .nop | .seedClear | .seedPush _ => 0
  | .ssIgr32 _ n | .ssIgr64 _ n | .ssIba32 n | .ssIba64 n | .ssSseq32 n => n.toNat
  | .mt32Seed _ | .mt32SeedArray | .mt32SeedSeq | .mt64Seed _ | .mt64SeedArray => 0
  | .pcg32Seed _ _ | .philoxSeed _ _ | .tf20Seed _ _ _ _ | .tfrSeed _ _ _ _ => 0
  | .nextU32 | .nextU64 | .boundedU32 _ | .boundedU64 _ => 1
  | .rangeU32 _ _ | .rangeU64 _ _ | .rangeI32 _ _ | .rangeI64 _ _ => 1
  | .canon | .canonInc | .canonSym => 1
  | .normCanon _ | .normCanonInc _ | .normCanonSym _ | .readReg _ => 1

/-- The longest packet, in beats (format F4, R302). -/
def maxPacketBeats : Nat := 5

/-- The packet that the number `w` of `nbits` bits stands for: beat k is bits 64k+63 to 64k, every bit
above `nbits` is 0, and the length is the one OPC calls for (R313). -/
def packetOfWord (nbits w : Nat) : List Beat :=
  let v := w % 2 ^ nbits
  let beats := (List.range maxPacketBeats).map fun k => BitVec.ofNat 64 (v / 2 ^ (64 * k))
  beats.take (packetLength (opcOf (beats.getD 0 0)))

/-- The instruction the decoder reads from the packet of `w`, if it reads one. -/
def decodeTableWord (nbits w : Nat) : Option Instr :=
  match decode (packetOfWord nbits w) with
  | .instr i _ => some i
  | _ => none

end Sys2Proof
end

