-- ==== Sys2Proof/Machine/State.lean ====
section
/-! DEFINITION. The state of one unit (10_state.md): the ports, the register STATUS, the engine slot,
the seed material buffer, the sampler, the command-stream position and the configuration; the reasons
a step can stop; and the state after reset. -/

namespace Sys2Proof.Machine

/-- The engine kinds of R2; `none` is the empty slot. -/
inductive Kind where
  | none
  | mt32
  | mt64
  | pcg32
  | philox
  | tf20
  | tfr
deriving DecidableEq, Repr

/-- A Mersenne Twister engine of `n` words of `w` bits: `ENG.S` and `ENG.IDX` (R111, R113). -/
structure MtState (w n : Nat) where
  s : Vector (BitVec w) n
  idx : Nat
deriving DecidableEq, Repr

/-- A PCG32 engine: `ENG.STATE` and `ENG.INC` (R114). -/
structure PcgState where
  state : U64
  inc : U64
deriving DecidableEq, Repr

/-- A PHILOX engine: `ENG.CTR`, `ENG.KEY`, `ENG.BUF`, `ENG.POS` (R115). -/
structure PhiloxState where
  ctr : Quad 32
  key : Pair 32
  buf : Quad 32
  pos : Nat
deriving DecidableEq, Repr

/-- A TF20 or TFR engine: `ENG.CTR`, `ENG.KEY`, `ENG.BUF`, `ENG.POS` (R116). -/
structure TfState where
  ctr : Quad 64
  key : Quad 64
  buf : Quad 64
  pos : Nat
deriving DecidableEq, Repr

/-- A constructed engine: its kind and the fields of that kind (R110). Fields of another kind hold no
value (R119), so there are none. -/
inductive Engine where
  | mt32 (e : MtState 32 624)
  | mt64 (e : MtState 64 312)
  | pcg32 (e : PcgState)
  | philox (e : PhiloxState)
  | tf20 (e : TfState)
  | tfr (e : TfState)
deriving DecidableEq, Repr

/-- The sampler's phase register PH (R670), each phase with the registers it reads: MX in the SPLIT
phases, HI in the phases that have one. The other phases read neither. -/
inductive Phase where
  | nat
  | splHi (mx : Nat)
  | splLo (mx hi : Nat)
  | cmpHi
  | cmpLo (hi : Nat)
deriving DecidableEq, Repr

/-- The result width register RW, 32 or 64 (R670). -/
inductive ResultWidth where
  | w32
  | w64
deriving DecidableEq, Repr

/-- The sampler registers of R670. SC and LIM are exact integers: LIM may be `2 ^ 64` (R650, R17). -/
structure Sampler where
  ph : Phase
  sc : Nat
  lim : Nat
  off : Beat
  rw : ResultWidth
deriving DecidableEq, Repr

/-- The sampler state SMP (R124). -/
inductive Smp where
  | idle
  | active (r : Sampler)
deriving DecidableEq, Repr

/-- Why a step stops with a fault. -/
inductive Fault where
  /-- Raised by a sampler step whose engine slot is empty. The spec rules this out (R451, R755) and no
  state that meets `State.Inv` reaches it, so the stop is safe. -/
  | samplerWithoutEngine
deriving DecidableEq, Repr

/-- Why a step is refused. -/
inductive Refusal where
  /-- Raised by an arm of `exec` for a command that has no meaning yet; safe. No arm uses it: every
  command of the opcode table has its meaning. -/
  | notModelled (mnemonic : String)
deriving DecidableEq, Repr

/-- The state of one unit.

`cfg` the parameters of R13, held by the constant registers SEEDCAP, SSMAXOUT and CONFIG (R134 to
R136); `pos` the command-stream position in beats (R102); `cmdq` CMDQ and `rspq` RSPQ, oldest beat
first (R125); `rspPend` the beats of the response under way that RSPQ had no room for (R212, R308);
`status` the register STATUS (R131); `eng` the engine slot, `none` exactly when KIND is NONE (R110,
R119); `sb` the valid entries `SB[0..SEEDLEN-1]` in order, so that SEEDLEN is its length (R122, R123);
`smp` the sampler state (R124). -/
structure State where
  cfg : Config
  pos : Nat
  cmdq : List Beat
  rspq : List Beat
  rspPend : List Beat
  status : BitVec 64
  eng : Option Engine
  sb : List Beat
  smp : Smp
deriving DecidableEq, Repr

/-- The state after reset of a unit configured as `cfg` (R140, R801). -/
def State.resetWith (cfg : Config) : State where
  cfg := cfg
  pos := 0
  cmdq := []
  rspq := []
  rspPend := []
  status := 0
  eng := none
  sb := []
  smp := .idle

/-- The state after reset of a unit in the default configuration (R13, R140, R801). -/
def State.reset : State := State.resetWith Config.specDefault

end Sys2Proof.Machine
end

