-- ==== Sys2Proof/Machine/Flags.lean ====
section
/-! DEFINITION. The block has no condition codes (R103). Its only flags are the four sticky bits of
STATUS, and its only outcome codes those of the status beat: both are given here, with the codes and
field values of the read-only registers KIND and CONFIG. -/

namespace Sys2Proof.Machine

/-- The four errors (R750). -/
inductive Err where
  /-- ArgumentError (R756). -/
  | arg
  /-- IllegalCommand (R757). -/
  | ill
  /-- NotConstructed (R755). -/
  | ncon
  /-- SeedFull (R758). -/
  | sfull
deriving DecidableEq, Repr

/-- The status beat of an OK response (R306, R308). -/
def statusOk : Beat := 0

/-- The status beat of an error: its code in bits [7:0], 0 above (R306, R750). -/
def errCode : Err → Beat
  | .arg => 1
  | .ill => 2
  | .ncon => 3
  | .sfull => 4

/-- The STATUS bit of an error (R131, R750). -/
def errBit : Err → BitVec 64
  | .arg => 1
  | .ill => 2
  | .ncon => 4
  | .sfull => 8

/-- The kind codes of R2 and R132. -/
def kindCode : Kind → Nat
  | .none => 0
  | .mt32 => 1
  | .mt64 => 2
  | .pcg32 => 3
  | .philox => 4
  | .tf20 => 5
  | .tfr => 6

/-- The kind of the engine in a slot (R110, R119). -/
def kindOf : Option Engine → Kind
  | none => .none
  | some (.mt32 _) => .mt32
  | some (.mt64 _) => .mt64
  | some (.pcg32 _) => .pcg32
  | some (.philox _) => .philox
  | some (.tf20 _) => .tf20
  | some (.tfr _) => .tfr

/-- The native width W of an engine (R20, R636). -/
def nativeWidth : Engine → Nat
  | .mt32 _ | .pcg32 _ | .philox _ => 32
  | .mt64 _ | .tf20 _ | .tfr _ => 64

/-- The value of `TF_RED_ROUNDS` (R13). -/
def tfRedRoundCount : TfRedRounds → Nat
  | .r13 => 13
  | .r20 => 20

/-- Field PCGMODE of CONFIG, bit 0 (R136). -/
def pcgModeField : PcgSeedMode → Nat
  | .reference => 0
  | .twoAfterFold => 1

/-- Field B64MODE of CONFIG, bit 1 (R136). -/
def b64ModeField : Bounded64Mode → Nat
  | .split => 0
  | .compose => 1

/-- Field TFRCTR of CONFIG, bit 16 (R136). -/
def tfrCtrField : TfRedCtrBits → Nat
  | .b64 => 0
  | .b256 => 1

/-- The constant register CONFIG; every bit outside its four fields is 0 (R136). -/
def configWord (c : Config) : Beat :=
  BitVec.ofNat 64 (pcgModeField c.pcgSeedMode + 2 * b64ModeField c.bounded64Mode +
    2 ^ 8 * tfRedRoundCount c.tfRedRounds + 2 ^ 16 * tfrCtrField c.tfRedCtrBits)

/-- The register map of R130: the value of register number `reg`, or `none` where the number is not
in the map. -/
def readRegister (s : State) (reg : BitVec 8) : Option Beat :=
  match reg.toNat with
  | 0 => some s.status
  | 1 => some (BitVec.ofNat 64 (kindCode (kindOf s.eng)))
  | 2 => some (BitVec.ofNat 64 s.sb.length)
  | 3 => some (BitVec.ofNat 64 s.cfg.seedCap)
  | 4 => some (BitVec.ofNat 64 s.cfg.ssMaxOut)
  | 5 => some (configWord s.cfg)
  | _ => none

end Sys2Proof.Machine
end

