-- ==== Sys2Proof/Machine/Ops.lean ====
section
/-! DEFINITION. The named operations on the state: responding under the flow control of the response
port, raising an error, consuming a packet, and the engine and seed checks that commands share. The
block has no memory to access (R200) and no trap to enter or return from (R750, R762): `raise` is the
whole of taking an exception, and nothing returns from one. -/

namespace Sys2Proof.Machine

/-- What a meaning answers. -/
abbrev Result := Host.Outcome State Fault Refusal

/-- RSPQ is full (R212). -/
def rspFull (s : State) : Bool :=
  match s.cfg.rspFifoDepth with
  | none => false
  | some d => decide (d ≤ s.rspq.length)

/-- How many of `k` waiting beats RSPQ has room for (R212). -/
def rspRoom (s : State) (k : Nat) : Nat :=
  match s.cfg.rspFifoDepth with
  | none => k
  | some d => min k (d - s.rspq.length)

/-- Append beats to RSPQ behind those still waiting, in order, as far as it has room; the rest wait
(R212, R308). -/
def pushResponse (s : State) (bs : List Beat) : State :=
  let all := s.rspPend ++ bs
  let room := rspRoom s all.length
  { s with rspq := s.rspq ++ all.take room, rspPend := all.drop room }

/-- `Respond(OK, rs)` (R308). -/
def respond (s : State) (rs : List Beat) : State := pushResponse s (statusOk :: rs)

/-- `raise e` (R752): set the error's sticky STATUS bit, send its status beat with no result beats,
and leave the sampler idle. Nothing else changes (R754). -/
def raise (e : Err) (s : State) : State :=
  pushResponse { s with status := s.status ||| errBit e, smp := .idle } [errCode e]

/-- A command that ends with status OK. -/
def answer (s : State) (rs : List Beat) : Result := .next (respond s rs)

/-- A command that ends with an error. -/
def failWith (e : Err) (s : State) : Result := .next (raise e s)

/-- Remove a packet of `len` beats from CMDQ and advance the stream position (R102, R315). -/
def consume (len : Nat) (s : State) : State :=
  { s with cmdq := s.cmdq.drop len, pos := s.pos + len }

/-- The first check of every draw command: NotConstructed while KIND is NONE (R755, R759). -/
def withEngine (s : State) (k : Engine → Result) : Result :=
  match s.eng with
  | none => failWith .ncon s
  | some e => k e

/-- The end of every construction: the slot's engine and KIND are replaced in one update (R512, R804). -/
def construct (e : Engine) (s : State) : Result := answer { s with eng := some e } []

end Sys2Proof.Machine
end

