-- ==== Sys2Proof/Machine/Operands.lean ====
section
/-! DEFINITION. The operand kinds of R303 (`u32`, `i32`, `u64`, `i64`, `n`), the reading of the seed
material buffer as a key array (R402), and the argument checks they carry. -/

namespace Sys2Proof.Machine

/-- The `u32` in bits [31:0] of a beat, if bits [63:32] are 0 (R203, R303). -/
def u32Of (b : Beat) : Option U32 :=
  if b.toNat < 2 ^ 32 then some (b.setWidth 32) else none

/-- Read a 32-bit operand: ArgumentError where bits [63:32] are not 0 (R303, R756). -/
def withU32 (b : Beat) (s : State) (k : U32 → Result) : Result :=
  match u32Of b with
  | none => failWith .arg s
  | some v => k v

/-- `int_k(v)`: the two's-complement value of a `k`-bit pattern (R659). -/
def intOf {k : Nat} (v : BitVec k) : Int :=
  if v.toNat < 2 ^ (k - 1) then (v.toNat : Int) else (v.toNat : Int) - 2 ^ k

/-- `Key32(SB, L)`: the key array of a 32-bit network, if no entry is wider than 32 bits (R402). -/
def key32 (sb : List Beat) : Option (List U32) :=
  if sb.all fun b => b.toNat < 2 ^ 32 then some (sb.map fun b => b.setWidth 32) else none

/-- Read SB as the key of a 32-bit network: ArgumentError for an empty buffer, then for an entry wider
than 32 bits (R402, R404, R756). -/
def withKey32 (s : State) (k : List U32 → Result) : Result :=
  if s.sb = [] then failWith .arg s
  else match key32 s.sb with
    | none => failWith .arg s
    | some key => k key

/-- Read SB as the key of a 64-bit network: ArgumentError for an empty buffer (R402, R404). -/
def withKey64 (s : State) (k : List U64 → Result) : Result :=
  if s.sb = [] then failWith .arg s else k s.sb

/-- Read an output length `n`: ArgumentError where it is over SS_MAX_OUT (R404). -/
def withLength (n : Beat) (s : State) (k : Nat → Result) : Result :=
  if s.cfg.ssMaxOut < n.toNat then failWith .arg s else k n.toNat

/-- Read an InitByArray output length: ArgumentError where it is over SS_MAX_OUT or is 1 (R404,
R409). -/
def withArrayLength (n : Beat) (s : State) (k : Nat → Result) : Result :=
  if s.cfg.ssMaxOut < n.toNat ∨ n.toNat = 1 then failWith .arg s else k n.toNat

end Sys2Proof.Machine
end

