-- ==== Sys2Proof/Machine/CounterBased.lean ====
section
/-! DEFINITION. The counter-based engines (44_counter_based.md): the Philox4×32 and ThreeFry4×64 block
functions, the counter, the draw and the three constructions. -/

namespace Sys2Proof.Machine

/-! ### Philox4×32 -/

/-- Bits [63:32] of the exact product (R16, R611). -/
def mulhi32 (a b : U32) : U32 := BitVec.ofNat 32 (a.toNat * b.toNat / 2 ^ 32)

/-- Bits [31:0] of the exact product (R16, R611). -/
def mullo32 (a b : U32) : U32 := BitVec.ofNat 32 (a.toNat * b.toNat)

/-- M0 (R612). -/
def philoxM0 : U32 := 0xD2511F53

/-- M1 (R612). -/
def philoxM1 : U32 := 0xCD9E8D57

/-- W0 (R612). -/
def philoxW0 : U32 := 0x9E3779B9

/-- W1 (R612). -/
def philoxW1 : U32 := 0xBB67AE85

/-- `PhiloxRound(c, k0, k1)` (R611). -/
def philoxRound (c : Quad 32) (k : Pair 32) : Quad 32 :=
  ⟨mulhi32 philoxM1 c.x2 ^^^ c.x1 ^^^ k.k0, mullo32 philoxM1 c.x2,
    mulhi32 philoxM0 c.x0 ^^^ c.x3 ^^^ k.k1, mullo32 philoxM0 c.x0⟩

/-- The Weyl bump of the key between two rounds (R610). -/
def philoxBump (k : Pair 32) : Pair 32 := ⟨k.k0 + philoxW0, k.k1 + philoxW1⟩

/-- `r` rounds, the first with the key as it stands and each later one with the key bumped once more
(R610). -/
def philoxRounds : Nat → Quad 32 → Pair 32 → Quad 32
  | 0, c, _ => c
  | r + 1, c, k => philoxRounds r (philoxRound c k) (philoxBump k)

/-- `PhiloxBlock(ctr, key)`: 10 rounds (R610, R612). -/
def philoxBlock (ctr : Quad 32) (key : Pair 32) : Quad 32 := philoxRounds 10 ctr key

/-! ### ThreeFry4×64 -/

/-- The rotation amounts (a, b) of round `r` (R621). -/
def threeFryRot (r : Nat) : Nat × Nat :=
  match r % 8 with
  | 0 => (14, 16)
  | 1 => (52, 57)
  | 2 => (23, 40)
  | 3 => (5, 37)
  | 4 => (25, 33)
  | 5 => (46, 12)
  | 6 => (58, 22)
  | _ => (32, 32)

/-- The parity constant (R623). -/
def threeFryParity : U64 := 0x1BD11BDAA9FC1A22

/-- The key schedule word `ks[i mod 5]` (R622, R623). -/
def threeFryKs (key : Quad 64) (i : Nat) : U64 :=
  match i % 5 with
  | 0 => key.x0
  | 1 => key.x1
  | 2 => key.x2
  | 3 => key.x3
  | _ => threeFryParity ^^^ key.x0 ^^^ key.x1 ^^^ key.x2 ^^^ key.x3

/-- Injection of subkey `s` (R622). Subkey 0 is the initial injection of R620, whose `+ s` adds 0. -/
def threeFryInject (key : Quad 64) (s : Nat) (x : Quad 64) : Quad 64 :=
  ⟨x.x0 + threeFryKs key s, x.x1 + threeFryKs key (s + 1), x.x2 + threeFryKs key (s + 2),
    x.x3 + threeFryKs key (s + 3) + BitVec.ofNat 64 s⟩

/-- The mixing of round `r`, without the injection (R620): in each line the left assignment is made
first and the right one reads its result. -/
def threeFryMix (r : Nat) (x : Quad 64) : Quad 64 :=
  let ab := threeFryRot r
  if r % 2 = 0 then
    let y0 := x.x0 + x.x1
    let y2 := x.x2 + x.x3
    ⟨y0, rotl x.x1 ab.1 ^^^ y0, y2, rotl x.x3 ab.2 ^^^ y2⟩
  else
    let y0 := x.x0 + x.x3
    let y2 := x.x2 + x.x1
    ⟨y0, rotl x.x1 ab.2 ^^^ y2, y2, rotl x.x3 ab.1 ^^^ y0⟩

/-- Round `r` with the injection that follows every fourth round (R620, R622). -/
def threeFryRound (key : Quad 64) (x : Quad 64) (r : Nat) : Quad 64 :=
  if r % 4 = 3 then threeFryInject key ((r + 1) / 4) (threeFryMix r x) else threeFryMix r x

/-- `ThreeFryBlock(ctr, key, R)` (R620). -/
def threeFryBlock (ctr key : Quad 64) (rounds : Nat) : Quad 64 :=
  (List.range rounds).foldl (threeFryRound key) (threeFryInject key 0 ctr)

/-! ### Counter and draw -/

/-- `Inc(CTR)` with full carry propagation, modulo `2 ^ (4w)` (R635). -/
def incFull {w : Nat} (c : Quad w) : Quad w :=
  if c.x0 + 1 ≠ 0 then { c with x0 := c.x0 + 1 }
  else if c.x1 + 1 ≠ 0 then { c with x0 := 0, x1 := c.x1 + 1 }
  else if c.x2 + 1 ≠ 0 then { c with x0 := 0, x1 := 0, x2 := c.x2 + 1 }
  else ⟨0, 0, 0, c.x3 + 1⟩

/-- `Inc(CTR)` of a TFR engine, whose width is `TF_RED_CTR_BITS` (R637). -/
def incTfr (bits : TfRedCtrBits) (c : Quad 64) : Quad 64 :=
  match bits with
  | .b64 => { c with x0 := c.x0 + 1 }
  | .b256 => incFull c

/-- `RawDraw()` of a PHILOX engine (R640): the block is computed from the counter before the
increment. -/
def philoxDraw (e : PhiloxState) : U32 × PhiloxState :=
  let e := if e.pos = 4 then
      { e with buf := philoxBlock e.ctr e.key, ctr := incFull e.ctr, pos := 0 }
    else e
  (quadWord e.buf e.pos, { e with pos := e.pos + 1 })

/-- `RawDraw()` of a ThreeFry engine of `rounds` rounds and counter increment `inc` (R640). -/
def tfDraw (rounds : Nat) (inc : Quad 64 → Quad 64) (e : TfState) : U64 × TfState :=
  let e := if e.pos = 4 then
      { e with buf := threeFryBlock e.ctr e.key rounds, ctr := inc e.ctr, pos := 0 }
    else e
  (quadWord e.buf e.pos, { e with pos := e.pos + 1 })

/-- `RawDraw()` of a TF20 engine: 20 rounds and the full counter (R620, R635, R640). -/
def tf20Draw (e : TfState) : U64 × TfState := tfDraw 20 incFull e

/-- `RawDraw()` of a TFR engine: the configured rounds and counter (R637, R640). -/
def tfrDraw (c : Config) (e : TfState) : U64 × TfState :=
  tfDraw (tfRedRoundCount c.tfRedRounds) (incTfr c.tfRedCtrBits) e

/-! ### Construction -/

/-- A counter of zero (R630, R631, R632). -/
def quadZero (w : Nat) : Quad w := ⟨0, 0, 0, 0⟩

/-- The PHILOX engine right after construction; its BUF is a free value (R630, log entry 3). -/
def philoxFresh (key : Pair 32) (at_ : Nat) : PhiloxState :=
  ⟨quadZero 32, key, Config.freeBuf32 at_, 4⟩

/-- A ThreeFry engine right after construction; its BUF is a free value (R631, R632, log entry 3). -/
def tfFresh (key : Quad 64) (at_ : Nat) : TfState :=
  ⟨quadZero 64, key, Config.freeBuf64 at_, 4⟩

/-- PHILOX_SEED (R630). -/
def execPhiloxSeed (k0 k1 : Beat) (s : State) : Result :=
  withU32 k0 s fun a => withU32 k1 s fun b => construct (.philox (philoxFresh ⟨a, b⟩ s.pos)) s

/-- TF20_SEED (R631). -/
def execTf20Seed (k0 k1 k2 k3 : Beat) (s : State) : Result :=
  construct (.tf20 (tfFresh ⟨k0, k1, k2, k3⟩ s.pos)) s

/-- TFR_SEED (R632). -/
def execTfrSeed (k0 k1 k2 k3 : Beat) (s : State) : Result :=
  construct (.tfr (tfFresh ⟨k0, k1, k2, k3⟩ s.pos)) s

end Sys2Proof.Machine
end

