-- ==== Sys2Proof/Machine/SeedSeq.lean ====
section
/-! DEFINITION. The SeedSequence networks (40_seedseq.md): InitGenRand, InitByArray and seed_seq, pure
functions of the seed material and the output length (R403). -/

namespace Sys2Proof.Machine

/-! ### InitGenRand -/

/-- The multiplier and the shift of one InitGenRand form (R405, R406). -/
structure IgrParams (w : Nat) where
  mul : BitVec w
  sh : Nat

/-- InitGenRand32 (R405). -/
def igr32Params : IgrParams 32 := ⟨1812433253, 30⟩

/-- InitGenRand64 (R406). -/
def igr64Params : IgrParams 64 := ⟨6364136223846793005, 62⟩

/-- One step of the recurrence: `S[i]` from `S[i-1]` (R405, R406). -/
def igrNext {w : Nat} (p : IgrParams w) (prev : BitVec w) (i : Nat) : BitVec w :=
  p.mul * (prev ^^^ (prev >>> p.sh)) + BitVec.ofNat w i

/-- The `k` words `S[i], …, S[i+k-1]` that follow `S[i-1] = prev`. -/
def igrFrom {w : Nat} (p : IgrParams w) (prev : BitVec w) (i : Nat) : Nat → List (BitVec w)
  | 0 => []
  | k + 1 => igrNext p prev i :: igrFrom p (igrNext p prev i) (i + 1) k

/-- `InitGenRand_w(seed, n)` (R405, R406). -/
def initGenRand {w : Nat} (p : IgrParams w) (seed : BitVec w) : Nat → List (BitVec w)
  | 0 => []
  | n + 1 => seed :: igrFrom p seed 1 n

theorem igrFrom_length {w : Nat} (p : IgrParams w) (prev : BitVec w) (i k : Nat) :
    (igrFrom p prev i k).length = k := by
  induction k generalizing prev i with
  | zero => rfl
  | succ k ih => simp [igrFrom, ih]

theorem initGenRand_length {w : Nat} (p : IgrParams w) (seed : BitVec w) (n : Nat) :
    (initGenRand p seed n).length = n := by
  cases n with
  | zero => rfl
  | succ n => simp [initGenRand, igrFrom_length]

/-! ### InitByArray -/

/-- The constants of one InitByArray form (R408) with the InitGenRand it starts from. -/
structure IbaParams (w : Nat) where
  igr : IgrParams w
  sh : Nat
  c2 : BitVec w
  c3 : BitVec w
  top : BitVec w

/-- InitByArray_32 (R408). -/
def iba32Params : IbaParams 32 := ⟨igr32Params, 30, 1664525, 1566083941, 0x80000000⟩

/-- InitByArray_64 (R408). -/
def iba64Params : IbaParams 64 :=
  ⟨igr64Params, 62, 3935559000370003845, 2862933555777941757, 0x8000000000000000⟩

/-- The InitByArray pre-seed constant (R11, R408). -/
def ibaPreSeed (w : Nat) : BitVec w := BitVec.ofNat w 19650218

/-- Where an InitByArray pass stands: the array S and the indices i and j (R407). -/
structure IbaCursor (w : Nat) where
  s : List (BitVec w)
  i : Nat
  j : Nat

/-- After an index step to `i`: at the end of the array, copy `S[n-1]` into `S[0]` and restart at 1
(R407). -/
def ibaWrap {w : Nat} (s : List (BitVec w)) (n i j : Nat) : IbaCursor w :=
  if n ≤ i then ⟨wr s 0 (rd s (n - 1)), 1, j⟩ else ⟨s, i, j⟩

/-- The common term `S[i] ^ ((S[i-1] ^ (S[i-1] >> SH)) * C)` of both passes (R407). -/
def ibaTerm {w : Nat} (sh : Nat) (c : BitVec w) (s : List (BitVec w)) (i : Nat) : BitVec w :=
  rd s i ^^^ ((rd s (i - 1) ^^^ (rd s (i - 1) >>> sh)) * c)

/-- One step of the first pass, which mixes in the key (R407). -/
def ibaMixStep {w : Nat} (p : IbaParams w) (key : List (BitVec w)) (n : Nat) (c : IbaCursor w) :
    IbaCursor w :=
  let s := wr c.s c.i (ibaTerm p.sh p.c2 c.s c.i + rd key c.j + BitVec.ofNat w c.j)
  ibaWrap s n (c.i + 1) (if key.length ≤ c.j + 1 then 0 else c.j + 1)

/-- One step of the second, subtractive pass (R407). -/
def ibaSubStep {w : Nat} (p : IbaParams w) (n : Nat) (c : IbaCursor w) : IbaCursor w :=
  let s := wr c.s c.i (ibaTerm p.sh p.c3 c.s c.i - BitVec.ofNat w c.i)
  ibaWrap s n (c.i + 1) c.j

/-- `InitByArray_w(key, n)` for a key of at least one word and `n ≥ 2` (R407). -/
def initByArray {w : Nat} (p : IbaParams w) (key : List (BitVec w)) (n : Nat) : List (BitVec w) :=
  let start : IbaCursor w := ⟨initGenRand p.igr (ibaPreSeed w) n, 1, 0⟩
  let mixed := (ibaMixStep p key n)^[max n key.length] start
  let done := (ibaSubStep p n)^[n - 1] mixed
  wr done.s 0 p.top

theorem ibaWrap_length {w : Nat} (s : List (BitVec w)) (n i j : Nat) :
    (ibaWrap s n i j).s.length = s.length := by
  unfold ibaWrap
  split <;> simp [wr_length]

theorem ibaMixStep_length {w : Nat} (p : IbaParams w) (key : List (BitVec w)) (n : Nat)
    (c : IbaCursor w) : (ibaMixStep p key n c).s.length = c.s.length := by
  simp [ibaMixStep, ibaWrap_length, wr_length]

theorem ibaSubStep_length {w : Nat} (p : IbaParams w) (n : Nat) (c : IbaCursor w) :
    (ibaSubStep p n c).s.length = c.s.length := by
  simp [ibaSubStep, ibaWrap_length, wr_length]

/-- A step that keeps the length of S keeps it when repeated. -/
theorem iterate_keeps_length {w : Nat} (f : IbaCursor w → IbaCursor w)
    (hf : ∀ c, (f c).s.length = c.s.length) (k : Nat) (c : IbaCursor w) :
    (f^[k] c).s.length = c.s.length := by
  induction k generalizing c with
  | zero => rfl
  | succ k ih => rw [Function.iterate_succ_apply, ih, hf]

theorem initByArray_length {w : Nat} (p : IbaParams w) (key : List (BitVec w)) (n : Nat) :
    (initByArray p key n).length = n := by
  simp only [initByArray, wr_length]
  rw [iterate_keeps_length _ (ibaSubStep_length p n), iterate_keeps_length _ (ibaMixStep_length p key n),
    initGenRand_length]

/-! ### seed_seq -/

/-- `TableT(n)` (R413). -/
def seedSeqT (n : Nat) : Nat :=
  if 623 ≤ n then 11
  else if 68 ≤ n then 7
  else if 39 ≤ n then 5
  else if 7 ≤ n then 3
  else (n - 1) / 2

/-- The offset p of R412. -/
def seedSeqP (n : Nat) : Nat := (n - seedSeqT n) / 2

/-- The offset q of R412. -/
def seedSeqQ (n : Nat) : Nat := seedSeqP n + seedSeqT n

/-- `T(x)` (R412). -/
def seedSeqTemper (x : U32) : U32 := x ^^^ (x >>> 27)

/-- One step of passes 1 to 3 (R412): the three writes happen in order. -/
def seedSeqMixStep (v : List U32) (n : Nat) (b : List U32) (k : Nat) : List U32 :=
  let kp := (k + seedSeqP n) % n
  let kq := (k + seedSeqQ n) % n
  let a := rd b (k % n) ^^^ rd b kp ^^^ rd b ((k + n - 1) % n)
  let r1 := 1664525 * seedSeqTemper a
  let r2 :=
    if k = 0 then r1 + BitVec.ofNat 32 v.length
    else if k ≤ v.length then r1 + BitVec.ofNat 32 (k % n) + rd v (k - 1)
    else r1 + BitVec.ofNat 32 (k % n)
  let b := wr b kp (rd b kp + r1)
  let b := wr b kq (rd b kq + r2)
  wr b (k % n) r2

/-- One step of pass 4 (R412): the three writes happen in order. -/
def seedSeqXorStep (n : Nat) (b : List U32) (k : Nat) : List U32 :=
  let kp := (k + seedSeqP n) % n
  let kq := (k + seedSeqQ n) % n
  let a := rd b (k % n) + rd b kp + rd b ((k + n - 1) % n)
  let r3 := 1566083941 * seedSeqTemper a
  let r4 := r3 - BitVec.ofNat 32 (k % n)
  let b := wr b kp (rd b kp ^^^ r3)
  let b := wr b kq (rd b kq ^^^ r4)
  wr b (k % n) r4

/-- `SeedSeq(v, n)` for a seed of at least one word (R412). -/
def seedSeq (v : List U32) (n : Nat) : List U32 :=
  if n = 0 then []
  else
    let m := max (v.length + 1) n
    let mixed := (List.range m).foldl (seedSeqMixStep v n) (List.replicate n 0x8B8B8B8B)
    (List.range' m n).foldl (seedSeqXorStep n) mixed

/-- A step that keeps the length of an array keeps it over a whole loop. -/
theorem foldl_keeps_length {w : Nat} (f : List (BitVec w) → Nat → List (BitVec w))
    (hf : ∀ b k, (f b k).length = b.length) (ks : List Nat) (b : List (BitVec w)) :
    (ks.foldl f b).length = b.length := by
  induction ks generalizing b with
  | nil => rfl
  | cons k ks ih => rw [List.foldl_cons, ih, hf]

theorem seedSeq_length (v : List U32) (n : Nat) : (seedSeq v n).length = n := by
  unfold seedSeq
  split
  · simp [*]
  · rw [foldl_keeps_length _ (by simp [seedSeqXorStep, wr_length]),
      foldl_keeps_length _ (by simp [seedSeqMixStep, wr_length]), List.length_replicate]

end Sys2Proof.Machine
end

