-- ==== Sys2Proof/Machine/Mersenne.lean ====
section
/-! DEFINITION. The Mersenne Twister engines (42_mersenne_twister.md): parameters, tempering, twist,
draw and the five constructions. -/

namespace Sys2Proof.Machine

/-- The parameters of a Mersenne Twister kind (R500); N is the length of its array. -/
structure MtParams (w : Nat) where
  m : Nat
  a : BitVec w
  um : BitVec w
  lm : BitVec w

/-- MT32 (R500). -/
def mt32Params : MtParams 32 := ⟨397, 0x9908B0DF, 0x80000000, 0x7FFFFFFF⟩

/-- MT64 (R500). -/
def mt64Params : MtParams 64 :=
  ⟨156, 0xB5026F5AA96619E9, 0xFFFFFFFF80000000, 0x000000007FFFFFFF⟩

/-- `Temper32(y)` (R502). -/
def temper32 (y : U32) : U32 :=
  let y := y ^^^ (y >>> 11)
  let y := y ^^^ ((y <<< 7) &&& 0x9D2C5680)
  let y := y ^^^ ((y <<< 15) &&& 0xEFC60000)
  y ^^^ (y >>> 18)

/-- `Temper64(x)` (R503). -/
def temper64 (x : U64) : U64 :=
  let x := x ^^^ ((x >>> 29) &&& 0x5555555555555555)
  let x := x ^^^ ((x <<< 17) &&& 0x71D67FFFEDA60000)
  let x := x ^^^ ((x <<< 37) &&& 0xFFF7EEE000000000)
  x ^^^ (x >>> 43)

/-- The new word made of the high bits of `hi`, the low bits of `lo` and the word `x` at offset M
(R505). -/
def twistWord {w : Nat} (p : MtParams w) (hi lo x : BitVec w) : BitVec w :=
  let y := (hi &&& p.um) ||| (lo &&& p.lm)
  x ^^^ (y >>> 1) ^^^ (if y.getLsbD 0 then p.a else 0)

/-- Step `i` of the twist of an array of `n` words, in place (R505, R506). -/
def twistStep {w : Nat} (p : MtParams w) (n : Nat) (s : List (BitVec w)) (i : Nat) :
    List (BitVec w) :=
  wr s i (twistWord p (rd s i) (rd s ((i + 1) % n)) (rd s ((i + p.m) % n)))

/-- `Twist()`: the steps 0 to N-1 in ascending order, each reading the array as it then stands
(R505, R506). -/
def twistList {w : Nat} (p : MtParams w) (n : Nat) (s : List (BitVec w)) : List (BitVec w) :=
  (List.range n).foldl (twistStep p n) s

theorem twistList_length {w : Nat} (p : MtParams w) (n : Nat) (s : List (BitVec w)) :
    (twistList p n s).length = s.length :=
  foldl_keeps_length _ (by simp [twistStep, wr_length]) _ _

/-- `Twist()` on the engine's array. -/
def twist {w n : Nat} (p : MtParams w) (s : Vector (BitVec w) n) : Vector (BitVec w) n :=
  ⟨(twistList p n s.toList).toArray, by simp [twistList_length]⟩

/-- `RawDraw()` of a Mersenne Twister engine, before tempering (R510): twist when IDX = N, then take
the word at IDX. The stored word is not tempered (R112). -/
def mtDraw {w n : Nat} (p : MtParams w) (e : MtState w n) : BitVec w × MtState w n :=
  let e := if e.idx = n then ⟨twist p e.s, 0⟩ else e
  (rd e.s.toList e.idx, { e with idx := e.idx + 1 })

/-- The engine after a construction whose SeedSequence output is `s`: IDX = N forces a twist on the
first draw (R512). -/
def mtFresh {w n : Nat} (s : List (BitVec w)) (h : s.length = n) : MtState w n :=
  ⟨⟨s.toArray, by simp [h]⟩, n⟩

/-- MT32_SEED (R520). -/
def execMt32Seed (seed : Beat) (s : State) : Result :=
  withU32 seed s fun v =>
    construct (.mt32 (mtFresh (initGenRand igr32Params v 624) (initGenRand_length _ _ _))) s

/-- MT32_SEED_ARRAY (R521). -/
def execMt32SeedArray (s : State) : Result :=
  withKey32 s fun key =>
    construct (.mt32 (mtFresh (initByArray iba32Params key 624) (initByArray_length _ _ _))) s

/-- MT32_SEED_SEQ (R522): the state is loaded as the network produced it (D15). -/
def execMt32SeedSeq (s : State) : Result :=
  withKey32 s fun v => construct (.mt32 (mtFresh (seedSeq v 624) (seedSeq_length _ _))) s

/-- MT64_SEED (R530). -/
def execMt64Seed (seed : Beat) (s : State) : Result :=
  construct (.mt64 (mtFresh (initGenRand igr64Params seed 312) (initGenRand_length _ _ _))) s

/-- MT64_SEED_ARRAY (R531). -/
def execMt64SeedArray (s : State) : Result :=
  withKey64 s fun key =>
    construct (.mt64 (mtFresh (initByArray iba64Params key 312) (initByArray_length _ _ _))) s

end Sys2Proof.Machine
end

