-- ==== Sys2Proof/Machine/Pcg.lean ====
section
/-! DEFINITION. The permuted congruential generator PCG-XSH-RR (43_pcg.md): step, output, warm-up and
construction. -/

namespace Sys2Proof.Machine

/-- The LCG multiplier (R11, R552). -/
def pcgMul : U64 := 6364136223846793005

/-- The LCG register after one step (R552). -/
def pcgAdvance (e : PcgState) : PcgState := { e with state := e.state * pcgMul + e.inc }

/-- `PcgOutput(old)`: xorshift high, random rotate (R553). -/
def pcgOutput (old : U64) : U32 :=
  let xs : U32 := (((old >>> 18) ^^^ old) >>> 27).setWidth 32
  rotr32 xs (old >>> 59).toNat

/-- `RawDraw()` of a PCG32 engine: a function of the state before the step (R552, R554). -/
def pcgDraw (e : PcgState) : U32 × PcgState := (pcgOutput e.state, pcgAdvance e)

/-- The increment of a stream, odd by construction (R550). -/
def pcgInc (stream : U64) : U64 := (stream <<< 1) ||| 1

/-- The warm-up of `PCG_SEED_MODE` (R551). -/
def pcgWarmUp (mode : PcgSeedMode) (initstate inc : U64) : PcgState :=
  match mode with
  | .reference =>
    let e := pcgAdvance ⟨0, inc⟩
    pcgAdvance { e with state := e.state + initstate }
  | .twoAfterFold => pcgAdvance (pcgAdvance ⟨initstate, inc⟩)

/-- PCG32_SEED (R550). -/
def execPcg32Seed (initstate stream : Beat) (s : State) : Result :=
  if 2 ^ 63 ≤ stream.toNat then failWith .arg s
  else construct (.pcg32 (pcgWarmUp s.cfg.pcgSeedMode initstate (pcgInc stream))) s

end Sys2Proof.Machine
end

