-- ==== Sys2Proof/Machine/Engine.lean ====
section
/-! DEFINITION. The engine base (41_engine_base.md sections 1 and 2): the one primitive `RawDraw`, the
words derived from it, and the raw-word commands. -/

namespace Sys2Proof.Machine

/-- `RawDraw()`: one raw word of the engine's native width, zero-extended into a beat, and the engine
after it (R450, R451). It never fails (R770). -/
def rawDraw (c : Config) : Engine → Beat × Engine
  | .mt32 e => (zext64 (temper32 (mtDraw mt32Params e).1), .mt32 (mtDraw mt32Params e).2)
  | .mt64 e => (temper64 (mtDraw mt64Params e).1, .mt64 (mtDraw mt64Params e).2)
  | .pcg32 e => (zext64 (pcgDraw e).1, .pcg32 (pcgDraw e).2)
  | .philox e => (zext64 (philoxDraw e).1, .philox (philoxDraw e).2)
  | .tf20 e => ((tf20Draw e).1, .tf20 (tf20Draw e).2)
  | .tfr e => ((tfrDraw c e).1, .tfr (tfrDraw c e).2)

/-- `NextU32()`: the raw word of a 32-bit engine. On a 64-bit engine the rejection scheme with max =
`2 ^ 32 - 1` accepts every draw and divides it by `2 ^ 32`: the high half (R454). -/
def nextWord32 (c : Config) (e : Engine) : Beat × Engine :=
  let d := rawDraw c e
  if nativeWidth e = 32 then d else (d.1 >>> 32, d.2)

/-- `NextU64()`: the raw word of a 64-bit engine, or two raw words of a 32-bit engine with the first
high (R455). -/
def nextWord64 (c : Config) (e : Engine) : Beat × Engine :=
  let d1 := rawDraw c e
  if nativeWidth e = 32 then
    let d2 := rawDraw c d1.2
    (joinWords d1.1 d2.1, d2.2)
  else d1

/-- The end of a command that drew from the engine: the slot holds the engine after its draws, and the
response is one result beat. -/
def answerDraw (s : State) (r : Beat) (e : Engine) : Result := answer { s with eng := some e } [r]

/-- NEXT_U32 (R452). -/
def execNextU32 (s : State) : Result :=
  withEngine s fun e => answerDraw s (nextWord32 s.cfg e).1 (nextWord32 s.cfg e).2

/-- NEXT_U64 (R453). -/
def execNextU64 (s : State) : Result :=
  withEngine s fun e => answerDraw s (nextWord64 s.cfg e).1 (nextWord64 s.cfg e).2

end Sys2Proof.Machine
end

