-- ==== Sys2Proof/Machine/Canon.lean ====
section
/-! DEFINITION. The canonical double normalizer (41_engine_base.md sections 3 and 4): binary64 patterns
computed exactly, and the six commands that answer them. -/

namespace Sys2Proof.Machine

/-- The binary64 pattern of `k · 2^-53` for `0 ≤ k ≤ 2^53` (R464). The fraction is `k · 2^(52-e) -
2^52`, exact in ℕ: where `e = 53` the only `k` is `2^53`, and `2^(52-e)` is a half. -/
def f64Pattern (k : Nat) : Beat :=
  if k = 0 then 0
  else
    let e := k.log2
    let scaled := if e ≤ 52 then k * 2 ^ (52 - e) else k / 2 ^ (e - 52)
    BitVec.ofNat 64 ((1023 + e - 53) * 2 ^ 52 + (scaled - 2 ^ 52))

/-- `Canonical(b)` (R460). -/
def canonical (b : Beat) : Beat := f64Pattern (b >>> 11).toNat

/-- `IncrementedCanonical(b)`, the sum taken in ℕ (R461). -/
def incrementedCanonical (b : Beat) : Beat := f64Pattern ((b >>> 11).toNat + 1)

/-- `SymmetricCanonical(b)`: sign b[63], magnitude b[62:10]; negating sets bit 63 (R462, R464). -/
def symmetricCanonical (b : Beat) : Beat :=
  let m := f64Pattern (b.extractLsb' 10 53).toNat
  if b.getLsbD 63 then m ||| 0x8000000000000000 else m

/-- CANON (R470, R465). -/
def execCanon (s : State) : Result :=
  withEngine s fun e => answerDraw s (canonical (nextWord64 s.cfg e).1) (nextWord64 s.cfg e).2

/-- CANON_INC (R471, R465). -/
def execCanonInc (s : State) : Result :=
  withEngine s fun e =>
    answerDraw s (incrementedCanonical (nextWord64 s.cfg e).1) (nextWord64 s.cfg e).2

/-- CANON_SYM (R472, R465). -/
def execCanonSym (s : State) : Result :=
  withEngine s fun e =>
    answerDraw s (symmetricCanonical (nextWord64 s.cfg e).1) (nextWord64 s.cfg e).2

/-- NORM_CANON (R473): needs no engine. -/
def execNormCanon (w : Beat) (s : State) : Result := answer s [canonical w]

/-- NORM_CANON_INC (R474): needs no engine. -/
def execNormCanonInc (w : Beat) (s : State) : Result := answer s [incrementedCanonical w]

/-- NORM_CANON_SYM (R475): needs no engine. -/
def execNormCanonSym (w : Beat) (s : State) : Result := answer s [symmetricCanonical w]

end Sys2Proof.Machine
end

