-- ==== Sys2Proof/Machine/Control.lean ====
section
/-! DEFINITION. The control commands (46_control.md). -/

namespace Sys2Proof.Machine

/-- NOP (R700). -/
def execNop (s : State) : Result := answer s []

/-- READ_REG (R701): a number outside the map of R130 raises IllegalCommand; reading STATUS does not
clear it. -/
def execReadReg (reg : BitVec 8) (s : State) : Result :=
  match readRegister s reg with
  | none => failWith .ill s
  | some v => answer s [v]

end Sys2Proof.Machine
end

