-- ==== Sys2Proof/Machine/Range.lean ====
section
/-! DEFINITION. The range rejection sampler (45_range.md): the loop constants, the bounded draws of
each width, the sampler's micro-step machine of R670 and the six range commands that start it. -/

namespace Sys2Proof.Machine

/-- `⌊2^k / range⌋` with range = max + 1, exact (R650, R17). -/
def scalingOf (k max : Nat) : Nat := 2 ^ k / (max + 1)

/-- `range · scaling`, exact: it may be `2 ^ k` (R650, R17). -/
def limitOf (k max : Nat) : Nat := (max + 1) * scalingOf k max

/-- A bounded draw B that `Start` is given: its initial phase and loop constants (R670). -/
structure Bound where
  ph : Phase
  sc : Nat
  lim : Nat
deriving DecidableEq, Repr

/-- `BoundedNative_k(max)` (R650, R651). -/
def boundedNative (k max : Nat) : Bound := ⟨.nat, scalingOf k max, limitOf k max⟩

/-- SPLIT on a 32-bit engine (R656). -/
def boundedSplit (max : Nat) : Bound :=
  if max < 2 ^ 32 then boundedNative 32 max
  else ⟨.splHi max, scalingOf 32 (max / 2 ^ 32), limitOf 32 (max / 2 ^ 32)⟩

/-- COMPOSE on a 32-bit engine (R657). -/
def boundedCompose (max : Nat) : Bound := ⟨.cmpHi, scalingOf 64 max, limitOf 64 max⟩

/-- `Bounded32(max)` (R654). -/
def bounded32 (e : Engine) (max : Nat) : Bound := boundedNative (nativeWidth e) max

/-- `Bounded64(max)` (R655). -/
def bounded64 (c : Config) (e : Engine) (max : Nat) : Bound :=
  if nativeWidth e = 32 then
    match c.bounded64Mode with
    | .split => boundedSplit max
    | .compose => boundedCompose max
  else boundedNative 64 max

/-- RW in bits (R670). -/
def resultBits : ResultWidth → Nat
  | .w32 => 32
  | .w64 => 64

/-- `Start(B, offset o, width r)`: checks nothing, loads the sampler registers and ends the command
step; the response comes later (R670). -/
def start (b : Bound) (off : Beat) (rw : ResultWidth) (s : State) : Result :=
  .next { s with smp := .active ⟨b.ph, b.sc, b.lim, off, rw⟩ }

/-- The result beat `(OFF + x) mod 2^RW`, zero-extended (R670). -/
def resultBeat (r : Sampler) (x : Nat) : Beat :=
  BitVec.ofNat 64 ((r.off.toNat + x) % 2 ^ resultBits r.rw)

/-- `Finish(x)` (R670). -/
def finish (r : Sampler) (x : Nat) (s : State) : State :=
  respond { s with smp := .idle } [resultBeat r x]

/-- Go on in phase `ph` (R670). -/
def goOn (r : Sampler) (ph : Phase) (s : State) : State :=
  { s with smp := .active { r with ph := ph } }

/-- What a sampler step does with the raw word `d` it drew (R670). -/
def samplerDecide (r : Sampler) (d : Nat) (s : State) : State :=
  match r.ph with
  | .nat => if d < r.lim then finish r (d / r.sc) s else goOn r .nat s
  | .splHi mx => if d < r.lim then goOn r (.splLo mx (d / r.sc)) s else goOn r (.splHi mx) s
  | .splLo mx hi =>
    if hi * 2 ^ 32 + d ≤ mx then finish r (hi * 2 ^ 32 + d) s else goOn r (.splHi mx) s
  | .cmpHi => goOn r (.cmpLo d) s
  | .cmpLo hi =>
    if hi * 2 ^ 32 + d < r.lim then finish r ((hi * 2 ^ 32 + d) / r.sc) s else goOn r .cmpHi s

/-- One sampler step: exactly one RawDraw (R670, R671). -/
def samplerStep (r : Sampler) (s : State) : Result :=
  match s.eng with
  | none => .fault .samplerWithoutEngine
  | some e =>
    let d := rawDraw s.cfg e
    .next (samplerDecide r d.1.toNat { s with eng := some d.2 })

/-- BOUNDED_U32 (R660). -/
def execBoundedU32 (max : Beat) (s : State) : Result :=
  withEngine s fun e => withU32 max s fun m => start (bounded32 e m.toNat) 0 .w32 s

/-- BOUNDED_U64 (R661). -/
def execBoundedU64 (max : Beat) (s : State) : Result :=
  withEngine s fun e => start (bounded64 s.cfg e max.toNat) 0 .w64 s

/-- RANGE_U32 (R658, R662). -/
def execRangeU32 (min max : Beat) (s : State) : Result :=
  withEngine s fun e => withU32 min s fun lo => withU32 max s fun hi =>
    if hi.toNat < lo.toNat then failWith .arg s
    else start (bounded32 e (hi.toNat - lo.toNat)) (zext64 lo) .w32 s

/-- RANGE_U64 (R658, R663). -/
def execRangeU64 (min max : Beat) (s : State) : Result :=
  withEngine s fun e =>
    if max.toNat < min.toNat then failWith .arg s
    else start (bounded64 s.cfg e (max.toNat - min.toNat)) min .w64 s

/-- RANGE_I32 (R659, R664): signed compare, the span taken in ℤ, the offset as its pattern. -/
def execRangeI32 (min max : Beat) (s : State) : Result :=
  withEngine s fun e => withU32 min s fun lo => withU32 max s fun hi =>
    if intOf hi < intOf lo then failWith .arg s
    else start (bounded32 e (intOf hi - intOf lo).toNat) (zext64 lo) .w32 s

/-- RANGE_I64 (R659, R665): signed compare, the span taken in ℤ, the offset as its pattern. -/
def execRangeI64 (min max : Beat) (s : State) : Result :=
  withEngine s fun e =>
    if intOf max < intOf min then failWith .arg s
    else start (bounded64 s.cfg e (intOf max - intOf min).toNat) min .w64 s

end Sys2Proof.Machine
end

