-- ==== Sys2Proof/Machine/Seed.lean ====
section
/-! DEFINITION. The seed material buffer commands and the SeedSequence commands (40_seedseq.md sections
1 and 6). -/

namespace Sys2Proof.Machine

/-- SEED_CLEAR (R400). No entry holds a value once SEEDLEN is 0 (R123). -/
def execSeedClear (s : State) : Result := answer { s with sb := [] } []

/-- SEED_PUSH (R401): any 64-bit value is accepted; a full buffer raises SeedFull (R758). -/
def execSeedPush (v : Beat) (s : State) : Result :=
  if s.sb.length = s.cfg.seedCap then failWith .sfull s
  else answer { s with sb := s.sb ++ [v] } []

/-- SS_IGR32 (R420). -/
def execSsIgr32 (seed n : Beat) (s : State) : Result :=
  withU32 seed s fun v => withLength n s fun len =>
    answer s ((initGenRand igr32Params v len).map zext64)

/-- SS_IGR64 (R421). -/
def execSsIgr64 (seed n : Beat) (s : State) : Result :=
  withLength n s fun len => answer s (initGenRand igr64Params seed len)

/-- SS_IBA32 (R422). -/
def execSsIba32 (n : Beat) (s : State) : Result :=
  withKey32 s fun key => withArrayLength n s fun len =>
    if len = 0 then answer s [] else answer s ((initByArray iba32Params key len).map zext64)

/-- SS_IBA64 (R423). -/
def execSsIba64 (n : Beat) (s : State) : Result :=
  withKey64 s fun key => withArrayLength n s fun len =>
    if len = 0 then answer s [] else answer s (initByArray iba64Params key len)

/-- SS_SSEQ32 (R424). -/
def execSsSseq32 (n : Beat) (s : State) : Result :=
  withKey32 s fun v => withLength n s fun len => answer s ((seedSeq v len).map zext64)

end Sys2Proof.Machine
end

