-- ==== Sys2Proof/Machine/Dispatch.lean ====
section
/-! DEFINITION. The meaning of every command of the opcode table (R310), one arm per constructor. -/

namespace Sys2Proof.Machine

/-- Execute one command whose packet the unit has already consumed (R315). -/
def exec (i : Instr) (s : State) : Host.Outcome State Fault Refusal :=
  match i with
  | .nop => Sys2Proof.Machine.execNop s
  | .seedClear => Sys2Proof.Machine.execSeedClear s
  | .seedPush v => Sys2Proof.Machine.execSeedPush v s
  | .ssIgr32 seed n => Sys2Proof.Machine.execSsIgr32 seed n s
  | .ssIgr64 seed n => Sys2Proof.Machine.execSsIgr64 seed n s
  | .ssIba32 n => Sys2Proof.Machine.execSsIba32 n s
  | .ssIba64 n => Sys2Proof.Machine.execSsIba64 n s
  | .ssSseq32 n => Sys2Proof.Machine.execSsSseq32 n s
  | .mt32Seed seed => Sys2Proof.Machine.execMt32Seed seed s
  | .mt32SeedArray => Sys2Proof.Machine.execMt32SeedArray s
  | .mt32SeedSeq => Sys2Proof.Machine.execMt32SeedSeq s
  | .mt64Seed seed => Sys2Proof.Machine.execMt64Seed seed s
  | .mt64SeedArray => Sys2Proof.Machine.execMt64SeedArray s
  | .pcg32Seed initstate stream => Sys2Proof.Machine.execPcg32Seed initstate stream s
  | .philoxSeed k0 k1 => Sys2Proof.Machine.execPhiloxSeed k0 k1 s
  | .tf20Seed k0 k1 k2 k3 => Sys2Proof.Machine.execTf20Seed k0 k1 k2 k3 s
  | .tfrSeed k0 k1 k2 k3 => Sys2Proof.Machine.execTfrSeed k0 k1 k2 k3 s
  | .nextU32 => Sys2Proof.Machine.execNextU32 s
  | .nextU64 => Sys2Proof.Machine.execNextU64 s
  | .boundedU32 max => Sys2Proof.Machine.execBoundedU32 max s
  | .boundedU64 max => Sys2Proof.Machine.execBoundedU64 max s
  | .rangeU32 min max => Sys2Proof.Machine.execRangeU32 min max s
  | .rangeU64 min max => Sys2Proof.Machine.execRangeU64 min max s
  | .rangeI32 min max => Sys2Proof.Machine.execRangeI32 min max s
  | .rangeI64 min max => Sys2Proof.Machine.execRangeI64 min max s
  | .canon => Sys2Proof.Machine.execCanon s
  | .canonInc => Sys2Proof.Machine.execCanonInc s
  | .canonSym => Sys2Proof.Machine.execCanonSym s
  | .normCanon w => Sys2Proof.Machine.execNormCanon w s
  | .normCanonInc w => Sys2Proof.Machine.execNormCanonInc w s
  | .normCanonSym w => Sys2Proof.Machine.execNormCanonSym w s
  | .readReg reg => Sys2Proof.Machine.execReadReg reg s

end Sys2Proof.Machine
end

