-- ==== Sys2Proof/Machine/Fetch.lean ====
section
/-! DEFINITION. What the unit does next (R212, R315, R670): hold on a full response port, send waiting
response beats, take a sampler step, wait for a complete packet, or take a command step. -/

namespace Sys2Proof.Machine

/-- The unit's next move. -/
inductive Fetched where
  /-- The unit has no step until the host acts: RSPQ is full, or no complete packet stands in CMDQ (R212,
  R315, R810, R813). -/
  | wait
  /-- Response beats wait and RSPQ has room (R212). -/
  | send
  /-- A sampler step (R670). -/
  | sample (r : Sampler)
  /-- A command step on an illegal packet of `len` beats (R311, R312). -/
  | illegal (len : Nat)
  /-- A command step on instruction `i`, a packet of `len` beats (R315). -/
  | run (i : Instr) (len : Nat)
deriving DecidableEq, Repr

/-- Choose the unit's next move. While RSPQ is full the unit holds, whether or not a response beat waits
(R212, R813). Otherwise a response under way goes first (R209, R212), then an active sampler (R315
enables the command step only when SMP is IDLE), then the packet at the head of CMDQ. -/
def fetch (s : State) : Fetched :=
  if rspFull s then .wait
  else if s.rspPend ≠ [] then .send
  else
    match s.smp with
    | .active r => .sample r
    | .idle =>
      match decode s.cmdq with
      | .incomplete => .wait
      | .illegal _ len => .illegal len
      | .instr i len => .run i len

/-- The state whose next move is a command step on the packet `p`: `p` stands at the head of CMDQ, a full
RSPQ has been read empty, no response is under way and the sampler is idle. -/
def placePacket (p : List Beat) (s : State) : State :=
  { s with
    cmdq := p ++ s.cmdq
    rspq := if rspFull s then [] else s.rspq
    rspPend := []
    smp := .idle }

end Sys2Proof.Machine
end

