-- ==== Sys2Proof/Machine/Step.lean ====
section
/-! DEFINITION. One step of the unit, and the state in which a given packet is the next to run. -/

namespace Sys2Proof.Machine

/-- One step of the unit. A wait leaves the state as it is until the host acts (R212, R315, log
entry 4). -/
def step (s : State) : Host.Outcome State Fault Refusal :=
  match fetch s with
  | .wait => .next s
  | .send => .next (pushResponse s [])
  | .sample r => samplerStep r s
  | .illegal len => .next (raise .ill (consume len s))
  | .run i len => exec i (consume len s)

/-- `s` with the packet that the number `w` of `nbits` bits stands for at the head of CMDQ, so that the
next step runs it (log entry 5). -/
def State.withFetchWord (s : State) (nbits w : Nat) : State := placePacket (packetOfWord nbits w) s

end Sys2Proof.Machine
end

