-- ==== Sys2Proof/Machine/Assembler.lean ====
section
/-! DEFINITION. The assembler syntax and the pseudo-instructions (R316, R317): one line of text to the
packets it stands for. -/

namespace Sys2Proof.Machine

/-- The operand kinds a line may hold: those of R303, and READ_REG's register. -/
inductive AsmKind where
  | u32
  | u64
  | i32
  | i64
  | count
  | reg
deriving DecidableEq, Repr

/-- Each mnemonic with its OPC and its operands in the order of R310. -/
def asmTable : List (String × Nat × List AsmKind) :=
  [("NOP", 0x00, []), ("SEED_CLEAR", 0x01, []), ("SEED_PUSH", 0x02, [.u64]),
   ("SS_IGR32", 0x08, [.u32, .count]), ("SS_IGR64", 0x09, [.u64, .count]),
   ("SS_IBA32", 0x0A, [.count]), ("SS_IBA64", 0x0B, [.count]), ("SS_SSEQ32", 0x0C, [.count])] ++
  [("MT32_SEED", 0x10, [.u32]), ("MT32_SEED_ARRAY", 0x11, []), ("MT32_SEED_SEQ", 0x12, []),
   ("MT64_SEED", 0x14, [.u64]), ("MT64_SEED_ARRAY", 0x15, []), ("PCG32_SEED", 0x18, [.u64, .u64]),
   ("PHILOX_SEED", 0x1C, [.u32, .u32]), ("TF20_SEED", 0x1D, [.u64, .u64, .u64, .u64]),
   ("TFR_SEED", 0x1E, [.u64, .u64, .u64, .u64])] ++
  [("NEXT_U32", 0x20, []), ("NEXT_U64", 0x21, []), ("BOUNDED_U32", 0x22, [.u32]),
   ("BOUNDED_U64", 0x23, [.u64]), ("RANGE_U32", 0x24, [.u32, .u32]), ("RANGE_U64", 0x25, [.u64, .u64]),
   ("RANGE_I32", 0x26, [.i32, .i32]), ("RANGE_I64", 0x27, [.i64, .i64]), ("CANON", 0x28, []),
   ("CANON_INC", 0x29, []), ("CANON_SYM", 0x2A, [])] ++
  [("NORM_CANON", 0x2C, [.u64]), ("NORM_CANON_INC", 0x2D, [.u64]), ("NORM_CANON_SYM", 0x2E, [.u64]),
   ("READ_REG", 0x30, [.reg])]

/-- The register names of READ_REG (R130, R316). -/
def asmRegisters : List (String × Nat) :=
  [("STATUS", 0), ("KIND", 1), ("SEEDLEN", 2), ("SEEDCAP", 3), ("SSMAXOUT", 4), ("CONFIG", 5)]

/-- A blank between the parts of a line. -/
def asmBlank (c : Char) : Bool := c == ' ' || c == '\t'

/-- Text without the blanks at its two ends. -/
def asmTrim (cs : List Char) : List Char :=
  ((cs.dropWhile asmBlank).reverse.dropWhile asmBlank).reverse

/-- A text cut at its commas. -/
def asmFields : List Char → List (List Char)
  | [] => [[]]
  | c :: cs =>
    if c = ',' then [] :: asmFields cs
    else match asmFields cs with
      | f :: fs => (c :: f) :: fs
      | [] => [[c]]

/-- The value of a digit character in a base of at most 16. -/
def asmDigit (base : Nat) (c : Char) : Option Nat :=
  let n := c.toNat
  let d :=
    if 48 ≤ n ∧ n ≤ 57 then n - 48
    else if 97 ≤ n ∧ n ≤ 102 then n - 87
    else if 65 ≤ n ∧ n ≤ 70 then n - 55
    else base
  if d < base then some d else none

/-- The value of a run of digits, after the digits already read. -/
def asmDigits (base : Nat) : Nat → List Char → Option Nat
  | acc, [] => some acc
  | acc, c :: cs =>
    match asmDigit base c with
    | none => none
    | some d => asmDigits base (acc * base + d) cs

/-- A decimal or `0x` hexadecimal integer (R316). -/
def asmNat : List Char → Option Nat
  | '0' :: 'x' :: c :: cs => asmDigits 16 0 (c :: cs)
  | [] => none
  | c :: cs => asmDigits 10 0 (c :: cs)

/-- The operand beat of a value written with or without a leading `-`, refused where it is out of the
kind's range or a `-` stands before an unsigned operand (R316). -/
def asmBeat (kind : AsmKind) (negative : Bool) (v : Nat) : Option Beat :=
  let unsigned (bound : Nat) := if !negative && decide (v < bound) then some (BitVec.ofNat 64 v) else none
  let signed (bits : Nat) :=
    if negative then
      if v ≤ 2 ^ (bits - 1) then some (BitVec.ofNat 64 ((2 ^ bits - v) % 2 ^ bits)) else none
    else if v < 2 ^ (bits - 1) then some (BitVec.ofNat 64 v) else none
  match kind with
  | .u32 => unsigned (2 ^ 32)
  | .u64 | .count => unsigned (2 ^ 64)
  | .i32 => signed 32
  | .i64 => signed 64
  | .reg => unsigned (2 ^ 8)

/-- One operand's text as the beat it stands for; READ_REG also takes a register's name (R316). -/
def asmOperand (kind : AsmKind) (cs : List Char) : Option Beat :=
  let number :=
    match cs with
    | '-' :: rest => (asmNat rest).bind (asmBeat kind true)
    | _ => (asmNat cs).bind (asmBeat kind false)
  match kind with
  | .reg =>
    match asmRegisters.find? fun r => r.1.toList == cs with
    | some r => some (BitVec.ofNat 64 r.2)
    | none => number
  | _ => number

/-- The operands' beats; refused where the number of operands is not the kinds' (R316). -/
def asmOperands : List AsmKind → List (List Char) → Option (List Beat)
  | [], [] => some []
  | k :: ks, f :: fs =>
    match asmOperand k (asmTrim f), asmOperands ks fs with
    | some b, some bs => some (b :: bs)
    | _, _ => none
  | _, _ => none

/-- The command of a mnemonic and its operands' text (R316). -/
def asmCommand (name : List Char) (fields : List (List Char)) : Option Instr :=
  match asmTable.find? fun r => r.1.toList == name with
  | none => none
  | some (_, opc, kinds) =>
    match opcodeRow opc, asmOperands kinds fields with
    | some row, some bs =>
      some (row.build ((bs.getD 0 0).setWidth 8) (bs.getD 0 0) (bs.getD 1 0) (bs.getD 2 0) (bs.getD 3 0))
    | _, _ => none

/-- `SEED_LOAD v1, ..., vL` (R317). -/
def asmSeedLoad (fields : List (List Char)) : Option (List Instr) :=
  if fields = [] then none
  else (asmOperands (fields.map fun _ => .u64) fields).map fun bs => .seedClear :: bs.map .seedPush

/-- The commands of a mnemonic and its operands' text: one for a command, its expansion for a
pseudo-instruction (R316, R317). -/
def asmExpand (name : List Char) (fields : List (List Char)) : Option (List Instr) :=
  if name = "SEED_LOAD".toList then asmSeedLoad fields
  else if name = "MT32_INIT_BY_ARRAY".toList then (asmSeedLoad fields).map (· ++ [.mt32SeedArray])
  else if name = "MT64_INIT_BY_ARRAY".toList then (asmSeedLoad fields).map (· ++ [.mt64SeedArray])
  else if name = "MT32_INIT_SEED_SEQ".toList then (asmSeedLoad fields).map (· ++ [.mt32SeedSeq])
  else if name = "DRAW_INT".toList then (asmCommand "BOUNDED_U32".toList fields).map ([·])
  else if name = "DRAW_LONG".toList then (asmCommand "BOUNDED_U64".toList fields).map ([·])
  else (asmCommand name fields).map ([·])

/-- One line of assembly as its commands; a comment runs from `;` to the end, and a line with nothing
before it stands for no command (R316). -/
def asmLine (line : List Char) : Option (List Instr) :=
  let text := asmTrim (line.takeWhile (· ≠ ';'))
  if text = [] then some []
  else
    let name := text.takeWhile fun c => !asmBlank c
    let rest := asmTrim (text.drop name.length)
    asmExpand name (if rest = [] then [] else asmFields rest)

/-- The beats of one line, packet after packet (R302, R316). -/
def assemble (line : List Char) : Option (List Beat) :=
  (asmLine line).map fun is => is.flatMap encode

end Sys2Proof.Machine
end

