-- ==== Sys2Proof/Machine/HostPort.lean ====
section
/-! DEFINITION. What acts on a unit from outside its command stream: the host's two ports and the reset
event (R100, R212, R800), and several units side by side (R210, R771). -/

namespace Sys2Proof.Machine

/-- CMDQ has room for one more beat (R212). -/
def cmdHasRoom (s : State) : Bool :=
  match s.cfg.cmdFifoDepth with
  | none => true
  | some d => decide (s.cmdq.length < d)

/-- The host writes one beat to the command port. `none`: CMDQ is full and the write has no step until
the unit consumes a beat (R212, R813). -/
def hostWrite (b : Beat) (s : State) : Option State :=
  if cmdHasRoom s then some { s with cmdq := s.cmdq ++ [b] } else none

/-- The host reads the oldest beat of the response port. `none`: RSPQ is empty (R125, R209). -/
def hostRead (s : State) : Option (Beat × State) :=
  match s.rspq with
  | [] => none
  | b :: rest => some (b, { s with rspq := rest })

/-- The reset event, whose effect does not depend on when it arrives: the unit keeps its configuration
and discards everything else (R800, R801). -/
def resetEvent (s : State) : State := State.resetWith s.cfg

/-- One step of unit `k` of several (R100, R771): no other unit changes. `none` where there is no unit
`k` or its step stops. -/
def stepUnit (k : Nat) (units : List State) : Option (List State) :=
  match units[k]? with
  | none => none
  | some s =>
    match step s with
    | .next t => some (units.set k t)
    | _ => none

end Sys2Proof.Machine
end

