-- ==== Sys2Proof/Safety.lean ====
section
/-! DEFINITION. What the statements speak of: the invariant that the rules give every state a run
reaches, the causes of each error, sequences of draws, and the classes of commands by the state they
change. -/

namespace Sys2Proof.Machine

/-- The fields of a constructed engine are in their ranges: IDX in `[0, N]` (R111, R113), POS in
`[0, 4]` (R115, R116), INC odd (R114). -/
def Engine.Wf : Engine → Prop
  | .mt32 e => e.idx ≤ 624
  | .mt64 e => e.idx ≤ 312
  | .pcg32 e => e.inc.getLsbD 0 = true
  | .philox e => e.pos ≤ 4
  | .tf20 e => e.pos ≤ 4
  | .tfr e => e.pos ≤ 4

/-- The loop constants are those of some `max` below `2 ^ k` (R650). -/
def Sampler.ConstantsOf (r : Sampler) (k max : Nat) : Prop :=
  max < 2 ^ k ∧ r.sc = scalingOf k max ∧ r.lim = limitOf k max

/-- The sampler registers fit the engine they draw from and the configured construction (R670, R655). -/
def Sampler.Wf (c : Config) (e : Engine) (r : Sampler) : Prop :=
  r.off.toNat < 2 ^ resultBits r.rw ∧
    match r.ph with
    | .nat => ∃ max, r.ConstantsOf (nativeWidth e) max
    | .splHi mx => nativeWidth e = 32 ∧ c.bounded64Mode = .split ∧ 2 ^ 32 ≤ mx ∧
        r.ConstantsOf 32 (mx / 2 ^ 32)
    | .splLo mx hi => nativeWidth e = 32 ∧ c.bounded64Mode = .split ∧ 2 ^ 32 ≤ mx ∧
        r.ConstantsOf 32 (mx / 2 ^ 32) ∧ hi ≤ mx / 2 ^ 32
    | .cmpHi => nativeWidth e = 32 ∧ c.bounded64Mode = .compose ∧ ∃ max, r.ConstantsOf 64 max
    | .cmpLo hi => nativeWidth e = 32 ∧ c.bounded64Mode = .compose ∧ hi < 2 ^ 32 ∧
        ∃ max, r.ConstantsOf 64 max

/-- A FIFO holds at most its depth (R212). -/
def WithinDepth (depth : Option Nat) (n : Nat) : Prop := ∀ d ∈ depth, n ≤ d

/-- The invariant of the unit: a legal configuration (R13), the FIFOs within their depths and beats
waiting only behind a bounded RSPQ (R212), only the four assigned STATUS bits (R131), SEEDLEN within SEED_CAP
(R122, R133), an engine with its fields in range, and an active sampler only over an engine it fits
and with no response under way (R124, R670). -/
structure State.Inv (s : State) : Prop where
  cfgLegal : s.cfg.Legal
  cmdqFits : WithinDepth s.cfg.cmdFifoDepth s.cmdq.length
  rspqFits : WithinDepth s.cfg.rspFifoDepth s.rspq.length
  pendBounded : s.rspPend ≠ [] → s.cfg.rspFifoDepth ≠ none
  statusBits : s.status.toNat < 16
  seedFits : s.sb.length ≤ s.cfg.seedCap
  engWf : ∀ e ∈ s.eng, e.Wf
  smpWf : ∀ r, s.smp = .active r → s.rspPend = [] ∧ ∃ e, s.eng = some e ∧ r.Wf s.cfg e

/-- `s` with the sampler active and its registers as `r` says (R670). -/
def State.sampling (s : State) (r : Sampler) : State := { s with smp := .active r }

/-- The unit is ready for a command step: RSPQ has room, no response is under way and SMP is IDLE (R209,
R212, R315). -/
def State.Ready (s : State) : Prop := rspFull s = false ∧ s.rspPend = [] ∧ s.smp = .idle

/-- The commands that draw from the engine: the list of R755. -/
def isDraw : Instr → Bool
  | .nextU32 | .nextU64 | .boundedU32 _ | .boundedU64 _ => true
  | .rangeU32 _ _ | .rangeU64 _ _ | .rangeI32 _ _ | .rangeI64 _ _ => true
  | .canon | .canonInc | .canonSym => true
  | .nop | .seedClear | .seedPush _ | .ssIgr32 _ _ | .ssIgr64 _ _ | .ssIba32 _ | .ssIba64 _ => false
  | .ssSseq32 _ | .mt32Seed _ | .mt32SeedArray | .mt32SeedSeq | .mt64Seed _ | .mt64SeedArray => false
  | .pcg32Seed _ _ | .philoxSeed _ _ | .tf20Seed _ _ _ _ | .tfrSeed _ _ _ _ => false
  | .normCanon _ | .normCanonInc _ | .normCanonSym _ | .readReg _ => false

/-- The range commands, which start the sampler (R670). -/
def isRange : Instr → Bool
  | .boundedU32 _ | .boundedU64 _ | .rangeU32 _ _ | .rangeU64 _ _ | .rangeI32 _ _ | .rangeI64 _ _ => true
  | .nop | .seedClear | .seedPush _ | .ssIgr32 _ _ | .ssIgr64 _ _ | .ssIba32 _ | .ssIba64 _ => false
  | .ssSseq32 _ | .mt32Seed _ | .mt32SeedArray | .mt32SeedSeq | .mt64Seed _ | .mt64SeedArray => false
  | .pcg32Seed _ _ | .philoxSeed _ _ | .tf20Seed _ _ _ _ | .tfrSeed _ _ _ _ => false
  | .nextU32 | .nextU64 | .canon | .canonInc | .canonSym => false
  | .normCanon _ | .normCanonInc _ | .normCanonSym _ | .readReg _ => false

/-- The construction commands (R207). -/
def isConstruction : Instr → Bool
  | .mt32Seed _ | .mt32SeedArray | .mt32SeedSeq | .mt64Seed _ | .mt64SeedArray => true
  | .pcg32Seed _ _ | .philoxSeed _ _ | .tf20Seed _ _ _ _ | .tfrSeed _ _ _ _ => true
  | .nop | .seedClear | .seedPush _ | .ssIgr32 _ _ | .ssIgr64 _ _ | .ssIba32 _ | .ssIba64 _ => false
  | .ssSseq32 _ | .nextU32 | .nextU64 | .boundedU32 _ | .boundedU64 _ => false
  | .rangeU32 _ _ | .rangeU64 _ _ | .rangeI32 _ _ | .rangeI64 _ _ => false
  | .canon | .canonInc | .canonSym => false
  | .normCanon _ | .normCanonInc _ | .normCanonSym _ | .readReg _ => false

/-- The two commands that write the seed material buffer (R207). -/
def isSeedBuffer : Instr → Bool
  | .seedClear | .seedPush _ => true
  | .nop | .ssIgr32 _ _ | .ssIgr64 _ _ | .ssIba32 _ | .ssIba64 _ | .ssSseq32 _ => false
  | .mt32Seed _ | .mt32SeedArray | .mt32SeedSeq | .mt64Seed _ | .mt64SeedArray => false
  | .pcg32Seed _ _ | .philoxSeed _ _ | .tf20Seed _ _ _ _ | .tfrSeed _ _ _ _ => false
  | .nextU32 | .nextU64 | .boundedU32 _ | .boundedU64 _ => false
  | .rangeU32 _ _ | .rangeU64 _ _ | .rangeI32 _ _ | .rangeI64 _ _ => false
  | .canon | .canonInc | .canonSym => false
  | .normCanon _ | .normCanonInc _ | .normCanonSym _ | .readReg _ => false

/-- Some entry of SB is `2 ^ 32` or more (R402, R756). -/
def WideEntry (s : State) : Prop := ∃ b ∈ s.sb, 2 ^ 32 ≤ b.toNat

/-- A 32-bit operand beat with bits [63:32] not 0 (R756). -/
def WideOperand (b : Beat) : Prop := 2 ^ 32 ≤ b.toNat

/-- The causes of ArgumentError, row by row of the table of R756. A draw command meets one only where
an engine is in the slot (R759). -/
def ArgCause (i : Instr) (s : State) : Prop :=
  match i with
  | .rangeU32 min max => s.eng ≠ none ∧ (max.toNat < min.toNat ∨ WideOperand min ∨ WideOperand max)
  | .rangeU64 min max => s.eng ≠ none ∧ max.toNat < min.toNat
  | .rangeI32 min max => s.eng ≠ none ∧ (WideOperand min ∨ WideOperand max ∨
      (max.setWidth 32).toInt < (min.setWidth 32).toInt)
  | .rangeI64 min max => s.eng ≠ none ∧ max.toInt < min.toInt
  | .pcg32Seed _ stream => 2 ^ 63 ≤ stream.toNat
  | .ssIba32 n => s.sb = [] ∨ WideEntry s ∨ s.cfg.ssMaxOut < n.toNat ∨ n.toNat = 1
  | .ssIba64 n => s.sb = [] ∨ s.cfg.ssMaxOut < n.toNat ∨ n.toNat = 1
  | .ssSseq32 n => s.sb = [] ∨ WideEntry s ∨ s.cfg.ssMaxOut < n.toNat
  | .mt32SeedArray | .mt32SeedSeq => s.sb = [] ∨ WideEntry s
  | .mt64SeedArray => s.sb = []
  | .ssIgr32 seed n => WideOperand seed ∨ s.cfg.ssMaxOut < n.toNat
  | .ssIgr64 _ n => s.cfg.ssMaxOut < n.toNat
  | .mt32Seed seed => WideOperand seed
  | .philoxSeed k0 k1 => WideOperand k0 ∨ WideOperand k1
  | .boundedU32 max => s.eng ≠ none ∧ WideOperand max
  | .nop | .seedClear | .seedPush _ | .mt64Seed _ | .tf20Seed _ _ _ _ | .tfrSeed _ _ _ _ => False
  | .nextU32 | .nextU64 | .boundedU64 _ | .canon | .canonInc | .canonSym => False
  | .normCanon _ | .normCanonInc _ | .normCanonSym _ | .readReg _ => False

/-- What R658 and R659 require of the result beat of a range command: its value lies between the bounds,
read as the command's operand kind says, and a 32-bit result has bits [63:32] = 0 (R307). -/
def ResultIn (i : Instr) (x : Beat) : Prop :=
  match i with
  | .boundedU32 max | .boundedU64 max => x.toNat ≤ max.toNat
  | .rangeU32 min max | .rangeU64 min max => min.toNat ≤ x.toNat ∧ x.toNat ≤ max.toNat
  | .rangeI32 min max => x.toNat < 2 ^ 32 ∧ (min.setWidth 32).toInt ≤ (x.setWidth 32).toInt ∧
      (x.setWidth 32).toInt ≤ (max.setWidth 32).toInt
  | .rangeI64 min max => min.toInt ≤ x.toInt ∧ x.toInt ≤ max.toInt
  | .nop | .seedClear | .seedPush _ | .ssIgr32 _ _ | .ssIgr64 _ _ | .ssIba32 _ | .ssIba64 _ => False
  | .ssSseq32 _ | .mt32Seed _ | .mt32SeedArray | .mt32SeedSeq | .mt64Seed _ | .mt64SeedArray => False
  | .pcg32Seed _ _ | .philoxSeed _ _ | .tf20Seed _ _ _ _ | .tfrSeed _ _ _ _ => False
  | .nextU32 | .nextU64 | .canon | .canonInc | .canonSym => False
  | .normCanon _ | .normCanonInc _ | .normCanonSym _ | .readReg _ => False

/-- The engine after `k` raw draws (R671). -/
def engineAfter (c : Config) : Nat → Engine → Engine
  | 0, e => e
  | k + 1, e => engineAfter c k (rawDraw c e).2

/-- The raw word of draw `k`, counting from 0 (R642, R671). -/
def wordAt (c : Config) (k : Nat) (e : Engine) : Beat := (rawDraw c (engineAfter c k e)).1

/-- A counter read as one integer, word 0 least significant (R117). -/
def ctrValue {w : Nat} (c : Quad w) : Nat :=
  c.x0.toNat + c.x1.toNat * 2 ^ w + c.x2.toNat * 2 ^ (2 * w) + c.x3.toNat * 2 ^ (3 * w)

/-- The counter whose value is `v` modulo `2 ^ (4w)` (R117). -/
def ctrOf (w v : Nat) : Quad w :=
  ⟨BitVec.ofNat w v, BitVec.ofNat w (v / 2 ^ w), BitVec.ofNat w (v / 2 ^ (2 * w)),
    BitVec.ofNat w (v / 2 ^ (3 * w))⟩

/-- Sign, exponent and fraction of a binary64 pattern (R464). -/
def f64Sign (b : Beat) : Nat := b.toNat / 2 ^ 63

/-- The exponent field [62:52] (R464). -/
def f64Exponent (b : Beat) : Nat := b.toNat / 2 ^ 52 % 2 ^ 11

/-- The fraction field [51:0] (R464). -/
def f64Fraction (b : Beat) : Nat := b.toNat % 2 ^ 52

end Sys2Proof.Machine
end

