-- ==== Sys2Proof/Certificates/Slice0/Obligations.lean ====
section
/-! DEFINITION. The statements for the provers. `pushResponse s bs` stands in them for "the beats `bs`
follow on the response port, under its flow control"; what that is, R212 and R308 say and
`Obligations.ResponsePortKeepsOrderAndDepth` states. -/

open Sys2Proof Sys2Proof.Machine

/-! ### Encoding -/

/-- The packet of every command, with every operand at every value, decodes to that command and is
consumed whole, whatever beats follow it (R310). -/
def Obligations.DecodeOfEncodeIsTheInstruction : Prop :=
  ∀ (i : Instr) (rest : List Beat), decode (encode i ++ rest) = .instr i (encode i).length

/-- Beats that decode to a command are exactly that command's packet: no second encoding exists and no
bit of a packet is ignored (R301, R310, R312, R314). -/
def Obligations.EncodeOfDecodeIsThePacket : Prop :=
  ∀ (bs : List Beat) (i : Instr) (n : Nat), decode bs = .instr i n →
    n ≤ bs.length ∧ encode i = bs.take n

/-- An unassigned OPC is a packet of one beat that raises IllegalCommand; 32 OPC values are assigned and
224 are not (R311). -/
def Obligations.UnassignedOpcodeConsumesOneBeatAndIsIllegal : Prop :=
  (∀ (s : State) (b : Beat) (rest : List Beat), s.Ready → s.cmdq = b :: rest →
    opcodeRow (opcOf b) = none →
    step s = .next (raise .ill { s with cmdq := rest, pos := s.pos + 1 })) ∧
  ((List.range 256).countP fun opc => (opcodeRow opc).isSome) = 32 ∧
  ((List.range 256).countP fun opc => (opcodeRow opc).isNone) = 224

/-- An assigned OPC with RSV not 0, or with SUB not 0 outside READ_REG, consumes its full packet and
raises IllegalCommand (R312). -/
def Obligations.MalformedCommandConsumesItsPacketAndIsIllegal : Prop :=
  ∀ (s : State) (b : Beat) (rest : List Beat) (row : OpcodeRow), s.Ready → s.cmdq = b :: rest →
    opcodeRow (opcOf b) = some row → row.fmt.operands ≤ rest.length →
    (b.toNat / 2 ^ 16 ≠ 0 ∨ (b.toNat / 2 ^ 8 % 2 ^ 8 ≠ 0 ∧ b.toNat % 2 ^ 8 ≠ 0x30)) →
    step s = .next (raise .ill
      { s with cmdq := rest.drop row.fmt.operands, pos := s.pos + (1 + row.fmt.operands) })

/-- The decoder finds a packet's length from OPC alone, and finds a packet exactly where that many beats
stand (R313, R315). -/
def Obligations.PacketLengthComesFromOpcAlone : Prop :=
  ∀ (b : Beat) (rest : List Beat),
    (decode (b :: rest) = .incomplete ↔ rest.length + 1 < packetLength (b.toNat % 2 ^ 8)) ∧
    (∀ why n, decode (b :: rest) = .illegal why n → n = packetLength (b.toNat % 2 ^ 8)) ∧
    (∀ i n, decode (b :: rest) = .instr i n → n = packetLength (b.toNat % 2 ^ 8))

/-- Words written out from the encoding of R301 and R310 decode to the commands they stand for. -/
def Obligations.WrittenWordsDecode : Prop :=
  decode [0x0000000000000000] = .instr .nop 1 ∧
  decode [0x0000000000000002, 0x123] = .instr (.seedPush 0x123) 2 ∧
  decode [0x0000000000000018, 0x2A, 0x36] = .instr (.pcg32Seed 0x2A 0x36) 3 ∧
  decode [0x000000000000001D, 1, 2, 3, 4] = .instr (.tf20Seed 1 2 3 4) 5 ∧
  decode [0x0000000000000026, 0xFFFFFFFD, 3] = .instr (.rangeI32 0xFFFFFFFD 3) 3 ∧
  decode [0x0000000000000530] = .instr (.readReg 5) 1

/-- Every command that the assembler makes of a line has operands of the kinds of R310, and every
pseudo-instruction expands to commands that have (R316, R317). -/
def Obligations.AssembledCommandsAreWellFormed : Prop :=
  ∀ (line : List Char) (is : List Instr), asmLine line = some is →
    ∀ i ∈ is, i.wellFormed = true

/-! ### The command cycle and the ports -/

/-- A ready unit (room in RSPQ, no response under way, SMP idle) with a complete packet of a command at
the head of CMDQ executes that command on the state whose packet is consumed and whose stream position
has advanced by the packet's length (R102, R212, R315). -/
def Obligations.StepRunsTheDecodedCommand : Prop :=
  ∀ (s : State) (i : Instr) (rest : List Beat), s.Ready → s.cmdq = encode i ++ rest →
    step s = exec i { s with cmdq := rest, pos := s.pos + (encode i).length }

/-- A ready unit with no complete packet stays as it is: the model's stutter for "has no step" (log
entry 4; R810). -/
def Obligations.PartialPacketHasNoEffect : Prop :=
  ∀ (s : State), s.Ready → (∀ b rest, s.cmdq = b :: rest →
      s.cmdq.length < packetLength (b.toNat % 2 ^ 8)) →
    step s = .next s

/-- Response beats follow in order behind those still waiting; none is lost; RSPQ never passes its
depth; a beat waits only while RSPQ is full; nothing else changes (R212, R308). That a response is
appended as one batch, whose rest waits in `rspPend`, is the model's own form (log entry 6, DEDUCED from
R212 and R308). -/
def Obligations.ResponsePortKeepsOrderAndDepth : Prop :=
  ∀ (s : State) (bs : List Beat), ∃ t, pushResponse s bs = t ∧
    t.rspq ++ t.rspPend = s.rspq ++ s.rspPend ++ bs ∧
    (∃ sent, t.rspq = s.rspq ++ sent) ∧
    (s.cfg.rspFifoDepth = none → t.rspPend = []) ∧
    (∀ d, s.cfg.rspFifoDepth = some d → s.rspq.length ≤ d →
      t.rspq.length ≤ d ∧ (t.rspPend ≠ [] → t.rspq.length = d)) ∧
    { t with rspq := s.rspq, rspPend := s.rspPend } = s

/-- Both ports hold when full. While RSPQ is full the unit holds, whether or not a response beat waits
(the hold is the model's stutter, log entry 4), and no host write lifts the hold; a host read of one beat
lifts it, and the next step then moves the oldest waiting beat (log entry 6) into RSPQ. A host write
appends one beat when CMDQ has room and has no step when it is full (R212, R813). -/
def Obligations.FullPortsHoldUntilThereIsRoom : Prop :=
  (∀ (s : State) (d : Nat), s.cfg.rspFifoDepth = some d → d ≤ s.rspq.length →
    step s = .next s ∧ ∀ b t, hostWrite b s = some t → step t = .next t) ∧
  (∀ (s : State) (first b : Beat) (queued waiting : List Beat),
    s.rspq = first :: queued → s.rspPend = b :: waiting →
    s.cfg.rspFifoDepth = some s.rspq.length →
    hostRead s = some (first, { s with rspq := queued }) ∧
    step { s with rspq := queued } =
      .next { s with rspq := queued ++ [b], rspPend := waiting }) ∧
  (∀ (s : State) (b : Beat),
    (s.cfg.cmdFifoDepth = none → hostWrite b s = some { s with cmdq := s.cmdq ++ [b] }) ∧
    (∀ d, s.cfg.cmdFifoDepth = some d →
      (s.cmdq.length < d → hostWrite b s = some { s with cmdq := s.cmdq ++ [b] }) ∧
      (d ≤ s.cmdq.length → hostWrite b s = none)))

/-- No result depends on the host's speed: a step that is not a wait commutes with the arrival of later
beats, and, with an unbounded response port, a step commutes with a read of the oldest response beat
(R209, R816). -/
def Obligations.StepCommutesWithHostTraffic : Prop :=
  (∀ (s t : State) (bs : List Beat), fetch s ≠ .wait → step s = .next t →
    step { s with cmdq := s.cmdq ++ bs } = .next { t with cmdq := t.cmdq ++ bs }) ∧
  (∀ (s t u : State) (b : Beat), s.cfg.rspFifoDepth = none → hostRead s = some (b, u) →
    step s = .next t → ∃ v, hostRead t = some (b, v) ∧ step u = .next v)

/-- A step of one unit changes no other unit (R771). -/
def Obligations.UnitsAreIndependent : Prop :=
  ∀ (k j : Nat) (units after : List State), stepUnit k units = some after →
    after.length = units.length ∧ (j ≠ k → after[j]? = units[j]?) ∧
    ∃ s t, units[k]? = some s ∧ step s = .next t ∧ after[k]? = some t

/-! ### Errors and registers -/

/-- Raising an error ORs its bit into STATUS, sends its status beat and no result beat, leaves the
sampler idle, and changes nothing else (R750, R752). -/
def Obligations.RaiseSetsItsBitAndSendsItsCode : Prop :=
  ∀ (s : State),
    raise .arg s = pushResponse { s with status := s.status ||| 1, smp := .idle } [1] ∧
    raise .ill s = pushResponse { s with status := s.status ||| 2, smp := .idle } [2] ∧
    raise .ncon s = pushResponse { s with status := s.status ||| 4, smp := .idle } [3] ∧
    raise .sfull s = pushResponse { s with status := s.status ||| 8, smp := .idle } [4]

/-- Every command either ends with an error, and is then exactly `raise`, or ends OK with the number of
result beats R310 gives, or has started the sampler and sent nothing; in the last two STATUS is as it was
(R300, R310, R753, R754, R814). -/
def Obligations.EveryCommandFailsCleanlyOrSucceeds : Prop :=
  ∀ (i : Instr) (s : State), s.smp = .idle → ∃ t, exec i s = .next t ∧
    ((∃ e, t = raise e s) ∨
     (t.smp = .idle ∧ t.status = s.status ∧ ∃ rs, rs.length = resultCount i ∧
        t.rspq ++ t.rspPend = s.rspq ++ s.rspPend ++ (0 :: rs)) ∨
     (isRange i = true ∧ t.smp ≠ .idle ∧ { t with smp := s.smp } = s))

/-- No step clears a bit of STATUS (R753). -/
def Obligations.StatusIsSticky : Prop :=
  ∀ (s t : State), step s = .next t → s.status &&& t.status = s.status

/-- NotConstructed is raised by exactly the draw commands and exactly while the slot is empty, and no
step empties the slot again (R755). -/
def Obligations.NotConstructedExactlyForDrawsOnEmptySlot : Prop :=
  (∀ (i : Instr) (s : State), exec i s = .next (raise .ncon s) ↔ isDraw i = true ∧ s.eng = none) ∧
  (∀ (s t : State), step s = .next t → s.eng ≠ none → t.eng ≠ none)

/-- ArgumentError is raised exactly for the causes of the table of R756, a draw command meeting one only
over an engine (R759). -/
def Obligations.ArgumentErrorExactlyForItsCauses : Prop :=
  ∀ (i : Instr) (s : State), exec i s = .next (raise .arg s) ↔ ArgCause i s

/-- SeedFull is raised exactly by SEED_PUSH with SEEDLEN = SEED_CAP, and a decoded command raises
IllegalCommand exactly where it is READ_REG of a number outside 0..5 (R701, R757, R758). -/
def Obligations.SeedFullAndIllegalCommandExactly : Prop :=
  (∀ (i : Instr) (s : State), exec i s = .next (raise .sfull s) ↔
    ∃ v, i = .seedPush v ∧ s.sb.length = s.cfg.seedCap) ∧
  (∀ (i : Instr) (s : State), exec i s = .next (raise .ill s) ↔
    ∃ reg : BitVec 8, i = .readReg reg ∧ 5 < reg.toNat)

/-- READ_REG answers OK and the register's value for each number of the map, changing nothing, with the
kind codes of R132; every other number is illegal (R130, R701). -/
def Obligations.ReadRegisterAnswersTheMap : Prop :=
  ∀ (s : State),
    exec (.readReg 0) s = .next (pushResponse s [0, s.status]) ∧
    (∃ k : Nat, exec (.readReg 1) s = .next (pushResponse s [0, BitVec.ofNat 64 k]) ∧
      (s.eng = none → k = 0) ∧ (∀ e, s.eng = some (.mt32 e) → k = 1) ∧
      (∀ e, s.eng = some (.mt64 e) → k = 2) ∧ (∀ e, s.eng = some (.pcg32 e) → k = 3) ∧
      (∀ e, s.eng = some (.philox e) → k = 4) ∧ (∀ e, s.eng = some (.tf20 e) → k = 5) ∧
      (∀ e, s.eng = some (.tfr e) → k = 6)) ∧
    exec (.readReg 2) s = .next (pushResponse s [0, BitVec.ofNat 64 s.sb.length]) ∧
    exec (.readReg 3) s = .next (pushResponse s [0, BitVec.ofNat 64 s.cfg.seedCap]) ∧
    exec (.readReg 4) s = .next (pushResponse s [0, BitVec.ofNat 64 s.cfg.ssMaxOut]) ∧
    exec (.readReg 5) s = .next (pushResponse s [0, configWord s.cfg]) ∧
    (∀ reg : BitVec 8, 6 ≤ reg.toNat → exec (.readReg reg) s = .next (raise .ill s))

/-- CONFIG holds its four fields and 0 in every other bit (R136). -/
def Obligations.ConfigRegisterFields : Prop :=
  configWord Config.specDefault = 0x0000000000000D00 ∧
  ∀ (c : Config),
    ((configWord c).getLsbD 0 = true ↔ c.pcgSeedMode = .twoAfterFold) ∧
    ((configWord c).getLsbD 1 = true ↔ c.bounded64Mode = .compose) ∧
    (((configWord c).extractLsb' 8 8 = 13#8 ↔ c.tfRedRounds = .r13) ∧
      ((configWord c).extractLsb' 8 8 = 20#8 ↔ c.tfRedRounds = .r20)) ∧
    ((configWord c).getLsbD 16 = true ↔ c.tfRedCtrBits = .b256) ∧
    ∀ j, (1 < j ∧ j < 8) ∨ j = 17 ∨ 17 < j → (configWord c).getLsbD j = false

/-- NOP answers OK and changes nothing (R700). -/
def Obligations.NopAnswersOkAndChangesNothing : Prop :=
  ∀ (s : State), exec .nop s = .next (pushResponse s [0])

/-- Reset gives every piece of state the value of R140 whatever the state was, and keeps the
configuration (R800, R801). -/
def Obligations.ResetDiscardsEverythingButConfiguration : Prop :=
  ∀ (s : State), ∃ r, resetEvent s = r ∧ r.cfg = s.cfg ∧ kindCode (kindOf r.eng) = 0 ∧ r.eng = none ∧
    r.sb.length = 0 ∧ r.status = 0 ∧ r.smp = .idle ∧ r.cmdq = [] ∧ r.rspq = [] ∧ r.rspPend = [] ∧
    r.pos = 0

/-! ### Seed material and SeedSequence commands -/

/-- SEED_CLEAR sets SEEDLEN to 0. SEED_PUSH writes its operand, any 64-bit value, at SB[SEEDLEN] and
counts it; a full buffer raises SeedFull and keeps SB and SEEDLEN. Each answers OK and changes nothing
else, the engine included (R400, R401). -/
def Obligations.SeedBufferCommandsClearAndAppend : Prop :=
  ∀ (v : Beat) (s : State),
    exec .seedClear s = .next (pushResponse { s with sb := [] } [0]) ∧
    (s.sb.length < s.cfg.seedCap →
      exec (.seedPush v) s = .next (pushResponse { s with sb := s.sb ++ [v] } [0])) ∧
    (s.sb.length = s.cfg.seedCap → exec (.seedPush v) s = .next (raise .sfull s))

/-- SS_IGR32 answers the n words of the InitGenRand32 recurrence and changes nothing (R405, R420). -/
def Obligations.SsIgr32AnswersTheRecurrence : Prop :=
  ∀ (seed n : Beat) (s : State), seed.toNat < 2 ^ 32 → n.toNat ≤ s.cfg.ssMaxOut →
    ∃ ws : List U32, ws.length = n.toNat ∧
      exec (.ssIgr32 seed n) s = .next (pushResponse s (0 :: ws.map fun w => w.setWidth 64)) ∧
      (0 < n.toNat → ws.getD 0 0 = seed.setWidth 32) ∧
      ∀ i, 0 < i → i < n.toNat →
        ws.getD i 0 = 1812433253 * (ws.getD (i - 1) 0 ^^^ (ws.getD (i - 1) 0 >>> 30)) +
          BitVec.ofNat 32 i

/-- SS_IGR64 answers the n words of the InitGenRand64 recurrence and changes nothing (R406, R421). -/
def Obligations.SsIgr64AnswersTheRecurrence : Prop :=
  ∀ (seed n : Beat) (s : State), n.toNat ≤ s.cfg.ssMaxOut →
    ∃ ws : List U64, ws.length = n.toNat ∧
      exec (.ssIgr64 seed n) s = .next (pushResponse s (0 :: ws)) ∧
      (0 < n.toNat → ws.getD 0 0 = seed) ∧
      ∀ i, 0 < i → i < n.toNat →
        ws.getD i 0 = 6364136223846793005 * (ws.getD (i - 1) 0 ^^^ (ws.getD (i - 1) 0 >>> 62)) +
          BitVec.ofNat 64 i

/-- SS_IBA32, SS_IBA64 and SS_SSEQ32 over a non-empty buffer answer the n words of their network on the
buffer, InitByArray's first word being TOP, and change nothing; n = 0 answers the status beat alone
(R404, R407, R422, R423, R424). -/
def Obligations.ArraySeedSequencesAnswerTheirNetworks : Prop :=
  ∀ (n : Beat) (s : State), s.sb ≠ [] → n.toNat ≤ s.cfg.ssMaxOut →
    (n.toNat ≠ 1 → ∃ ws, ws.length = n.toNat ∧
      exec (.ssIba64 n) s = .next (pushResponse s (0 :: ws)) ∧
      (n.toNat ≠ 0 → ws = initByArray iba64Params s.sb n.toNat ∧ ws.head? = some (1 <<< 63))) ∧
    ((∀ b ∈ s.sb, b.toNat < 2 ^ 32) →
      (n.toNat ≠ 1 → ∃ ws : List U32, ws.length = n.toNat ∧
        exec (.ssIba32 n) s = .next (pushResponse s (0 :: ws.map fun w => w.setWidth 64)) ∧
        (n.toNat ≠ 0 → ws = initByArray iba32Params (s.sb.map fun b => b.setWidth 32) n.toNat ∧
          ws.head? = some (1 <<< 31))) ∧
      (∃ ws : List U32, ws.length = n.toNat ∧
        exec (.ssSseq32 n) s = .next (pushResponse s (0 :: ws.map fun w => w.setWidth 64)) ∧
        ws = seedSeq (s.sb.map fun b => b.setWidth 32) n.toNat))

/-- At k = 0 every entry of seed_seq's buffer is the fill constant, so that every reading of the index
`(k - 1) mod n` reads the same word, and pass 1 always has r1 = 1371501266 (R414). -/
def Obligations.SeedSeqFirstStepIsIndexIndependent : Prop :=
  ∀ (v : List U32) (n j : Nat), 0 < n → j < n →
    rd (List.replicate n (0x8B8B8B8B : U32)) j = 0x8B8B8B8B ∧
    (∀ i, i = seedSeqP n % n → i ≠ 0 → i ≠ seedSeqQ n % n →
      rd (seedSeqMixStep v n (List.replicate n 0x8B8B8B8B) 0) i = 0x8B8B8B8B + 1371501266) ∧
    rd (seedSeqMixStep v n (List.replicate n 0x8B8B8B8B) 0) 0 =
      1371501266 + BitVec.ofNat 32 v.length

/-! ### Mersenne Twister -/

/-- The in-place twist: each new word is made of the old word at i, the word at i+1 (for the last i, the
new word 0) and the word at i+M, which is the new one where i+M wraps (R505, R506). -/
def Obligations.TwistFollowsTheInPlaceRecurrence : Prop :=
  ∀ (w n : Nat) (p : MtParams w) (s : List (BitVec w)), s.length = n → 1 < n → p.m < n →
    (twistList p n s).length = n ∧
    ∀ i y x, i < n →
      y = (rd s i &&& p.um) |||
        ((if i + 1 < n then rd s (i + 1) else rd (twistList p n s) 0) &&& p.lm) →
      x = (if i + p.m < n then rd s (i + p.m) else rd (twistList p n s) (i + p.m - n)) →
      rd (twistList p n s) i = x ^^^ (y >>> 1) ^^^ (if y.getLsbD 0 then p.a else 0)

/-- A Mersenne Twister draw twists exactly when IDX = N, takes and tempers the word at IDX, does not
change the stored word, and advances IDX (R112, R510). -/
def Obligations.MersenneDrawTwistsOnlyWhenExhausted : Prop :=
  (∀ (c : Config) (e : MtState 32 624),
    (e.idx = 624 → rawDraw c (.mt32 e) =
      ((temper32 (rd (twistList mt32Params 624 e.s.toList) 0)).setWidth 64,
        .mt32 ⟨twist mt32Params e.s, 1⟩)) ∧
    (e.idx < 624 → rawDraw c (.mt32 e) =
      ((temper32 (rd e.s.toList e.idx)).setWidth 64, .mt32 ⟨e.s, e.idx + 1⟩))) ∧
  (∀ (c : Config) (e : MtState 64 312),
    (e.idx = 312 → rawDraw c (.mt64 e) =
      (temper64 (rd (twistList mt64Params 312 e.s.toList) 0), .mt64 ⟨twist mt64Params e.s, 1⟩)) ∧
    (e.idx < 312 → rawDraw c (.mt64 e) =
      (temper64 (rd e.s.toList e.idx), .mt64 ⟨e.s, e.idx + 1⟩)))

/-- The whole sequence of a Mersenne Twister engine from its construction: draw k (from 0) is the
tempered word k mod N of the array twisted k div N + 1 times (R510, R511). -/
def Obligations.MersenneSequenceFromConstruction : Prop :=
  (∀ (c : Config) (s : Vector U32 624) (k : Nat),
    wordAt c k (.mt32 ⟨s, 624⟩) =
      (temper32 (rd ((twist mt32Params)^[k / 624 + 1] s).toList (k % 624))).setWidth 64) ∧
  (∀ (c : Config) (s : Vector U64 312) (k : Nat),
    wordAt c k (.mt64 ⟨s, 312⟩) =
      temper64 (rd ((twist mt64Params)^[k / 312 + 1] s).toList (k % 312)))

/-- MT32_SEED and MT64_SEED load the InitGenRand recurrence with IDX = N, answer OK and change nothing
else (R405, R406, R520, R530). -/
def Obligations.MersenneWordSeedsLoadTheRecurrence : Prop :=
  (∀ (seed : Beat) (s : State), seed.toNat < 2 ^ 32 → ∃ e : MtState 32 624,
    exec (.mt32Seed seed) s = .next (pushResponse { s with eng := some (.mt32 e) } [0]) ∧
    e.idx = 624 ∧ rd e.s.toList 0 = seed.setWidth 32 ∧
    ∀ i, 0 < i → i < 624 → rd e.s.toList i =
      1812433253 * (rd e.s.toList (i - 1) ^^^ (rd e.s.toList (i - 1) >>> 30)) + BitVec.ofNat 32 i) ∧
  (∀ (seed : Beat) (s : State), ∃ e : MtState 64 312,
    exec (.mt64Seed seed) s = .next (pushResponse { s with eng := some (.mt64 e) } [0]) ∧
    e.idx = 312 ∧ rd e.s.toList 0 = seed ∧
    ∀ i, 0 < i → i < 312 → rd e.s.toList i =
      6364136223846793005 * (rd e.s.toList (i - 1) ^^^ (rd e.s.toList (i - 1) >>> 62)) +
        BitVec.ofNat 64 i)

/-- MT32_SEED_ARRAY, MT32_SEED_SEQ and MT64_SEED_ARRAY load their network's output over the buffer with
IDX = N, answer OK and change nothing else, the buffer included (R521, R522, R531, R805). -/
def Obligations.MersenneArraySeedsLoadTheirNetworks : Prop :=
  ∀ (s : State), s.sb ≠ [] →
    (∃ e : MtState 64 312,
      exec .mt64SeedArray s = .next (pushResponse { s with eng := some (.mt64 e) } [0]) ∧
      e.idx = 312 ∧ e.s.toList = initByArray iba64Params s.sb 312 ∧
      rd e.s.toList 0 = 0x8000000000000000) ∧
    ((∀ b ∈ s.sb, b.toNat < 2 ^ 32) →
      (∃ e : MtState 32 624,
        exec .mt32SeedArray s = .next (pushResponse { s with eng := some (.mt32 e) } [0]) ∧
        e.idx = 624 ∧
        e.s.toList = initByArray iba32Params (s.sb.map fun b => b.setWidth 32) 624 ∧
        rd e.s.toList 0 = 0x80000000) ∧
      (∃ e : MtState 32 624,
        exec .mt32SeedSeq s = .next (pushResponse { s with eng := some (.mt32 e) } [0]) ∧
        e.idx = 624 ∧ e.s.toList = seedSeq (s.sb.map fun b => b.setWidth 32) 624))

/-! ### PCG32 -/

/-- PCG32_SEED with a stream below 2^63 sets INC = 2·stream + 1 and warms up by the configured
procedure, in one update that answers OK and changes nothing else; another stream raises ArgumentError
(R550, R551). -/
def Obligations.PcgSeedSetsIncrementAndWarmsUp : Prop :=
  ∀ (initstate stream : Beat) (s : State),
    (stream.toNat < 2 ^ 63 → ∃ e : PcgState,
      exec (.pcg32Seed initstate stream) s =
        .next (pushResponse { s with eng := some (.pcg32 e) } [0]) ∧
      e.inc.toNat = 2 * stream.toNat + 1 ∧
      (s.cfg.pcgSeedMode = .reference →
        e.state = (e.inc + initstate) * 6364136223846793005 + e.inc) ∧
      (s.cfg.pcgSeedMode = .twoAfterFold →
        e.state = (initstate * 6364136223846793005 + e.inc) * 6364136223846793005 + e.inc)) ∧
    (2 ^ 63 ≤ stream.toNat → exec (.pcg32Seed initstate stream) s = .next (raise .arg s))

/-- A PCG32 draw returns the XSH-RR permutation of the state before the step: bit j of the word is bit
(j + rot) mod 32 of the xorshifted high part, rot = STATE[63:59]; the step is the LCG and keeps INC
(R552, R553, R554). -/
def Obligations.PcgDrawPermutesTheOldState : Prop :=
  ∀ (c : Config) (e : PcgState), ∃ out : U32,
    rawDraw c (.pcg32 e) =
      (out.setWidth 64, .pcg32 ⟨e.state * 6364136223846793005 + e.inc, e.inc⟩) ∧
    ∀ j, j < 32 →
      out.getLsbD j =
        (e.state.getLsbD ((j + e.state.toNat / 2 ^ 59) % 32 + 27) ^^
          e.state.getLsbD ((j + e.state.toNat / 2 ^ 59) % 32 + 45))

/-! ### Counter-based engines -/

/-- `Inc` adds 1 to the counter as one little-endian integer, modulo 2^(4W). TFR's counter is that at
256 bits, and at 64 bits counts word 0 alone, modulo 2^64 (R117, R635, R637). -/
def Obligations.CounterIncrementIsIntegerIncrement : Prop :=
  (∀ (w : Nat) (c : Quad w), ctrValue (incFull c) = (ctrValue c + 1) % 2 ^ (4 * w)) ∧
  (∀ (c : Quad 64),
    ctrValue (incTfr .b256 c) = (ctrValue c + 1) % 2 ^ 256 ∧
    (incTfr .b64 c).x0.toNat = (c.x0.toNat + 1) % 2 ^ 64 ∧
    (incTfr .b64 c).x1 = c.x1 ∧ (incTfr .b64 c).x2 = c.x2 ∧ (incTfr .b64 c).x3 = c.x3)

/-- Draw k (from 0) of a counter-based engine after its construction, whatever BUF then holds, is word
k mod 4 of the block at counter k div 4 (R640, R641, R642). -/
def Obligations.CounterBasedSequenceFromConstruction : Prop :=
  (∀ (c : Config) (key : Pair 32) (buf : Quad 32) (k : Nat),
    wordAt c k (.philox ⟨quadZero 32, key, buf, 4⟩) =
      (quadWord (philoxBlock (ctrOf 32 (k / 4)) key) (k % 4)).setWidth 64) ∧
  (∀ (c : Config) (key buf : Quad 64) (k : Nat),
    wordAt c k (.tf20 ⟨quadZero 64, key, buf, 4⟩) =
      quadWord (threeFryBlock (ctrOf 64 (k / 4)) key 20) (k % 4)) ∧
  (∀ (c : Config) (key buf : Quad 64) (k : Nat),
    wordAt c k (.tfr ⟨quadZero 64, key, buf, 4⟩) =
      quadWord
        (threeFryBlock
          (match c.tfRedCtrBits with
            | .b64 => ⟨BitVec.ofNat 64 (k / 4), 0, 0, 0⟩
            | .b256 => ctrOf 64 (k / 4))
          key (match c.tfRedRounds with | .r13 => 13 | .r20 => 20))
        (k % 4))

/-- The Philox round key of round r is the key with r Weyl increments added, so the bumped keys are a
function of KEY alone (R118, R610). -/
def Obligations.PhiloxRoundKeysAreRecomputed : Prop :=
  ∀ (ctr : Quad 32) (key : Pair 32),
    philoxBlock ctr key =
      (List.range 10).foldl
        (fun c r => philoxRound c
          ⟨key.k0 + BitVec.ofNat 32 r * 0x9E3779B9, key.k1 + BitVec.ofNat 32 r * 0xBB67AE85⟩) ctr

/-- PHILOX_SEED, TF20_SEED and TFR_SEED load the key, counter 0 and POS = 4, answer OK and change nothing
else, for every key; BUF is some block that the statement leaves free (R630, R631, R632). -/
def Obligations.CounterBasedSeedsLoadTheKey : Prop :=
  ∀ (k0 k1 k2 k3 : Beat) (s : State),
    (k0.toNat < 2 ^ 32 → k1.toNat < 2 ^ 32 → ∃ buf,
      exec (.philoxSeed k0 k1) s = .next (pushResponse
        { s with eng := some (.philox
          ⟨⟨0, 0, 0, 0⟩, ⟨k0.setWidth 32, k1.setWidth 32⟩, buf, 4⟩) } [0])) ∧
    (∃ buf, exec (.tf20Seed k0 k1 k2 k3) s = .next (pushResponse
      { s with eng := some (.tf20 ⟨⟨0, 0, 0, 0⟩, ⟨k0, k1, k2, k3⟩, buf, 4⟩) } [0])) ∧
    (∃ buf, exec (.tfrSeed k0 k1 k2 k3) s = .next (pushResponse
      { s with eng := some (.tfr ⟨⟨0, 0, 0, 0⟩, ⟨k0, k1, k2, k3⟩, buf, 4⟩) } [0]))

/-! ### Engine base and normalizer -/

/-- A raw draw gives a word of the engine's native width and keeps the engine's kind (R20, R450,
R451). -/
def Obligations.RawDrawHasNativeWidthAndKeepsKind : Prop :=
  ∀ (c : Config) (e : Engine),
    (rawDraw c e).1.toNat < 2 ^ nativeWidth e ∧ kindOf (some (rawDraw c e).2) = kindOf (some e)

/-- NEXT_U32 on an engine answers the raw word of a 32-bit engine and the high half of the one raw word
of a 64-bit engine, and changes only the engine (R452, R454). -/
def Obligations.NextU32AnswersOneDraw : Prop :=
  ∀ (s : State) (e : Engine), s.eng = some e → ∃ v : Beat,
    exec .nextU32 s =
      .next (pushResponse { s with eng := some (rawDraw s.cfg e).2 } [0, v]) ∧
    (nativeWidth e = 32 → v = (rawDraw s.cfg e).1) ∧
    (nativeWidth e = 64 → v.toNat = (rawDraw s.cfg e).1.toNat / 2 ^ 32)

/-- NEXT_U64 on an engine answers the raw word of a 64-bit engine, or two raw words of a 32-bit engine
with the first high, and changes only the engine (R453, R455). -/
def Obligations.NextU64AnswersOneOrTwoDraws : Prop :=
  ∀ (s : State) (e : Engine), s.eng = some e →
    (nativeWidth e = 64 → exec .nextU64 s =
      .next (pushResponse { s with eng := some (rawDraw s.cfg e).2 } [0, (rawDraw s.cfg e).1])) ∧
    (nativeWidth e = 32 → ∃ v : Beat,
      exec .nextU64 s = .next (pushResponse
        { s with eng := some (engineAfter s.cfg 2 e) } [0, v]) ∧
      v.toNat = (wordAt s.cfg 0 e).toNat * 2 ^ 32 + (wordAt s.cfg 1 e).toNat)

/-- The pattern of k·2^-53 is a binary64 number of exactly that value, for every k up to 2^53: sign 0,
and for k not 0 a normal exponent with (2^52 + fraction)·2^(exponent-1075) = k·2^-53 (R463, R464). -/
def Obligations.CanonicalPatternHasTheExactValue : Prop :=
  f64Pattern 0 = 0 ∧
  ∀ k, 0 < k → k ≤ 2 ^ 53 →
    f64Sign (f64Pattern k) = 0 ∧ 970 ≤ f64Exponent (f64Pattern k) ∧
    f64Exponent (f64Pattern k) ≤ 1023 ∧
    (2 ^ 52 + f64Fraction (f64Pattern k)) * 2 ^ f64Exponent (f64Pattern k) = k * 2 ^ 1022

/-- NORM_CANON, NORM_CANON_INC and NORM_CANON_SYM answer the three normalizations of their operand with
or without an engine, and change nothing (R460, R461, R462, R473, R474, R475). -/
def Obligations.NormalizersAnswerAndChangeNothing : Prop :=
  ∀ (w : Beat) (s : State),
    exec (.normCanon w) s = .next (pushResponse s [0, f64Pattern (w.toNat / 2 ^ 11)]) ∧
    exec (.normCanonInc w) s = .next (pushResponse s [0, f64Pattern (w.toNat / 2 ^ 11 + 1)]) ∧
    exec (.normCanonSym w) s = .next (pushResponse s
      [0, f64Pattern (w.toNat / 2 ^ 10 % 2 ^ 53) ||| (if 2 ^ 63 ≤ w.toNat then 1 <<< 63 else 0)])

/-- CANON, CANON_INC and CANON_SYM over an engine answer the normalization of the word that NEXT_U64
would answer there, and leave the engine as NEXT_U64 would (R465, R470, R471, R472). -/
def Obligations.CanonCommandsNormalizeNextU64 : Prop :=
  ∀ (s : State) (e : Engine), s.eng = some e → ∃ (v : Beat) (e' : Engine),
    exec .nextU64 s = .next (pushResponse { s with eng := some e' } [0, v]) ∧
    exec .canon s = .next (pushResponse { s with eng := some e' } [0, canonical v]) ∧
    exec .canonInc s = .next (pushResponse { s with eng := some e' } [0, incrementedCanonical v]) ∧
    exec .canonSym s = .next (pushResponse { s with eng := some e' } [0, symmetricCanonical v])

/-! ### Range sampler -/

/-- The rejection scheme is total and unbiased: scaling is at least 1, the limit at most 2^k, the
rejected tail shorter than the range and than half of 2^k, and each result j up to max has exactly the
preimages [j·scaling, (j+1)·scaling) below the limit (R650, R652, R653). -/
def Obligations.RejectionSchemeIsUnbiased : Prop :=
  ∀ (k max : Nat), max < 2 ^ k →
    1 ≤ scalingOf k max ∧ limitOf k max ≤ 2 ^ k ∧
    2 ^ k - limitOf k max < max + 1 ∧ 2 * (2 ^ k - limitOf k max) < 2 ^ k ∧
    (∀ d, d < limitOf k max → d / scalingOf k max ≤ max) ∧
    (∀ j d, j ≤ max → (d < limitOf k max ∧ d / scalingOf k max = j ↔
      j * scalingOf k max ≤ d ∧ d < (j + 1) * scalingOf k max))

/-- The 32-bit range commands over an engine, with operands that raise no error, start the native loop
of the span with the operand min as offset, and draw nothing yet (R654, R660, R662, R664, R670). -/
def Obligations.Range32CommandsStartTheNativeLoop : Prop :=
  ∀ (s : State) (e : Engine) (min max : Beat), s.eng = some e → min.toNat < 2 ^ 32 →
    max.toNat < 2 ^ 32 →
    exec (.boundedU32 max) s = .next (s.sampling
      ⟨.nat, 2 ^ nativeWidth e / (max.toNat + 1),
        (max.toNat + 1) * (2 ^ nativeWidth e / (max.toNat + 1)), 0, .w32⟩) ∧
    (∀ span : Nat, max.toNat = min.toNat + span →
      exec (.rangeU32 min max) s = .next (s.sampling
        ⟨.nat, 2 ^ nativeWidth e / (span + 1), (span + 1) * (2 ^ nativeWidth e / (span + 1)), min,
          .w32⟩)) ∧
    (∀ span : Nat, (max.setWidth 32).toInt = (min.setWidth 32).toInt + span →
      exec (.rangeI32 min max) s = .next (s.sampling
        ⟨.nat, 2 ^ nativeWidth e / (span + 1), (span + 1) * (2 ^ nativeWidth e / (span + 1)), min,
          .w32⟩))

/-- The 64-bit range commands over an engine, with bounds in order, start the bounded draw of the span
with the operand min as offset, and draw nothing yet: the native loop on a 64-bit engine, and on a
32-bit engine the configured construction (R655, R656, R657, R661, R663, R665, R670). -/
def Obligations.Range64CommandsStartTheBoundedDraw : Prop :=
  ∀ (s : State) (e : Engine) (min max off : Beat) (span : Nat) (i : Instr), s.eng = some e →
    ((i = .boundedU64 max ∧ max.toNat = span ∧ off = 0) ∨
      (i = .rangeU64 min max ∧ max.toNat = min.toNat + span ∧ off = min) ∨
      (i = .rangeI64 min max ∧ max.toInt = min.toInt + span ∧ off = min)) →
    (nativeWidth e = 64 → exec i s = .next (s.sampling
      ⟨.nat, 2 ^ 64 / (span + 1), (span + 1) * (2 ^ 64 / (span + 1)), off, .w64⟩)) ∧
    (nativeWidth e = 32 → s.cfg.bounded64Mode = .compose → exec i s = .next (s.sampling
      ⟨.cmpHi, 2 ^ 64 / (span + 1), (span + 1) * (2 ^ 64 / (span + 1)), off, .w64⟩)) ∧
    (nativeWidth e = 32 → s.cfg.bounded64Mode = .split → span < 2 ^ 32 →
      exec i s = .next (s.sampling
        ⟨.nat, 2 ^ 32 / (span + 1), (span + 1) * (2 ^ 32 / (span + 1)), off, .w64⟩)) ∧
    (nativeWidth e = 32 → s.cfg.bounded64Mode = .split → 2 ^ 32 ≤ span →
      exec i s = .next (s.sampling
        ⟨.splHi span, 2 ^ 32 / (span / 2 ^ 32 + 1),
          (span / 2 ^ 32 + 1) * (2 ^ 32 / (span / 2 ^ 32 + 1)), off, .w64⟩))

/-- With room in RSPQ and no response under way, one sampler step makes exactly one raw draw d and does
what R670 says for its phase: it accepts and answers OK with (OFF + x) mod 2^RW, or goes on in the next
phase (R212, R670, R671). -/
def Obligations.SamplerStepFollowsItsPhase : Prop :=
  ∀ (s : State) (r : Sampler) (e : Engine) (d : Nat) (drawn : State) (accept : Nat → State),
    rspFull s = false → s.rspPend = [] → s.smp = .active r → s.eng = some e →
    (rawDraw s.cfg e).1.toNat = d →
    drawn = { s with eng := some (rawDraw s.cfg e).2 } →
    (∀ x, accept x = pushResponse { drawn with smp := .idle }
      [0, BitVec.ofNat 64 ((r.off.toNat + x) % 2 ^ (match r.rw with | .w32 => 32 | .w64 => 64))]) →
    (r.ph = .nat → step s = .next (if d < r.lim then accept (d / r.sc) else drawn)) ∧
    (∀ mx, r.ph = .splHi mx → step s = .next (if d < r.lim then
      drawn.sampling { r with ph := .splLo mx (d / r.sc) } else drawn)) ∧
    (∀ mx hi, r.ph = .splLo mx hi → step s = .next (if hi * 2 ^ 32 + d ≤ mx then
      accept (hi * 2 ^ 32 + d) else drawn.sampling { r with ph := .splHi mx })) ∧
    (r.ph = .cmpHi → step s = .next (drawn.sampling { r with ph := .cmpLo d })) ∧
    (∀ hi, r.ph = .cmpLo hi → step s = .next (if hi * 2 ^ 32 + d < r.lim then
      accept ((hi * 2 ^ 32 + d) / r.sc) else drawn.sampling { r with ph := .cmpHi }))

/-- With room in RSPQ and no response under way, the native loop draws until a word falls below the
limit: j rejected words and then an accepted one take j + 1 sampler steps, consume those j + 1 words, and
answer OK with the offset plus the accepted word's quotient (R212, R650, R670, R671). -/
def Obligations.NativeLoopAnswersTheFirstAcceptedDraw : Prop :=
  ∀ (s : State) (r : Sampler) (e : Engine) (j : Nat),
    rspFull s = false → s.rspPend = [] → s.smp = .active r → r.ph = .nat → s.eng = some e →
    (∀ i, i < j → r.lim ≤ (wordAt s.cfg i e).toNat) → (wordAt s.cfg j e).toNat < r.lim →
    Sys2Proof.core.run (j + 1) s = .next (pushResponse
      { s with eng := some (engineAfter s.cfg (j + 1) e), smp := .idle }
      [0, BitVec.ofNat 64 ((r.off.toNat + (wordAt s.cfg j e).toNat / r.sc) %
        2 ^ (match r.rw with | .w32 => 32 | .w64 => 64))])

/-- Whenever a range command's sampler ends, on any engine, in either construction and at any depth of
the response port, its response is OK and one result between the command's bounds. This is said of the
first idle state after any number of steps, whatever packets are queued, and of every later idle state
while CMDQ is empty, so that no other command has responded (R650, R656, R657, R658, R659, R670). -/
def Obligations.RangeResultsLieBetweenTheBounds : Prop :=
  ∀ (i : Instr) (s t u : State) (k : Nat), isRange i = true → s.Ready →
    exec i s = .next t → t.smp ≠ .idle →
    Sys2Proof.core.run k t = .next u → u.smp = .idle →
    (s.cmdq = [] ∨ ∀ j v, j < k → Sys2Proof.core.run j t = .next v → v.smp ≠ .idle) →
    ∃ x, u.rspq ++ u.rspPend = s.rspq ++ [0, x] ∧ ResultIn i x

/-- BOUNDED_U64 of 2^64 - 1, and BOUNDED_U32 of 2^32 - 1, end after one or two sampler steps in exactly
the state that NEXT_U64, and NEXT_U32, would leave: the same word, the same engine (R651, R654, R656,
R657, R661). -/
def Obligations.FullRangeIdentity : Prop :=
  ∀ (s : State) (e : Engine), s.Ready → s.eng = some e →
    (∃ t, exec (.boundedU64 0xFFFFFFFFFFFFFFFF) s = .next t ∧
      Sys2Proof.core.run (if nativeWidth e = 32 then 2 else 1) t = exec .nextU64 s) ∧
    (∃ t, exec (.boundedU32 0xFFFFFFFF) s = .next t ∧
      Sys2Proof.core.run 1 t = exec .nextU32 s)

/-! ### The whole machine -/

/-- What each command leaves unchanged: none touches the configuration, the stream position or CMDQ; only
the two buffer commands change SB; only constructions and draws change the engine, and a range command's
own step does not; only a range command starts the sampler; and every command but those of these classes
changes nothing but STATUS and the response port (R207, R754, R805, R812). -/
def Obligations.CommandsChangeOnlyTheirOwnState : Prop :=
  ∀ (i : Instr) (s t : State), s.smp = .idle → exec i s = .next t →
    t.cfg = s.cfg ∧ t.pos = s.pos ∧ t.cmdq = s.cmdq ∧
    (isSeedBuffer i = false → t.sb = s.sb) ∧
    (isConstruction i = false → isDraw i = false → t.eng = s.eng) ∧
    (isRange i = true → t.eng = s.eng) ∧
    (isRange i = false → t.smp = s.smp)

/-- Nothing of an earlier engine survives a successful construction: its outcome does not depend on what
the slot held (R804). -/
def Obligations.ConstructionForgetsTheEarlierEngine : Prop :=
  ∀ (i : Instr) (s : State) (slot : Option Engine), isConstruction i = true → ¬ ArgCause i s →
    exec i { s with eng := slot } = exec i s ∧ ∃ t, exec i s = .next t ∧ t.eng ≠ none

/-- A constructed engine does not depend on the seed buffer: a draw command, and every step of the unit
while its sampler is active, does the same whatever SB holds (R812). -/
def Obligations.DrawsDoNotReadTheSeedBuffer : Prop :=
  ∀ (s t : State) (entries : List Beat),
    (∀ i, isDraw i = true → exec i s = .next t →
      exec i { s with sb := entries } = .next { t with sb := entries }) ∧
    (s.smp ≠ .idle → step s = .next t →
      step { s with sb := entries } = .next { t with sb := entries })

/-- Every step of the unit keeps the invariant, from every state that has it. -/
def Obligations.EveryStepKeepsTheInvariant : Prop :=
  ∀ (s t : State), s.Inv → step s = .next t → t.Inv

/-- Every legal configuration's reset state has the invariant, the default one's among them. -/
def Obligations.ResetHasTheInvariant : Prop :=
  State.reset.Inv ∧ ∀ (c : Config), c.Legal → (State.resetWith c).Inv

/-- The host's writes, its reads and the reset event keep the invariant. -/
def Obligations.HostActionsKeepTheInvariant : Prop :=
  ∀ (s t : State) (b : Beat), s.Inv →
    (hostWrite b s = some t → t.Inv) ∧ (hostRead s = some (b, t) → t.Inv) ∧ (resetEvent s).Inv

/-- A unit that has the invariant never ends in a fault or a refusal: every step answers a next state,
the steps that draw, refill, wrap or reject among them (R451, R770). A wait counts as a step that answers
the same state (log entry 4), the fault ruled out is the model's own (log entry 10), and an error of R750
is a next state. -/
def Obligations.NoStepFaultsUnderTheInvariant : Prop :=
  ∀ (s : State), s.Inv → ∃ t, step s = .next t
end

