-- ==== Sys2Proof/Laws/State.lean ====
section
/-! SUPPORT. One lemma per field per named update of the state, each true by rfl, so that no proof
unfolds a record update. -/

namespace Sys2Proof.Machine

/-! ### `State.resetWith` -/

@[simp] theorem resetWith_cfg (c : Config) : (State.resetWith c).cfg = c := rfl
@[simp] theorem resetWith_pos (c : Config) : (State.resetWith c).pos = 0 := rfl
@[simp] theorem resetWith_cmdq (c : Config) : (State.resetWith c).cmdq = [] := rfl
@[simp] theorem resetWith_rspq (c : Config) : (State.resetWith c).rspq = [] := rfl
@[simp] theorem resetWith_rspPend (c : Config) : (State.resetWith c).rspPend = [] := rfl
@[simp] theorem resetWith_status (c : Config) : (State.resetWith c).status = 0 := rfl
@[simp] theorem resetWith_eng (c : Config) : (State.resetWith c).eng = none := rfl
@[simp] theorem resetWith_sb (c : Config) : (State.resetWith c).sb = [] := rfl
@[simp] theorem resetWith_smp (c : Config) : (State.resetWith c).smp = .idle := rfl

/-! ### `consume` -/

@[simp] theorem consume_cfg (n : Nat) (s : State) : (consume n s).cfg = s.cfg := rfl
@[simp] theorem consume_pos (n : Nat) (s : State) : (consume n s).pos = s.pos + n := rfl
@[simp] theorem consume_cmdq (n : Nat) (s : State) : (consume n s).cmdq = s.cmdq.drop n := rfl
@[simp] theorem consume_rspq (n : Nat) (s : State) : (consume n s).rspq = s.rspq := rfl
@[simp] theorem consume_rspPend (n : Nat) (s : State) : (consume n s).rspPend = s.rspPend := rfl
@[simp] theorem consume_status (n : Nat) (s : State) : (consume n s).status = s.status := rfl
@[simp] theorem consume_eng (n : Nat) (s : State) : (consume n s).eng = s.eng := rfl
@[simp] theorem consume_sb (n : Nat) (s : State) : (consume n s).sb = s.sb := rfl
@[simp] theorem consume_smp (n : Nat) (s : State) : (consume n s).smp = s.smp := rfl

/-! ### `pushResponse` -/

@[simp] theorem pushResponse_cfg (s : State) (bs : List Beat) : (pushResponse s bs).cfg = s.cfg := rfl
@[simp] theorem pushResponse_pos (s : State) (bs : List Beat) : (pushResponse s bs).pos = s.pos := rfl
@[simp] theorem pushResponse_cmdq (s : State) (bs : List Beat) : (pushResponse s bs).cmdq = s.cmdq := rfl
@[simp] theorem pushResponse_rspq (s : State) (bs : List Beat) : (pushResponse s bs).rspq = s.rspq ++ (s.rspPend ++ bs).take (rspRoom s (s.rspPend ++ bs).length) := rfl
@[simp] theorem pushResponse_rspPend (s : State) (bs : List Beat) : (pushResponse s bs).rspPend = (s.rspPend ++ bs).drop (rspRoom s (s.rspPend ++ bs).length) := rfl
@[simp] theorem pushResponse_status (s : State) (bs : List Beat) : (pushResponse s bs).status = s.status := rfl
@[simp] theorem pushResponse_eng (s : State) (bs : List Beat) : (pushResponse s bs).eng = s.eng := rfl
@[simp] theorem pushResponse_sb (s : State) (bs : List Beat) : (pushResponse s bs).sb = s.sb := rfl
@[simp] theorem pushResponse_smp (s : State) (bs : List Beat) : (pushResponse s bs).smp = s.smp := rfl

/-! ### `respond` -/

@[simp] theorem respond_cfg (s : State) (rs : List Beat) : (respond s rs).cfg = s.cfg := rfl
@[simp] theorem respond_pos (s : State) (rs : List Beat) : (respond s rs).pos = s.pos := rfl
@[simp] theorem respond_cmdq (s : State) (rs : List Beat) : (respond s rs).cmdq = s.cmdq := rfl
@[simp] theorem respond_status (s : State) (rs : List Beat) : (respond s rs).status = s.status := rfl
@[simp] theorem respond_eng (s : State) (rs : List Beat) : (respond s rs).eng = s.eng := rfl
@[simp] theorem respond_sb (s : State) (rs : List Beat) : (respond s rs).sb = s.sb := rfl
@[simp] theorem respond_smp (s : State) (rs : List Beat) : (respond s rs).smp = s.smp := rfl

/-! ### `raise` -/

@[simp] theorem raise_cfg (e : Err) (s : State) : (raise e s).cfg = s.cfg := rfl
@[simp] theorem raise_pos (e : Err) (s : State) : (raise e s).pos = s.pos := rfl
@[simp] theorem raise_cmdq (e : Err) (s : State) : (raise e s).cmdq = s.cmdq := rfl
@[simp] theorem raise_status (e : Err) (s : State) : (raise e s).status = s.status ||| errBit e := rfl
@[simp] theorem raise_eng (e : Err) (s : State) : (raise e s).eng = s.eng := rfl
@[simp] theorem raise_sb (e : Err) (s : State) : (raise e s).sb = s.sb := rfl
@[simp] theorem raise_smp (e : Err) (s : State) : (raise e s).smp = .idle := rfl

/-! ### `finish` -/

@[simp] theorem finish_cfg (r : Sampler) (x : Nat) (s : State) : (finish r x s).cfg = s.cfg := rfl
@[simp] theorem finish_pos (r : Sampler) (x : Nat) (s : State) : (finish r x s).pos = s.pos := rfl
@[simp] theorem finish_cmdq (r : Sampler) (x : Nat) (s : State) : (finish r x s).cmdq = s.cmdq := rfl
@[simp] theorem finish_status (r : Sampler) (x : Nat) (s : State) : (finish r x s).status = s.status := rfl
@[simp] theorem finish_eng (r : Sampler) (x : Nat) (s : State) : (finish r x s).eng = s.eng := rfl
@[simp] theorem finish_sb (r : Sampler) (x : Nat) (s : State) : (finish r x s).sb = s.sb := rfl
@[simp] theorem finish_smp (r : Sampler) (x : Nat) (s : State) : (finish r x s).smp = .idle := rfl

/-! ### `goOn` -/

@[simp] theorem goOn_cfg (r : Sampler) (ph : Phase) (s : State) : (goOn r ph s).cfg = s.cfg := rfl
@[simp] theorem goOn_pos (r : Sampler) (ph : Phase) (s : State) : (goOn r ph s).pos = s.pos := rfl
@[simp] theorem goOn_cmdq (r : Sampler) (ph : Phase) (s : State) : (goOn r ph s).cmdq = s.cmdq := rfl
@[simp] theorem goOn_rspq (r : Sampler) (ph : Phase) (s : State) : (goOn r ph s).rspq = s.rspq := rfl
@[simp] theorem goOn_rspPend (r : Sampler) (ph : Phase) (s : State) : (goOn r ph s).rspPend = s.rspPend := rfl
@[simp] theorem goOn_status (r : Sampler) (ph : Phase) (s : State) : (goOn r ph s).status = s.status := rfl
@[simp] theorem goOn_eng (r : Sampler) (ph : Phase) (s : State) : (goOn r ph s).eng = s.eng := rfl
@[simp] theorem goOn_sb (r : Sampler) (ph : Phase) (s : State) : (goOn r ph s).sb = s.sb := rfl
@[simp] theorem goOn_smp (r : Sampler) (ph : Phase) (s : State) : (goOn r ph s).smp = .active { r with ph := ph } := rfl

/-! ### `State.sampling` -/

@[simp] theorem sampling_cfg (s : State) (r : Sampler) : (s.sampling r).cfg = s.cfg := rfl
@[simp] theorem sampling_pos (s : State) (r : Sampler) : (s.sampling r).pos = s.pos := rfl
@[simp] theorem sampling_cmdq (s : State) (r : Sampler) : (s.sampling r).cmdq = s.cmdq := rfl
@[simp] theorem sampling_rspq (s : State) (r : Sampler) : (s.sampling r).rspq = s.rspq := rfl
@[simp] theorem sampling_rspPend (s : State) (r : Sampler) : (s.sampling r).rspPend = s.rspPend := rfl
@[simp] theorem sampling_status (s : State) (r : Sampler) : (s.sampling r).status = s.status := rfl
@[simp] theorem sampling_eng (s : State) (r : Sampler) : (s.sampling r).eng = s.eng := rfl
@[simp] theorem sampling_sb (s : State) (r : Sampler) : (s.sampling r).sb = s.sb := rfl
@[simp] theorem sampling_smp (s : State) (r : Sampler) : (s.sampling r).smp = .active r := rfl

/-! ### `placePacket` -/

@[simp] theorem placePacket_cfg (p : List Beat) (s : State) : (placePacket p s).cfg = s.cfg := rfl
@[simp] theorem placePacket_pos (p : List Beat) (s : State) : (placePacket p s).pos = s.pos := rfl
@[simp] theorem placePacket_cmdq (p : List Beat) (s : State) : (placePacket p s).cmdq = p ++ s.cmdq := rfl
@[simp] theorem placePacket_rspq (p : List Beat) (s : State) : (placePacket p s).rspq = if rspFull s then [] else s.rspq := rfl
@[simp] theorem placePacket_rspPend (p : List Beat) (s : State) : (placePacket p s).rspPend = [] := rfl
@[simp] theorem placePacket_status (p : List Beat) (s : State) : (placePacket p s).status = s.status := rfl
@[simp] theorem placePacket_eng (p : List Beat) (s : State) : (placePacket p s).eng = s.eng := rfl
@[simp] theorem placePacket_sb (p : List Beat) (s : State) : (placePacket p s).sb = s.sb := rfl
@[simp] theorem placePacket_smp (p : List Beat) (s : State) : (placePacket p s).smp = .idle := rfl

/-! ### `State.withFetchWord` -/

@[simp] theorem withFetchWord_cfg (s : State) (nbits w : Nat) : (s.withFetchWord nbits w).cfg = s.cfg := rfl
@[simp] theorem withFetchWord_pos (s : State) (nbits w : Nat) : (s.withFetchWord nbits w).pos = s.pos := rfl
@[simp] theorem withFetchWord_cmdq (s : State) (nbits w : Nat) : (s.withFetchWord nbits w).cmdq = packetOfWord nbits w ++ s.cmdq := rfl
@[simp] theorem withFetchWord_rspq (s : State) (nbits w : Nat) : (s.withFetchWord nbits w).rspq = if rspFull s then [] else s.rspq := rfl
@[simp] theorem withFetchWord_rspPend (s : State) (nbits w : Nat) : (s.withFetchWord nbits w).rspPend = [] := rfl
@[simp] theorem withFetchWord_status (s : State) (nbits w : Nat) : (s.withFetchWord nbits w).status = s.status := rfl
@[simp] theorem withFetchWord_eng (s : State) (nbits w : Nat) : (s.withFetchWord nbits w).eng = s.eng := rfl
@[simp] theorem withFetchWord_sb (s : State) (nbits w : Nat) : (s.withFetchWord nbits w).sb = s.sb := rfl
@[simp] theorem withFetchWord_smp (s : State) (nbits w : Nat) : (s.withFetchWord nbits w).smp = .idle := rfl

/-! ### `resetEvent` -/

@[simp] theorem resetEvent_cfg (s : State) : (resetEvent s).cfg = s.cfg := rfl
@[simp] theorem resetEvent_pos (s : State) : (resetEvent s).pos = 0 := rfl
@[simp] theorem resetEvent_cmdq (s : State) : (resetEvent s).cmdq = [] := rfl
@[simp] theorem resetEvent_rspq (s : State) : (resetEvent s).rspq = [] := rfl
@[simp] theorem resetEvent_rspPend (s : State) : (resetEvent s).rspPend = [] := rfl
@[simp] theorem resetEvent_status (s : State) : (resetEvent s).status = 0 := rfl
@[simp] theorem resetEvent_eng (s : State) : (resetEvent s).eng = none := rfl
@[simp] theorem resetEvent_sb (s : State) : (resetEvent s).sb = [] := rfl
@[simp] theorem resetEvent_smp (s : State) : (resetEvent s).smp = .idle := rfl

end Sys2Proof.Machine
end

