-- ==== Sys2Proof/Laws/Ops.lean ====
section
/-! SUPPORT. One lemma for each shared operation that says once everything it can do: the response
port, the checks that commands share, the decoder, the next move, the step and the sampler step. -/

namespace Sys2Proof.Machine

/-! ### Internal arrays -/

theorem rd_wr_same {w : Nat} (s : List (BitVec w)) (i : Nat) (x : BitVec w) (h : i < s.length) :
    rd (wr s i x) i = x := by
  simp [rd, wr, h]

theorem rd_wr_other {w : Nat} (s : List (BitVec w)) (i j : Nat) (x : BitVec w) (h : i ≠ j) :
    rd (wr s i x) j = rd s j := by
  simp [rd, wr, List.getElem?_set_ne h]

/-! ### The response port -/

theorem rspFull_unbounded {s : State} (h : s.cfg.rspFifoDepth = none) : rspFull s = false := by
  simp [rspFull, h]

theorem rspFull_bounded {s : State} {d : Nat} (h : s.cfg.rspFifoDepth = some d) :
    rspFull s = decide (d ≤ s.rspq.length) := by
  simp [rspFull, h]

theorem rspRoom_le (s : State) (k : Nat) : rspRoom s k ≤ k := by
  unfold rspRoom
  split <;> omega

theorem rspRoom_unbounded (s : State) (k : Nat) (h : s.cfg.rspFifoDepth = none) : rspRoom s k = k := by
  simp [rspRoom, h]

theorem rspRoom_bounded (s : State) (k d : Nat) (h : s.cfg.rspFifoDepth = some d) :
    rspRoom s k = min k (d - s.rspq.length) := by
  simp [rspRoom, h]

/-- The beats sent and still waiting, in order, are the earlier ones followed by the new ones. -/
theorem pushResponse_stream (s : State) (bs : List Beat) :
    (pushResponse s bs).rspq ++ (pushResponse s bs).rspPend = s.rspq ++ s.rspPend ++ bs := by
  simp

/-- With an unbounded port nothing waits. -/
theorem pushResponse_unbounded (s : State) (bs : List Beat) (h : s.cfg.rspFifoDepth = none) :
    pushResponse s bs = { s with rspq := s.rspq ++ (s.rspPend ++ bs), rspPend := [] } := by
  simp [pushResponse, rspRoom_unbounded s _ h]

theorem raise_stream (e : Err) (s : State) :
    (raise e s).rspq ++ (raise e s).rspPend = s.rspq ++ s.rspPend ++ [errCode e] :=
  pushResponse_stream _ _

theorem respond_stream (s : State) (rs : List Beat) :
    (respond s rs).rspq ++ (respond s rs).rspPend = s.rspq ++ s.rspPend ++ (statusOk :: rs) :=
  pushResponse_stream _ _

/-! ### The shared checks -/

/-- What a result that is a next state says of the continuation of `withEngine`. -/
theorem withEngine_next {s t : State} {k : Engine → Result} (h : withEngine s k = .next t) :
    (s.eng = none ∧ t = raise .ncon s) ∨ ∃ e, s.eng = some e ∧ k e = .next t := by
  unfold withEngine at h
  split at h
  · next he => exact .inl ⟨he, by simpa [failWith] using h.symm⟩
  · next e he => exact .inr ⟨e, he, h⟩

theorem withEngine_some {s : State} {e : Engine} (k : Engine → Result) (h : s.eng = some e) :
    withEngine s k = k e := by
  simp [withEngine, h]

theorem withEngine_none {s : State} (k : Engine → Result) (h : s.eng = none) :
    withEngine s k = .next (raise .ncon s) := by
  simp [withEngine, h, failWith]

theorem u32Of_narrow {b : Beat} (h : b.toNat < 2 ^ 32) : u32Of b = some (b.setWidth 32) := by
  simp only [u32Of, h, if_true]

theorem u32Of_wide {b : Beat} (h : 2 ^ 32 ≤ b.toNat) : u32Of b = none := by
  simp only [u32Of, Nat.not_lt.mpr h, if_false]

theorem withU32_narrow {b : Beat} (s : State) (k : U32 → Result) (h : b.toNat < 2 ^ 32) :
    withU32 b s k = k (b.setWidth 32) := by
  simp only [withU32, u32Of_narrow h]

theorem withU32_wide {b : Beat} (s : State) (k : U32 → Result) (h : 2 ^ 32 ≤ b.toNat) :
    withU32 b s k = .next (raise .arg s) := by
  simp only [withU32, u32Of_wide h, failWith]

theorem withU32_next {b : Beat} {s t : State} {k : U32 → Result} (h : withU32 b s k = .next t) :
    (2 ^ 32 ≤ b.toNat ∧ t = raise .arg s) ∨ (b.toNat < 2 ^ 32 ∧ k (b.setWidth 32) = .next t) := by
  rcases Nat.lt_or_ge b.toNat (2 ^ 32) with hb | hb
  · exact .inr ⟨hb, by rwa [withU32_narrow s k hb] at h⟩
  · rw [withU32_wide s k hb] at h
    exact .inl ⟨hb, by simpa using h.symm⟩

theorem key32_narrow {sb : List Beat} (h : ∀ b ∈ sb, b.toNat < 2 ^ 32) :
    key32 sb = some (sb.map fun b => b.setWidth 32) := by
  unfold key32
  rw [if_pos (by simpa using h)]

theorem key32_wide {sb : List Beat} {b : Beat} (hb : b ∈ sb) (h : 2 ^ 32 ≤ b.toNat) :
    key32 sb = none := by
  unfold key32
  rw [if_neg]
  intro hall
  have := List.all_eq_true.mp hall b hb
  simp only [decide_eq_true_eq] at this
  omega

theorem withKey32_narrow {s : State} (k : List U32 → Result) (hne : s.sb ≠ [])
    (h : ∀ b ∈ s.sb, b.toNat < 2 ^ 32) :
    withKey32 s k = k (s.sb.map fun b => b.setWidth 32) := by
  simp only [withKey32, hne, if_false, key32_narrow h]

theorem withKey32_bad {s : State} (k : List U32 → Result) (h : s.sb = [] ∨ WideEntry s) :
    withKey32 s k = .next (raise .arg s) := by
  unfold withKey32
  split
  · rfl
  · next hne =>
    obtain hnil | ⟨b, hb, hw⟩ := h
    · exact absurd hnil hne
    · rw [key32_wide hb hw]; rfl

theorem withKey32_next {s t : State} {k : List U32 → Result} (h : withKey32 s k = .next t) :
    ((s.sb = [] ∨ WideEntry s) ∧ t = raise .arg s) ∨
      (s.sb ≠ [] ∧ (∀ b ∈ s.sb, b.toNat < 2 ^ 32) ∧
        k (s.sb.map fun b => b.setWidth 32) = .next t) := by
  by_cases hbad : s.sb = [] ∨ WideEntry s
  · rw [withKey32_bad k hbad] at h
    exact .inl ⟨hbad, by simpa using h.symm⟩
  · rw [not_or] at hbad
    have hall : ∀ b ∈ s.sb, b.toNat < 2 ^ 32 := fun b hb =>
      Nat.lt_of_not_le fun hw => hbad.2 ⟨b, hb, hw⟩
    rw [withKey32_narrow k hbad.1 hall] at h
    exact .inr ⟨hbad.1, hall, h⟩

theorem withKey64_next {s t : State} {k : List U64 → Result} (h : withKey64 s k = .next t) :
    (s.sb = [] ∧ t = raise .arg s) ∨ (s.sb ≠ [] ∧ k s.sb = .next t) := by
  unfold withKey64 at h
  split at h
  · next hnil => exact .inl ⟨hnil, by simpa [failWith] using h.symm⟩
  · next hne => exact .inr ⟨hne, h⟩

theorem withLength_next {n : Beat} {s t : State} {k : Nat → Result}
    (h : withLength n s k = .next t) :
    (s.cfg.ssMaxOut < n.toNat ∧ t = raise .arg s) ∨
      (n.toNat ≤ s.cfg.ssMaxOut ∧ k n.toNat = .next t) := by
  unfold withLength at h
  split at h
  · next hn => exact .inl ⟨hn, by simpa [failWith] using h.symm⟩
  · next hn => exact .inr ⟨Nat.not_lt.mp hn, h⟩

theorem withArrayLength_next {n : Beat} {s t : State} {k : Nat → Result}
    (h : withArrayLength n s k = .next t) :
    ((s.cfg.ssMaxOut < n.toNat ∨ n.toNat = 1) ∧ t = raise .arg s) ∨
      (n.toNat ≤ s.cfg.ssMaxOut ∧ n.toNat ≠ 1 ∧ k n.toNat = .next t) := by
  unfold withArrayLength at h
  split at h
  · next hn => exact .inl ⟨hn, by simpa [failWith] using h.symm⟩
  · next hn => exact .inr ⟨by omega, by omega, h⟩

/-- The two readings of a two's-complement pattern agree (R659). -/
theorem intOf_eq_toInt {k : Nat} (hk : 0 < k) (v : BitVec k) : intOf v = v.toInt := by
  obtain ⟨m, rfl⟩ : ∃ m, k = m + 1 := ⟨k - 1, by omega⟩
  have h2 : (2 : Nat) ^ (m + 1) = 2 * 2 ^ m := by rw [Nat.pow_succ]; omega
  unfold intOf
  rw [BitVec.toInt_eq_toNat_cond, Nat.add_sub_cancel, h2]
  by_cases hv : v.toNat < 2 ^ m
  · rw [if_pos hv, if_pos (by omega)]
  · rw [if_neg hv, if_neg (by omega)]
    have : ((2 * 2 ^ m : Nat) : Int) = 2 ^ (m + 1) := by rw [← h2]; push_cast; rfl
    rw [this]

/-! ### The decoder -/

/-- Everything the decoder can find at a command beat: one case for each rule (R311, R312, R315). -/
theorem decode_cons (b : Beat) (rest : List Beat) :
    (opcodeRow (opcOf b) = none ∧ decode (b :: rest) = .illegal .unassignedOpcode 1) ∨
    ∃ row, opcodeRow (opcOf b) = some row ∧
      ((rest.length < row.fmt.operands ∧ decode (b :: rest) = .incomplete) ∨
       (row.fmt.operands ≤ rest.length ∧
        ((rsvOf b ≠ 0 ∧ decode (b :: rest) = .illegal .reservedBits (1 + row.fmt.operands)) ∨
         (rsvOf b = 0 ∧ subOf b ≠ 0 ∧ opcOf b ≠ 0x30 ∧
          decode (b :: rest) = .illegal .straySub (1 + row.fmt.operands)) ∨
         (rsvOf b = 0 ∧ (subOf b = 0 ∨ opcOf b = 0x30) ∧
          decode (b :: rest) = .instr
            (row.build (subOf b) (rest.getD 0 0) (rest.getD 1 0) (rest.getD 2 0) (rest.getD 3 0))
            (1 + row.fmt.operands))))) := by
  cases ho : opcodeRow (opcOf b) with
  | none => exact .inl ⟨rfl, by simp only [decode, ho]⟩
  | some row =>
    refine .inr ⟨row, rfl, ?_⟩
    simp only [decode, ho]
    by_cases hl : rest.length < row.fmt.operands
    · exact .inl ⟨hl, by rw [if_pos hl]⟩
    · refine .inr ⟨Nat.not_lt.mp hl, ?_⟩
      rw [if_neg hl]
      by_cases hr : rsvOf b = 0
      · rw [if_neg (not_not.mpr hr)]
        by_cases hs : subOf b ≠ 0 ∧ opcOf b ≠ 0x30
        · exact .inr (.inl ⟨hr, hs.1, hs.2, by rw [if_pos hs]⟩)
        · exact .inr (.inr ⟨hr, by tauto, by rw [if_neg hs]⟩)
      · exact .inl ⟨hr, by rw [if_pos hr]⟩

/-! ### The next move and the step -/

/-- Everything a step can do: one case for each of the unit's moves. -/
theorem step_next {s t : State} (h : step s = .next t) :
    (fetch s = .wait ∧ t = s) ∨
    (fetch s = .send ∧ t = pushResponse s []) ∨
    (∃ r e, fetch s = .sample r ∧ s.eng = some e ∧
      t = samplerDecide r (rawDraw s.cfg e).1.toNat { s with eng := some (rawDraw s.cfg e).2 }) ∨
    (∃ n, fetch s = .illegal n ∧ t = raise .ill (consume n s)) ∨
    (∃ i n, fetch s = .run i n ∧ exec i (consume n s) = .next t) := by
  unfold step at h
  split at h
  · next hf => exact .inl ⟨hf, by simpa using h.symm⟩
  · next hf => exact .inr (.inl ⟨hf, by simpa using h.symm⟩)
  · next r hf =>
    unfold samplerStep at h
    split at h
    · simp at h
    · next e he => exact .inr (.inr (.inl ⟨r, e, hf, he, by simpa using h.symm⟩))
  · next n hf => exact .inr (.inr (.inr (.inl ⟨n, hf, by simpa using h.symm⟩)))
  · next i n hf => exact .inr (.inr (.inr (.inr ⟨i, n, hf, h⟩)))

/-- A unit whose RSPQ is full waits, whatever else it holds. -/
theorem fetch_full {s : State} (hf : rspFull s = true) : fetch s = .wait := by
  simp [fetch, hf]

/-- A unit with room in RSPQ and beats waiting sends. -/
theorem fetch_pending {s : State} (hf : rspFull s = false) (hp : s.rspPend ≠ []) :
    fetch s = .send := by
  simp [fetch, hf, hp]

/-- A unit with room in RSPQ, an active sampler and no response under way takes a sampler step. -/
theorem fetch_sample {s : State} {r : Sampler} (hf : rspFull s = false) (hp : s.rspPend = [])
    (hs : s.smp = .active r) : fetch s = .sample r := by
  simp [fetch, hf, hp, hs]

/-- A ready unit does what the decoder finds at the head of CMDQ. -/
theorem fetch_ready {s : State} (h : s.Ready) :
    fetch s = match decode s.cmdq with
      | .incomplete => .wait
      | .illegal _ n => .illegal n
      | .instr i n => .run i n := by
  unfold fetch
  rw [h.1, h.2.1, h.2.2]
  rfl

/-- A sampler step is enabled only with room in RSPQ and no response under way. -/
theorem fetch_sample_inv {s : State} {r : Sampler} (h : fetch s = .sample r) :
    rspFull s = false ∧ s.rspPend = [] ∧ s.smp = .active r := by
  unfold fetch at h
  split at h
  · simp at h
  · next hf =>
    split at h
    · simp at h
    · next hp =>
      split at h
      · next r' hs => exact ⟨by simpa using hf, by simpa using hp, by simp_all⟩
      · split at h <;> simp at h

/-- A command step is enabled only in a ready unit, and runs what the decoder read. -/
theorem fetch_run_inv {s : State} {i : Instr} {n : Nat} (h : fetch s = .run i n) :
    s.Ready ∧ decode s.cmdq = .instr i n := by
  unfold fetch at h
  split at h
  · simp at h
  · next hf =>
    split at h
    · simp at h
    · next hp =>
      split at h
      · simp at h
      · next hs =>
        split at h <;> simp at h
        next j m hd => exact ⟨⟨by simpa using hf, by simpa using hp, hs⟩, by rw [hd, h.1, h.2]⟩

end Sys2Proof.Machine
end

