-- ==== Sys2Proof/Laws/PerInstr.lean ====
section
/-! SUPPORT. The family PacketShape: an instruction's packet is never empty, its command beat's OPC has
a row in the opcode map, and the packet is as long as that row's format says (R302, R310, R313). One
lemma per constructor. -/

namespace Sys2Proof.Laws.PacketShape

/-- The packet's length is the one its OPC calls for, and that OPC is assigned. -/
def Statement (i : Instr) : Prop :=
  ∃ b rest row, encode i = b :: rest ∧ opcodeRow (opcOf b) = some row ∧
    rest.length = row.fmt.operands

theorem nop : Statement .nop := ⟨_, _, _, rfl, rfl, rfl⟩
theorem seedClear : Statement .seedClear := ⟨_, _, _, rfl, rfl, rfl⟩
theorem seedPush (v : Beat) : Statement (.seedPush v) := ⟨_, _, _, rfl, rfl, rfl⟩
theorem ssIgr32 (seed n : Beat) : Statement (.ssIgr32 seed n) := ⟨_, _, _, rfl, rfl, rfl⟩
theorem ssIgr64 (seed n : Beat) : Statement (.ssIgr64 seed n) := ⟨_, _, _, rfl, rfl, rfl⟩
theorem ssIba32 (n : Beat) : Statement (.ssIba32 n) := ⟨_, _, _, rfl, rfl, rfl⟩
theorem ssIba64 (n : Beat) : Statement (.ssIba64 n) := ⟨_, _, _, rfl, rfl, rfl⟩
theorem ssSseq32 (n : Beat) : Statement (.ssSseq32 n) := ⟨_, _, _, rfl, rfl, rfl⟩
theorem mt32Seed (seed : Beat) : Statement (.mt32Seed seed) := ⟨_, _, _, rfl, rfl, rfl⟩
theorem mt32SeedArray : Statement .mt32SeedArray := ⟨_, _, _, rfl, rfl, rfl⟩
theorem mt32SeedSeq : Statement .mt32SeedSeq := ⟨_, _, _, rfl, rfl, rfl⟩
theorem mt64Seed (seed : Beat) : Statement (.mt64Seed seed) := ⟨_, _, _, rfl, rfl, rfl⟩
theorem mt64SeedArray : Statement .mt64SeedArray := ⟨_, _, _, rfl, rfl, rfl⟩
theorem pcg32Seed (initstate stream : Beat) : Statement (.pcg32Seed initstate stream) := ⟨_, _, _, rfl, rfl, rfl⟩
theorem philoxSeed (k0 k1 : Beat) : Statement (.philoxSeed k0 k1) := ⟨_, _, _, rfl, rfl, rfl⟩
theorem tf20Seed (k0 k1 k2 k3 : Beat) : Statement (.tf20Seed k0 k1 k2 k3) := ⟨_, _, _, rfl, rfl, rfl⟩
theorem tfrSeed (k0 k1 k2 k3 : Beat) : Statement (.tfrSeed k0 k1 k2 k3) := ⟨_, _, _, rfl, rfl, rfl⟩
theorem nextU32 : Statement .nextU32 := ⟨_, _, _, rfl, rfl, rfl⟩
theorem nextU64 : Statement .nextU64 := ⟨_, _, _, rfl, rfl, rfl⟩
theorem boundedU32 (max : Beat) : Statement (.boundedU32 max) := ⟨_, _, _, rfl, rfl, rfl⟩
theorem boundedU64 (max : Beat) : Statement (.boundedU64 max) := ⟨_, _, _, rfl, rfl, rfl⟩
theorem rangeU32 (min max : Beat) : Statement (.rangeU32 min max) := ⟨_, _, _, rfl, rfl, rfl⟩
theorem rangeU64 (min max : Beat) : Statement (.rangeU64 min max) := ⟨_, _, _, rfl, rfl, rfl⟩
theorem rangeI32 (min max : Beat) : Statement (.rangeI32 min max) := ⟨_, _, _, rfl, rfl, rfl⟩
theorem rangeI64 (min max : Beat) : Statement (.rangeI64 min max) := ⟨_, _, _, rfl, rfl, rfl⟩
theorem canon : Statement .canon := ⟨_, _, _, rfl, rfl, rfl⟩
theorem canonInc : Statement .canonInc := ⟨_, _, _, rfl, rfl, rfl⟩
theorem canonSym : Statement .canonSym := ⟨_, _, _, rfl, rfl, rfl⟩
theorem normCanon (w : Beat) : Statement (.normCanon w) := ⟨_, _, _, rfl, rfl, rfl⟩
theorem normCanonInc (w : Beat) : Statement (.normCanonInc w) := ⟨_, _, _, rfl, rfl, rfl⟩
theorem normCanonSym (w : Beat) : Statement (.normCanonSym w) := ⟨_, _, _, rfl, rfl, rfl⟩

/-- READ_REG's OPC stands below its register number. -/
theorem readReg (reg : BitVec 8) : Statement (.readReg reg) := by
  have h : opcOf ((0x30 : Beat) ||| (reg.setWidth 64 <<< 8)) = 0x30 := by
    revert reg
    decide +kernel
  refine ⟨_, [], ⟨.fr, fun sub _ _ _ _ => .readReg sub⟩, rfl, ?_, rfl⟩
  rw [h]
  rfl

end Sys2Proof.Laws.PacketShape
end

