-- ==== Sys2Proof/Tests/Slice0.lean ====
section
/-! SUPPORT. Tests of the model. Expected values come from the spec: the encodings of R301 and R310, the
worked examples of the rules and the vectors of 95_test_vectors.md. Every test runs one step. The last
sections show that the hypotheses of the statements can be met, clause by clause. -/

namespace Sys2Proof.Tests

open Sys2Proof Sys2Proof.Machine

set_option Elab.async false

/-! ### WellFormed: each check refuses an ill-formed instruction -/

theorem test_wf_ssIgr32 : (Instr.ssIgr32 0x100000000 3).wellFormed = false := by decide
theorem test_wf_mt32Seed : (Instr.mt32Seed 0x100000000).wellFormed = false := by decide
theorem test_wf_philoxSeed_k0 : (Instr.philoxSeed 0x100000000 0).wellFormed = false := by decide
theorem test_wf_philoxSeed_k1 : (Instr.philoxSeed 0 0x100000000).wellFormed = false := by decide
theorem test_wf_boundedU32 : (Instr.boundedU32 0x100000000).wellFormed = false := by decide
theorem test_wf_rangeU32_min : (Instr.rangeU32 0x100000000 5).wellFormed = false := by decide
theorem test_wf_rangeU32_max : (Instr.rangeU32 5 0x100000000).wellFormed = false := by decide
theorem test_wf_rangeI32_min : (Instr.rangeI32 0xFFFFFFFFFFFFFFFD 3).wellFormed = false := by decide
theorem test_wf_rangeI32_max : (Instr.rangeI32 3 0xFFFFFFFFFFFFFFFD).wellFormed = false := by decide
theorem test_wf_accepts_widest_u32 : (Instr.rangeI32 0xFFFFFFFD 0xFFFFFFFF).wellFormed = true := by
  decide

/-! ### Decode: every constructor's word, written out from R301 and R310 -/

theorem test_decode_control :
    decode [0x0000000000000000] = .instr .nop 1 ∧
    decode [0x0000000000000030] = .instr (.readReg 0) 1 ∧
    decode [0x000000000000FF30] = .instr (.readReg 255) 1 := by decide

theorem test_decode_seed_buffer :
    decode [0x0000000000000001] = .instr .seedClear 1 ∧
    decode [0x0000000000000002, 0xFFFFFFFFFFFFFFFF] = .instr (.seedPush 0xFFFFFFFFFFFFFFFF) 2 := by
  decide

theorem test_decode_seed_sequences :
    decode [0x0000000000000008, 7, 3] = .instr (.ssIgr32 7 3) 3 ∧
    decode [0x0000000000000009, 5489, 3] = .instr (.ssIgr64 5489 3) 3 ∧
    decode [0x000000000000000A, 3] = .instr (.ssIba32 3) 2 ∧
    decode [0x000000000000000B, 2] = .instr (.ssIba64 2) 2 ∧
    decode [0x000000000000000C, 4] = .instr (.ssSseq32 4) 2 := by decide

theorem test_decode_constructions :
    decode [0x0000000000000010, 5489] = .instr (.mt32Seed 5489) 2 ∧
    decode [0x0000000000000011] = .instr .mt32SeedArray 1 ∧
    decode [0x0000000000000012] = .instr .mt32SeedSeq 1 ∧
    decode [0x0000000000000014, 5489] = .instr (.mt64Seed 5489) 2 ∧
    decode [0x0000000000000015] = .instr .mt64SeedArray 1 ∧
    decode [0x0000000000000018, 42, 54] = .instr (.pcg32Seed 42 54) 3 ∧
    decode [0x000000000000001C, 1, 2] = .instr (.philoxSeed 1 2) 3 ∧
    decode [0x000000000000001D, 1, 2, 3, 4] = .instr (.tf20Seed 1 2 3 4) 5 ∧
    decode [0x000000000000001E, 1, 2, 3, 4] = .instr (.tfrSeed 1 2 3 4) 5 := by decide

theorem test_decode_draws :
    decode [0x0000000000000020] = .instr .nextU32 1 ∧
    decode [0x0000000000000021] = .instr .nextU64 1 ∧
    decode [0x0000000000000028] = .instr .canon 1 ∧
    decode [0x0000000000000029] = .instr .canonInc 1 ∧
    decode [0x000000000000002A] = .instr .canonSym 1 := by decide

theorem test_decode_ranges :
    decode [0x0000000000000022, 6] = .instr (.boundedU32 6) 2 ∧
    decode [0x0000000000000023, 1000] = .instr (.boundedU64 1000) 2 ∧
    decode [0x0000000000000024, 5, 3] = .instr (.rangeU32 5 3) 3 ∧
    decode [0x0000000000000025, 5, 6] = .instr (.rangeU64 5 6) 3 ∧
    decode [0x0000000000000026, 0x00000000FFFFFFFD, 3] = .instr (.rangeI32 0xFFFFFFFD 3) 3 ∧
    decode [0x0000000000000027, 0xFFFFFFFFFFFFFFFF, 1] =
      .instr (.rangeI64 0xFFFFFFFFFFFFFFFF 1) 3 := by decide

theorem test_decode_normalizers :
    decode [0x000000000000002C, 0x7FF] = .instr (.normCanon 0x7FF) 2 ∧
    decode [0x000000000000002D, 0x7FF] = .instr (.normCanonInc 0x7FF) 2 ∧
    decode [0x000000000000002E, 0x7FF] = .instr (.normCanonSym 0x7FF) 2 := by decide

/-- The rejects and waits of 95_test_vectors.md section 3.9 and R315. -/
theorem test_decode_rejects :
    decode [0x00000000000000FF] = .illegal .unassignedOpcode 1 ∧
    decode [0x0000000000000003] = .illegal .unassignedOpcode 1 ∧
    decode [0x0000000000010020] = .illegal .reservedBits 1 ∧
    decode [0x0000000000010030] = .illegal .reservedBits 1 ∧
    decode [0x8000000000000000] = .illegal .reservedBits 1 ∧
    decode [0x0000000000000120, 0x20] = .illegal .straySub 1 ∧
    decode [0x0000000000000118, 0x2A, 0x36] = .illegal .straySub 3 ∧
    decode [0x0000000000000118, 0x2A] = .incomplete ∧ decode [] = .incomplete := by decide

/-- The table's words, read as the host numbers them. -/
theorem test_decode_table_words :
    decodeTableWord 64 0x30 = some (.readReg 0) ∧
    decodeTableWord 64 0x1D = some (.tf20Seed 0 0 0 0) ∧
    decodeTableWord 128 0x50000000000000002 = some (.seedPush 5) ∧
    decodeTableWord 64 0x03 = none := by decide +kernel

/-! ### Assembler (R316, R317) -/

theorem test_asm_signed :
    assemble "RANGE_I32 -3, 3 ; comment".toList = some [0x26, 0x00000000FFFFFFFD, 0x3] := by
  decide +kernel

theorem test_asm_refusals :
    assemble "SS_IGR32 0x100000000, 3".toList = none ∧ assemble "RANGE_I32 -2147483649, 0".toList = none ∧
    assemble "NOP 1".toList = none ∧ assemble "RAW 0xFF".toList = none ∧
    assemble "READ_REG CONFIG".toList = some [0x530] := by decide +kernel

theorem test_asm_pseudo :
    asmLine "MT32_INIT_BY_ARRAY 0x123, 0x234".toList =
      some [.seedClear, .seedPush 0x123, .seedPush 0x234, .mt32SeedArray] ∧
    asmLine "DRAW_INT 6".toList = some [.boundedU32 6] := by decide +kernel

/-! ### One step of each instruction -/

/-- The reset state with an engine, a seed buffer and a packet at the head of CMDQ. -/
def unit (eng : Option Engine) (sb packet : List Beat) : State :=
  { State.reset with eng := eng, sb := sb, cmdq := packet }

/-- The beats that one step appends to the response port of a unit that has sent nothing. -/
def sent (s : State) : List Beat :=
  match step s with
  | .next t => t.rspq
  | _ => []

/-- The state after one step. -/
def after (s : State) : State :=
  match step s with
  | .next t => t
  | _ => s

/-- Engines right after the constructions of the rules' examples. -/
def mt32Of (seed : U32) : Option Engine :=
  some (.mt32 (mtFresh (initGenRand igr32Params seed 624) (initGenRand_length _ _ _)))

def mt64Of (seed : U64) : Option Engine :=
  some (.mt64 (mtFresh (initGenRand igr64Params seed 312) (initGenRand_length _ _ _)))

/-- PCG32 after `PCG32_SEED 42, 54` (R550). -/
def pcgDemo : Option Engine := some (.pcg32 ⟨0x185706B82C2E03F8, 0x6D⟩)

/-- PHILOX at counter `n` with key 0 and no spares. -/
def philoxAt (n : U32) : Option Engine := some (.philox ⟨⟨n, 0, 0, 0⟩, ⟨0, 0⟩, ⟨0, 0, 0, 0⟩, 4⟩)

/-- TF20 and TFR at counter 0 with key 0 and no spares. -/
def tf20Zero : Option Engine := some (.tf20 ⟨⟨0, 0, 0, 0⟩, ⟨0, 0, 0, 0⟩, ⟨0, 0, 0, 0⟩, 4⟩)

def tfrZero : Option Engine := some (.tfr ⟨⟨0, 0, 0, 0⟩, ⟨0, 0, 0, 0⟩, ⟨0, 0, 0, 0⟩, 4⟩)

/-- A PHILOX engine whose next raw words are the given ones: a stub of spare words. -/
def words4 (a b c d : U32) : Option Engine := some (.philox ⟨⟨0, 0, 0, 0⟩, ⟨0, 0⟩, ⟨a, b, c, d⟩, 0⟩)

/-- The key words of a counter-based engine, with its first counter word and POS. -/
def keyOf : Option Engine → List Beat × Nat
  | some (.philox e) => ([zext64 e.key.k0, zext64 e.key.k1, zext64 e.ctr.x0], e.pos)
  | some (.tf20 e) => ([e.key.x0, e.key.x1, e.key.x2, e.key.x3, e.ctr.x0], e.pos)
  | some (.tfr e) => ([e.key.x0, e.key.x1, e.key.x2, e.key.x3, e.ctr.x0], e.pos)
  | _ => ([], 0)

/-- The first two words of a Mersenne Twister engine's array, with IDX. -/
def headOf : Option Engine → List Beat × Nat
  | some (.mt32 e) => ([zext64 (rd e.s.toList 0), zext64 (rd e.s.toList 1)], e.idx)
  | some (.mt64 e) => ([rd e.s.toList 0, rd e.s.toList 1], e.idx)
  | _ => ([], 0)

/-- The sampler registers, if a sampler is active. -/
def samplerOf (s : State) : Option Sampler :=
  match s.smp with
  | .active r => some r
  | .idle => none

/-- R700. -/
theorem test_nop : after (unit none [] [0, 0x30]) =
    { unit none [] [0x30] with rspq := [0], pos := 1 } := by decide +kernel

/-- R701 and 95_test_vectors.md 3.8. -/
theorem test_readReg : sent (unit none [1] [0x230]) = [0, 1] ∧ sent (unit none [] [0x530]) = [0, 0xD00] ∧
    sent (unit pcgDemo [] [0x130]) = [0, 3] ∧ sent (unit none [] [0x430]) = [0, 0x400] := by
  decide +kernel

theorem test_readReg_illegal : sent (unit none [] [0x630]) = [2] ∧
    (after (unit none [] [0x630])).status = 2 := by decide +kernel

/-- R400, R401, and 95_test_vectors.md 3.1. -/
theorem test_seedClear : (after (unit pcgDemo [1, 2, 3, 4] [1])).sb = [] ∧
    (after (unit pcgDemo [1, 2, 3, 4] [1])).eng = pcgDemo := by decide +kernel

theorem test_seedPush : (after (unit none [] [2, 0x100000000])).sb = [0x100000000] ∧
    sent (unit none [] [2, 0x123]) = [0] := by decide +kernel

theorem test_seedPush_full :
    sent { unit none [7] [2, 5] with cfg := { Config.specDefault with seedCap := 1 } } = [4] := by
  decide +kernel

/-- R420 and 95_test_vectors.md 3.2. -/
theorem test_ssIgr32 : sent (unit none [] [8, 7, 3]) = [0, 7, 0xF434C1C4, 0xD4F4F285] ∧
    sent (unit none [] [8, 7, 0]) = [0] := by decide +kernel

theorem test_ssIgr32_errors : sent (unit none [] [8, 0x100000000, 3]) = [1] ∧
    sent (unit none [] [8, 7, 1025]) = [1] := by decide +kernel

/-- R421. -/
theorem test_ssIgr64 :
    sent (unit none [] [9, 5489, 3]) = [0, 0x1571, 0xB5347F47116BD3DE, 0x9165B5762D1A61AE] := by
  decide +kernel

/-- R422. -/
theorem test_ssIba32 : sent (unit none [1] [0xA, 5]) =
      [0, 0x80000000, 0x93916346, 0xDA117930, 0xBC1D4D98, 0xABCE47C2] ∧
    sent (unit none [1] [0xA, 0]) = [0] := by decide +kernel

theorem test_ssIba32_errors : sent (unit none [1] [0xA, 1]) = [1] ∧
    sent (unit none [] [0xA, 0]) = [1] := by decide +kernel

/-- R423. -/
theorem test_ssIba64 : sent (unit none [1] [0xB, 3]) =
    [0, 0x8000000000000000, 0x24C4B3447CCEE754, 0x9E6EA441806C2C9B] := by decide +kernel

/-- R424: n = 1 is legal, and the published vector of 95_test_vectors.md Part 2. -/
theorem test_ssSseq32 : sent (unit none [1] [0xC, 1]) = [0, 0x753E4DBC] ∧
    sent (unit none [1, 2, 3, 4, 5] [0xC, 10]) = [0, 4204997637, 4246533866, 1856049002, 1129615051,
      690460811, 1075771511, 46783058, 3904109078, 1534123438, 1495905678] := by decide +kernel

theorem test_ssSseq32_errors : sent (unit none [5, 0x100000000] [0xC, 4]) = [1] ∧
    sent (unit none [] [0xC, 4]) = [1] := by decide +kernel

/-- R520: seed 0 gives S[0] = 0 and S[1] = 1. -/
theorem test_mt32Seed : headOf (after (unit none [] [0x10, 0])).eng = ([0, 1], 624) := by
  decide +kernel

theorem test_mt32Seed_wide : sent (unit none [] [0x10, 0x100000000]) = [1] := by decide +kernel

/-- R521. -/
theorem test_mt32SeedArray : (headOf (after (unit none [0x123, 0x234] [0x11])).eng).2 = 624 ∧
    sent (unit none [0x123, 0x234] [0x11]) = [0] ∧ sent (unit none [] [0x11]) = [1] := by
  decide +kernel

theorem test_mt32SeedArray_wide : sent (unit pcgDemo [0x100000000] [0x11]) = [1] ∧
    (after (unit pcgDemo [0x100000000] [0x11])).eng = pcgDemo := by decide +kernel

/-- R522. -/
theorem test_mt32SeedSeq : (headOf (after (unit none [1, 2, 3] [0x12])).eng).2 = 624 ∧
    sent (unit none [1, 2, 3] [0x12]) = [0] ∧ sent (unit none [] [0x12]) = [1] := by decide +kernel

/-- R530, with the words of R421's example. -/
theorem test_mt64Seed : headOf (after (unit none [] [0x14, 5489])).eng =
    ([0x1571, 0xB5347F47116BD3DE], 312) := by decide +kernel

/-- R531: a wide entry is legal. -/
theorem test_mt64SeedArray : (headOf (after (unit none [7, 0xFFFFFFFFFFFFFFFF] [0x15])).eng).2 = 312 ∧
    sent (unit none [7, 0xFFFFFFFFFFFFFFFF] [0x15]) = [0] ∧ sent (unit none [] [0x15]) = [1] := by
  decide +kernel

/-- R550, both modes of R551 (95_test_vectors.md 3.4). -/
theorem test_pcg32Seed : (after (unit none [] [0x18, 42, 54])).eng = pcgDemo ∧
    (after { unit none [] [0x18, 42, 54] with
      cfg := { Config.specDefault with pcgSeedMode := .twoAfterFold } }).eng =
        some (.pcg32 ⟨0xBA9401DDDD39AED0, 0x6D⟩) := by decide +kernel

theorem test_pcg32Seed_stream :
    sent (unit none [] [0x18, 1, 0x8000000000000000]) = [1] ∧
    sent (unit none [] [0x18, 1, 0x7FFFFFFFFFFFFFFF]) = [0] := by decide +kernel

/-- R630. -/
theorem test_philoxSeed : keyOf (after (unit none [] [0x1C, 5, 6])).eng = ([5, 6, 0], 4) ∧
    sent (unit none [] [0x1C, 0x100000000, 0]) = [1] := by decide +kernel

/-- R631, R632. -/
theorem test_tf20Seed : keyOf (after (unit none [] [0x1D, 5, 6, 7, 8])).eng = ([5, 6, 7, 8, 0], 4) := by
  decide +kernel

theorem test_tfrSeed : keyOf (after (unit none [] [0x1E, 5, 6, 7, 8])).eng = ([5, 6, 7, 8, 0], 4) ∧
    kindOf (after (unit none [] [0x1E, 5, 6, 7, 8])).eng = .tfr := by decide +kernel

/-- R452: the published first outputs, and the high half on a 64-bit engine. -/
theorem test_nextU32 : sent (unit (mt32Of 5489) [] [0x20]) = [0, 0xD091BB5C] ∧
    sent (unit tf20Zero [] [0x20]) = [0, 0x09218EBD] := by decide +kernel

theorem test_nextU32_not_constructed : sent (unit none [] [0x20]) = [3] ∧
    sent (unit pcgDemo [] [0x20]) = [0, 0xA15C02B7] := by decide +kernel

/-- R453: MT64's first word, and two PHILOX words across a refill (95_test_vectors.md 3.3, 3.5). -/
theorem test_nextU64 : sent (unit (mt64Of 5489) [] [0x21]) = [0, 0xC96D191CF6F6AEA6] := by
  decide +kernel

theorem test_nextU64_counter_based : sent (unit (philoxAt 1) [] [0x21]) = [0, 0xF8E4CCA45CB200DB] ∧
    sent (unit tf20Zero [] [0x21]) = [0, 0x09218EBDE6C85537] ∧
    sent (unit tfrZero [] [0x21]) = [0, 0x4071FABEE1DC8E05] := by decide +kernel

/-- R660: the constants of max = 6 (95_test_vectors.md 1.3). -/
theorem test_boundedU32 : samplerOf (after (unit pcgDemo [] [0x22, 6])) =
    some ⟨.nat, 613566756, 4294967292, 0, .w32⟩ ∧ sent (unit pcgDemo [] [0x22, 6]) = [] := by
  decide +kernel

/-- R661: the SPLIT and COMPOSE starts of 95_test_vectors.md 3.7. -/
theorem test_boundedU64 : samplerOf (after (unit pcgDemo [] [0x23, 0x100000000])) =
      some ⟨.splHi 0x100000000, 2 ^ 31, 2 ^ 32, 0, .w64⟩ ∧
    samplerOf (after { unit pcgDemo [] [0x23, 5] with
      cfg := { Config.specDefault with bounded64Mode := .compose } }) =
      some ⟨.cmpHi, 3074457345618258602, 0xFFFFFFFFFFFFFFFC, 0, .w64⟩ := by decide +kernel

/-- R662. -/
theorem test_rangeU32 : samplerOf (after (unit pcgDemo [] [0x24, 10, 20])) =
    some ⟨.nat, 390451572, 4294967292, 10, .w32⟩ := by decide +kernel

theorem test_rangeU32_errors : sent (unit pcgDemo [] [0x24, 5, 3]) = [1] ∧
    sent (unit none [] [0x24, 5, 3]) = [3] := by decide +kernel

/-- R663. -/
theorem test_rangeU64 : samplerOf (after (unit tf20Zero [] [0x25, 5, 5])) =
    some ⟨.nat, 2 ^ 64, 2 ^ 64, 5, .w64⟩ := by decide +kernel

/-- R664: the full span, and a sign-extended operand beat refused (C15). -/
theorem test_rangeI32 : samplerOf (after (unit pcgDemo [] [0x26, 0x80000000, 0x7FFFFFFF])) =
    some ⟨.nat, 1, 2 ^ 32, 0x80000000, .w32⟩ := by decide +kernel

theorem test_rangeI32_errors : sent (unit pcgDemo [] [0x26, 1, 0xFFFFFFFF]) = [1] ∧
    sent (unit pcgDemo [] [0x26, 0xFFFFFFFFFFFFFFFD, 3]) = [1] := by decide +kernel

/-- R665. -/
theorem test_rangeI64 : samplerOf (after (unit tf20Zero [] [0x27, 0xFFFFFFFFFFFFFFFF, 1])) =
    some ⟨.nat, 6148914691236517205, 0xFFFFFFFFFFFFFFFF, 0xFFFFFFFFFFFFFFFF, .w64⟩ := by
  decide +kernel

/-- Sampler steps of R670: an accepted signed draw, a rejected pair, an accepted COMPOSE word. -/
theorem test_sampler_accepts : sent { unit (words4 0 0 0 0) [] [] with
    smp := .active ⟨.nat, 613566756, 4294967292, 0xFFFFFFFD, .w32⟩ } = [0, 0xFFFFFFFD] := by
  decide +kernel

theorem test_sampler_rejects_pair : samplerOf (after { unit (words4 2 0 0 0) [] [] with
    smp := .active ⟨.splLo 0x100000001 1, 2 ^ 31, 2 ^ 32, 0, .w64⟩ }) =
      some ⟨.splHi 0x100000001, 2 ^ 31, 2 ^ 32, 0, .w64⟩ := by decide +kernel

theorem test_sampler_compose : sent { unit (words4 0x22222222 0 0 0) [] [] with
    smp := .active ⟨.cmpLo 0x11111111, 1, 2 ^ 64, 0, .w64⟩ } = [0, 0x1111111122222222] := by
  decide +kernel

/-- R470 to R472 on the raw word 0xC96D191CF6F6AEA6 (95_test_vectors.md 3.6). -/
def tfWord : Option Engine :=
  some (.tf20 ⟨⟨0, 0, 0, 0⟩, ⟨0, 0, 0, 0⟩, ⟨0xC96D191CF6F6AEA6, 0, 0, 0⟩, 0⟩)

theorem test_canon : sent (unit tfWord [] [0x28]) = [0, 0x3FE92DA3239EDED5] ∧
    sent (unit (words4 0xD091BB5C 0x22AE9EF6 0 0) [] [0x28]) = [0, 0x3FEA12376B8455D3] := by
  decide +kernel

theorem test_canonInc : sent (unit tfWord [] [0x29]) = [0, 0x3FE92DA3239EDED6] := by decide +kernel

theorem test_canonSym : sent (unit tfWord [] [0x2A]) = [0, 0xBFE25B46473DBDAB] := by decide +kernel

/-- R473 to R475 and the table of 95_test_vectors.md 3.6. -/
theorem test_normCanon : sent (unit none [] [0x2C, 0x0123456789ABCDEF]) = [0, 0x3F723456789ABC80] ∧
    sent (unit none [] [0x2C, 0xFFFFFFFFFFFFFFFF]) = [0, 0x3FEFFFFFFFFFFFFF] := by decide +kernel

theorem test_normCanonInc : sent (unit none [] [0x2D, 0]) = [0, 0x3CA0000000000000] ∧
    sent (unit none [] [0x2D, 0xFFFFFFFFFFFFFFFF]) = [0, 0x3FF0000000000000] := by decide +kernel

theorem test_normCanonSym : sent (unit none [] [0x2E, 0x8000000000000000]) = [0, 0x8000000000000000] ∧
    sent (unit none [] [0x2E, 0x8000000000000400]) = [0, 0xBCA0000000000000] := by decide +kernel

/-! ### Functions with published vectors -/

/-- Random123 (95_test_vectors.md Part 2). -/
theorem test_philox_block :
    philoxBlock ⟨0x243F6A88, 0x85A308D3, 0x13198A2E, 0x03707344⟩ ⟨0xA4093822, 0x299F31D0⟩ =
      ⟨0xD16CFE09, 0x94FDCCEB, 0x5001E420, 0x24126EA1⟩ := by decide +kernel

theorem test_threefry_block :
    threeFryBlock ⟨-1, -1, -1, -1⟩ ⟨-1, -1, -1, -1⟩ 20 =
      ⟨0x29C24097942BBA1B, 0x0371BBFB0F6F4E11, 0x3C231FFA33F83A1C, 0xCD29113FDE32D168⟩ := by
  decide +kernel

/-- R635 and R637: the counter vectors of 95_test_vectors.md 1.5 and 3.5. -/
theorem test_counter_increment :
    incFull (⟨-1, 0, 0, 0⟩ : Quad 32) = ⟨0, 1, 0, 0⟩ ∧
    incFull (⟨-1, -1, -1, -1⟩ : Quad 64) = ⟨0, 0, 0, 0⟩ ∧
    incFull (⟨-1, -1, 0, 5⟩ : Quad 64) = ⟨0, 0, 1, 5⟩ ∧
    incTfr .b64 ⟨-1, -1, 0, 5⟩ = ⟨0, -1, 0, 5⟩ := by decide +kernel

/-! ### Ports, waits and reset -/

/-- R212 and R308 with RSP_FIFO_DEPTH = 1: the status beat is sent and the result waits. -/
theorem test_bounded_port : let s := { unit none [] [0x2C, 0x800] with
      cfg := { Config.specDefault with rspFifoDepth := some 1 } }
    (after s).rspq = [0] ∧ (after s).rspPend = [0x3CA0000000000000] ∧
      after (after s) = after s := by decide +kernel

/-- R212 and R813: with RSPQ full the unit holds, although no beat waits and a packet is complete. -/
theorem test_full_response_port : let s := { unit none [] [0] with
      cfg := { Config.specDefault with rspFifoDepth := some 1 }, rspq := [7] }
    after s = s ∧ (after { s with rspq := [] }).rspq = [0] ∧
      after (s.withFetchWord 64 0) = { s with rspq := [0], pos := 1 } := by decide +kernel

/-- R212: a full CMDQ takes no beat. -/
theorem test_full_command_port : hostWrite 5 { unit none [] [0x18] with
    cfg := { Config.specDefault with cmdFifoDepth := some 1 } } = none := by decide +kernel

/-- R810: a partial packet waits. -/
theorem test_partial_packet : after (unit none [] [0x18, 0x2A]) = unit none [] [0x18, 0x2A] := by
  decide +kernel

/-- R801 and P9: reset empties the slot and the ports. -/
theorem test_reset_event : resetEvent (unit pcgDemo [7] [0x28]) = State.reset := by decide +kernel

/-! ### The hypotheses of the statements can be met -/

theorem test_witness_EncodeOfDecodeIsThePacket :
    decode [0x530, 0x20] = .instr (.readReg 5) 1 := by decide

theorem test_witness_UnassignedOpcodeConsumesOneBeatAndIsIllegal :
    (unit none [] [0xFF, 0x20]).Ready ∧ (unit none [] [0xFF, 0x20]).cmdq = 0xFF :: [0x20] ∧
    opcodeRow (opcOf 0xFF) = none := ⟨⟨rfl, rfl, rfl⟩, rfl, rfl⟩

theorem test_witness_MalformedCommandConsumesItsPacketAndIsIllegal_rsv :
    ∃ row, (unit none [] [0x10020]).Ready ∧ (unit none [] [0x10020]).cmdq = 0x10020 :: [] ∧
    opcodeRow (opcOf 0x10020) = some row ∧ row.fmt.operands ≤ ([] : List Beat).length ∧
    (0x10020 : Beat).toNat / 2 ^ 16 ≠ 0 := ⟨_, ⟨rfl, rfl, rfl⟩, rfl, rfl, by decide, by decide⟩

theorem test_witness_MalformedCommandConsumesItsPacketAndIsIllegal_sub :
    ∃ row, (unit none [] [0x118, 1, 2]).Ready ∧ (unit none [] [0x118, 1, 2]).cmdq = 0x118 :: [1, 2] ∧
    opcodeRow (opcOf 0x118) = some row ∧ row.fmt.operands ≤ ([1, 2] : List Beat).length ∧
    (0x118 : Beat).toNat / 2 ^ 8 % 2 ^ 8 ≠ 0 ∧ (0x118 : Beat).toNat % 2 ^ 8 ≠ 0x30 :=
  ⟨_, ⟨rfl, rfl, rfl⟩, rfl, rfl, by decide, by decide, by decide⟩

theorem test_witness_PacketLengthComesFromOpcAlone :
    decode [0x118, 1] = .incomplete ∧ decode [0x118, 1, 2] = .illegal .straySub 3 ∧
    decode [0x18, 1, 2] = .instr (.pcg32Seed 1 2) 3 := by decide

theorem test_witness_AssembledCommandsAreWellFormed :
    asmLine "RANGE_I32 -3, 3".toList = some [.rangeI32 0xFFFFFFFD 3] := by decide +kernel

theorem test_witness_StepRunsTheDecodedCommand :
    (unit pcgDemo [] [0x22, 6, 0x20]).Ready ∧
    (unit pcgDemo [] [0x22, 6, 0x20]).cmdq = encode (.boundedU32 6) ++ [0x20] := ⟨⟨rfl, rfl, rfl⟩, rfl⟩

theorem test_witness_PartialPacketHasNoEffect :
    (unit none [] [0x18, 0x2A]).Ready ∧
    ∀ b rest, (unit none [] [0x18, 0x2A]).cmdq = b :: rest →
      (unit none [] [0x18, 0x2A]).cmdq.length < packetLength (b.toNat % 2 ^ 8) :=
  ⟨⟨rfl, rfl, rfl⟩, fun b rest h => by
    obtain ⟨rfl, rfl⟩ : 0x18 = b ∧ [0x2A] = rest := by simpa [unit] using h
    decide⟩

/-- A port of depth 2 that is full, with beats waiting: a state of R212's hold. -/
def held : State :=
  { unit none [] [] with
    cfg := { Config.specDefault with rspFifoDepth := some 2 }, rspq := [0, 7], rspPend := [8, 9] }

theorem test_witness_ResponsePortKeepsOrderAndDepth :
    (unit none [] []).cfg.rspFifoDepth = none ∧ held.cfg.rspFifoDepth = some 2 ∧
    held.rspq.length ≤ 2 ∧ (pushResponse held [5]).rspPend ≠ [] := by decide +kernel

theorem test_witness_FullPortsHoldUntilThereIsRoom_hold :
    held.cfg.rspFifoDepth = some 2 ∧ 2 ≤ held.rspq.length ∧ (∃ t, hostWrite 5 held = some t) :=
  ⟨rfl, by decide, _, rfl⟩

theorem test_witness_FullPortsHoldUntilThereIsRoom_response :
    held.rspq = 0 :: [7] ∧ held.rspPend = 8 :: [9] ∧
    held.cfg.rspFifoDepth = some held.rspq.length := by decide +kernel

theorem test_witness_FullPortsHoldUntilThereIsRoom_command :
    (unit none [] [5]).cfg.cmdFifoDepth = none ∧ [(5 : Beat)].length < 2 ∧ 1 ≤ [(5 : Beat)].length ∧
    ∀ d, ({ unit none [] [5] with
      cfg := { Config.specDefault with cmdFifoDepth := some d } } : State).cfg.cmdFifoDepth = some d :=
  ⟨rfl, by decide, by decide, fun _ => rfl⟩

theorem test_witness_StepCommutesWithHostTraffic_writes :
    fetch (unit none [] [0]) ≠ .wait ∧
    step (unit none [] [0]) = .next (after (unit none [] [0])) := ⟨by decide +kernel, rfl⟩

theorem test_witness_StepCommutesWithHostTraffic_reads :
    let s := { unit none [] [0] with rspq := [7] }
    s.cfg.rspFifoDepth = none ∧ hostRead s = some (7, { s with rspq := [] }) ∧
    step s = .next (after s) := ⟨rfl, rfl, rfl⟩

theorem test_witness_UnitsAreIndependent :
    stepUnit 1 [State.reset, unit none [] [0]] = some [State.reset, after (unit none [] [0])] ∧
    0 ≠ 1 := ⟨rfl, by decide⟩

theorem test_witness_EveryCommandFailsCleanlyOrSucceeds : State.reset.smp = .idle := rfl

theorem test_witness_StatusIsSticky :
    step { unit none [] [0x20] with status := 1 } =
      .next { unit none [] [] with status := 5, rspq := [3], pos := 1 } := rfl

theorem test_witness_NotConstructedExactlyForDrawsOnEmptySlot :
    isDraw .canonSym = true ∧ (unit none [] []).eng = none ∧
    exec .canonSym (unit none [] []) = .next (raise .ncon (unit none [] [])) ∧
    step (unit pcgDemo [] [0]) = .next (after (unit pcgDemo [] [0])) ∧
    (unit pcgDemo [] [0]).eng ≠ none := ⟨rfl, rfl, rfl, rfl, by decide +kernel⟩

/-- Each row of the table of R756 has a command and a state that meet it, at the boundary value where
the cause is a bound. -/
theorem test_witness_ArgumentErrorExactlyForItsCauses :
    ArgCause (.rangeU32 6 5) (unit pcgDemo [] []) ∧
    ArgCause (.rangeI64 0 0xFFFFFFFFFFFFFFFF) (unit pcgDemo [] []) ∧
    ArgCause (.pcg32Seed 0 0x8000000000000000) (unit none [] []) ∧
    ArgCause (.ssSseq32 4) (unit none [] []) ∧
    ArgCause (.ssIgr64 0 1025) (unit none [] []) ∧
    ArgCause (.ssIba64 1) (unit none [1] []) ∧
    ArgCause (.mt32Seed 0x100000000) (unit none [] []) ∧
    ArgCause .mt32SeedSeq (unit none [0x100000000] []) ∧
    ¬ ArgCause (.ssIgr64 0 1024) (unit none [] []) := by
  refine ⟨⟨by decide +kernel, .inl (by decide)⟩, ⟨by decide +kernel, by decide⟩, ?_, .inl rfl, ?_,
    .inr (.inr (by decide)), ?_, .inr ⟨0x100000000, by decide +kernel, by decide⟩, ?_⟩
  · exact (by decide : 2 ^ 63 ≤ (0x8000000000000000 : Beat).toNat)
  · exact (by decide : 1024 < (1025 : Beat).toNat)
  · exact (by decide : 2 ^ 32 ≤ (0x100000000 : Beat).toNat)
  · exact (by decide : ¬ 1024 < (1024 : Beat).toNat)

theorem test_witness_SeedFullAndIllegalCommandExactly :
    exec (.readReg 6) State.reset = .next (raise .ill State.reset) ∧
    (let s := { unit none [7] [] with cfg := { Config.specDefault with seedCap := 1 } };
      s.sb.length = s.cfg.seedCap ∧ exec (.seedPush 5) s = .next (raise .sfull s)) :=
  ⟨rfl, rfl, rfl⟩

theorem test_witness_ReadRegisterAnswersTheMap :
    (unit none [] []).eng = none ∧ (unit pcgDemo [] []).eng = some (.pcg32 ⟨0x185706B82C2E03F8, 0x6D⟩) ∧
    6 ≤ (6 : BitVec 8).toNat := ⟨rfl, rfl, by decide⟩

theorem test_witness_SeedBufferCommandsClearAndAppend :
    (unit none [] []).sb.length < (unit none [] []).cfg.seedCap ∧
    (let s := { unit none [7] [] with cfg := { Config.specDefault with seedCap := 1 } };
      s.sb.length = s.cfg.seedCap) := ⟨by decide, rfl⟩

theorem test_witness_SsIgr32AnswersTheRecurrence :
    (0xFFFFFFFF : Beat).toNat < 2 ^ 32 ∧ (1024 : Beat).toNat ≤ (unit none [] []).cfg.ssMaxOut ∧
    (0 : Nat) < 1023 ∧ 1023 < (1024 : Beat).toNat := by decide

theorem test_witness_SsIgr64AnswersTheRecurrence :
    (1024 : Beat).toNat ≤ (unit none [] []).cfg.ssMaxOut ∧ (0 : Nat) < 1 ∧ 1 < (1024 : Beat).toNat := by
  decide

theorem test_witness_ArraySeedSequencesAnswerTheirNetworks :
    (unit none [0xFFFFFFFF] []).sb ≠ [] ∧ (2 : Beat).toNat ≤ (unit none [0xFFFFFFFF] []).cfg.ssMaxOut ∧
    (2 : Beat).toNat ≠ 1 ∧ (2 : Beat).toNat ≠ 0 ∧ (0 : Beat).toNat ≠ 1 ∧
    ∀ b ∈ (unit none [0xFFFFFFFF] []).sb, b.toNat < 2 ^ 32 :=
  ⟨by decide, by decide, by decide, by decide, by decide, by simp [unit]⟩

theorem test_witness_SeedSeqFirstStepIsIndexIndependent :
    0 < 10 ∧ 9 < 10 ∧ seedSeqP 10 % 10 = 3 ∧ (3 : Nat) ≠ 0 ∧ 3 ≠ seedSeqQ 10 % 10 := by decide

/-- The clauses of the twist meet at i = 226 and 227 (the offset M) and at i = 623 (the last word). -/
theorem test_witness_TwistFollowsTheInPlaceRecurrence :
    (List.replicate 624 (1 : U32)).length = 624 ∧ 1 < 624 ∧ mt32Params.m < 624 ∧
    226 + mt32Params.m < 624 ∧ ¬ 227 + mt32Params.m < 624 ∧ ¬ 623 + 1 < 624 := by
  refine ⟨List.length_replicate, by decide, by decide, by decide, by decide, by decide⟩

/-- The two phases of an array of 624 words and of one of 312: exhausted and last word. -/
theorem test_witness_MersenneDrawTwistsOnlyWhenExhausted :
    (⟨Vector.replicate 624 0, 624⟩ : MtState 32 624).idx = 624 ∧
    (⟨Vector.replicate 624 0, 623⟩ : MtState 32 624).idx < 624 ∧
    (⟨Vector.replicate 312 0, 312⟩ : MtState 64 312).idx = 312 ∧
    (⟨Vector.replicate 312 0, 311⟩ : MtState 64 312).idx < 312 :=
  ⟨rfl, Nat.lt_succ_self _, rfl, Nat.lt_succ_self _⟩

theorem test_witness_MersenneWordSeedsLoadTheRecurrence :
    (0xFFFFFFFF : Beat).toNat < 2 ^ 32 ∧ (0 : Nat) < 623 ∧ 623 < 624 ∧ 311 < 312 := by decide

theorem test_witness_MersenneArraySeedsLoadTheirNetworks :
    (unit none [0xFFFFFFFF] []).sb ≠ [] ∧
    ∀ b ∈ (unit none [0xFFFFFFFF] []).sb, b.toNat < 2 ^ 32 := ⟨by decide, by simp [unit]⟩

theorem test_witness_PcgSeedSetsIncrementAndWarmsUp :
    (0x7FFFFFFFFFFFFFFF : Beat).toNat < 2 ^ 63 ∧ 2 ^ 63 ≤ (0x8000000000000000 : Beat).toNat ∧
    (unit none [] []).cfg.pcgSeedMode = .reference ∧
    ({ Config.specDefault with pcgSeedMode := .twoAfterFold } : Config).pcgSeedMode = .twoAfterFold := by
  decide +kernel

theorem test_witness_CounterBasedSeedsLoadTheKey :
    (0xFFFFFFFF : Beat).toNat < 2 ^ 32 ∧ (0 : Beat).toNat < 2 ^ 32 := by decide

/-- An engine of each width: the hypotheses of NextU32AnswersOneDraw, NextU64AnswersOneOrTwoDraws and
CanonCommandsNormalizeNextU64, and those on the engine of the two Range…CommandsStart… statements. -/
theorem test_witness_draws_over_an_engine :
    (unit pcgDemo [] []).eng = some (.pcg32 ⟨0x185706B82C2E03F8, 0x6D⟩) ∧
    nativeWidth (.pcg32 ⟨0x185706B82C2E03F8, 0x6D⟩) = 32 ∧
    (∃ e, (unit tf20Zero [] []).eng = some e ∧ nativeWidth e = 64) := ⟨rfl, rfl, _, rfl, rfl⟩

theorem test_witness_CanonicalPatternHasTheExactValue : 0 < 2 ^ 53 ∧ 2 ^ 53 ≤ 2 ^ 53 ∧ 0 < 1 := by
  decide

theorem test_witness_RejectionSchemeIsUnbiased : 6 < 2 ^ 32 ∧ 2 ^ 64 - 1 < 2 ^ 64 ∧
    4294967291 < limitOf 32 6 ∧ 6 ≤ 6 := by decide

/-- Spans at the boundaries: one value, and the whole signed range. -/
theorem test_witness_Range32CommandsStartTheNativeLoop :
    (∃ e, (unit pcgDemo [] []).eng = some e) ∧ (0x80000000 : Beat).toNat < 2 ^ 32 ∧
    (0x7FFFFFFF : Beat).toNat < 2 ^ 32 ∧
    (((0x7FFFFFFF : Beat).setWidth 32).toInt : Int) =
      ((0x80000000 : Beat).setWidth 32).toInt + (4294967295 : Nat) ∧
    (5 : Beat).toNat = (5 : Beat).toNat + 0 := ⟨⟨_, rfl⟩, by decide, by decide, by decide, by decide⟩

/-- The span clauses meet at 2^32 on a 32-bit engine, in each mode. -/
theorem test_witness_Range64CommandsStartTheBoundedDraw :
    (0xFFFFFFFF : Beat).toNat = 4294967295 ∧ 4294967295 < 2 ^ 32 ∧
    (0x100000005 : Beat).toNat = (5 : Beat).toNat + 2 ^ 32 ∧ 2 ^ 32 ≤ 2 ^ 32 ∧
    (1 : Beat).toInt = (0xFFFFFFFFFFFFFFFF : Beat).toInt + (2 : Nat) ∧
    (unit pcgDemo [] []).cfg.bounded64Mode = .split ∧
    ({ Config.specDefault with bounded64Mode := .compose } : Config).bounded64Mode = .compose := by
  decide +kernel

/-- A sampler on PCG32's first word 0xA15C02B7, with each phase in turn. -/
theorem test_witness_SamplerStepFollowsItsPhase : ∀ ph : Phase,
    let s := (unit pcgDemo [] []).sampling ⟨ph, 1, 2 ^ 32, 0, .w64⟩
    rspFull s = false ∧ s.rspPend = [] ∧ s.smp = .active ⟨ph, 1, 2 ^ 32, 0, .w64⟩ ∧
    s.eng = some (.pcg32 ⟨0x185706B82C2E03F8, 0x6D⟩) ∧
    (rawDraw s.cfg (.pcg32 ⟨0x185706B82C2E03F8, 0x6D⟩)).1.toNat = 0xA15C02B7 :=
  fun _ => ⟨rfl, rfl, rfl, rfl, (by decide +kernel :
    (rawDraw Config.specDefault (.pcg32 ⟨0x185706B82C2E03F8, 0x6D⟩)).1.toNat = 0xA15C02B7)⟩

/-- R662's example: the words 0xFFFFFFFE and 0xFFFFFFFB reject once and then accept. -/
theorem test_witness_NativeLoopAnswersTheFirstAcceptedDraw :
    let r : Sampler := ⟨.nat, 390451572, 4294967292, 10, .w32⟩
    let s := (unit (words4 0xFFFFFFFE 0xFFFFFFFB 0 0) [] []).sampling r
    rspFull s = false ∧ s.rspPend = [] ∧ s.smp = .active r ∧ r.ph = .nat ∧ ∃ e, s.eng = some e ∧
    (∀ i, i < 1 → r.lim ≤ (wordAt s.cfg i e).toNat) ∧ (wordAt s.cfg 1 e).toNat < r.lim :=
  ⟨rfl, rfl, rfl, rfl, _, rfl, by decide +kernel, by decide +kernel⟩

/-- BOUNDED_U32 6 on PCG32 ends after one sampler step: with CMDQ empty, and as the first idle state with
a packet queued. -/
theorem test_witness_RangeResultsLieBetweenTheBounds : ∀ queued : List Beat,
    isRange (.boundedU32 6) = true ∧ (unit pcgDemo [] queued).Ready ∧
    ∃ t u, exec (.boundedU32 6) (unit pcgDemo [] queued) = .next t ∧ t.smp ≠ .idle ∧
      Sys2Proof.core.run 1 t = .next u ∧ u.smp = .idle ∧
      ∀ j v, j < 1 → Sys2Proof.core.run j t = .next v → v.smp ≠ .idle := by
  intro queued
  refine ⟨rfl, ⟨rfl, rfl, rfl⟩, _, _, rfl, nofun, rfl, ?_, ?_⟩
  · exact (by decide +kernel : (samplerDecide ⟨.nat, 613566756, 4294967292, 0, .w32⟩ 0xA15C02B7
      (unit pcgDemo [] [])).smp = .idle)
  · intro j v hj hv
    obtain rfl : j = 0 := by omega
    obtain rfl := Host.Outcome.next.inj hv
    exact nofun

theorem test_witness_FullRangeIdentity :
    (unit pcgDemo [] []).Ready ∧ ∃ e, (unit pcgDemo [] []).eng = some e := ⟨⟨rfl, rfl, rfl⟩, _, rfl⟩

theorem test_witness_CommandsChangeOnlyTheirOwnState :
    (unit pcgDemo [] []).smp = .idle ∧
    (∃ t, exec .nextU32 (unit pcgDemo [] []) = .next t) ∧ isSeedBuffer .nextU32 = false ∧
    isConstruction .nop = false ∧ isDraw .nop = false ∧ isRange (.boundedU32 6) = true ∧
    isRange .nop = false := ⟨rfl, ⟨_, rfl⟩, rfl, rfl, rfl, rfl, rfl⟩

theorem test_witness_ConstructionForgetsTheEarlierEngine :
    isConstruction (.pcg32Seed 42 54) = true ∧ ¬ ArgCause (.pcg32Seed 42 54) (unit none [] []) :=
  ⟨rfl, (by decide : ¬ 2 ^ 63 ≤ (54 : Beat).toNat)⟩

theorem test_witness_DrawsDoNotReadTheSeedBuffer :
    (isDraw .nextU64 = true ∧ ∃ t, exec .nextU64 (unit pcgDemo [7] []) = .next t) ∧
    (let s := (unit pcgDemo [7] []).sampling ⟨.nat, 613566756, 4294967292, 0, .w32⟩;
      s.smp ≠ .idle ∧ ∃ t, step s = .next t) := ⟨⟨rfl, _, rfl⟩, by decide, _, rfl⟩

/-- A state with every part of the invariant in use: bounded ports, an engine and an active sampler. -/
def busy : State :=
  { unit pcgDemo [7] [0x20] with
    cfg := { Config.specDefault with cmdFifoDepth := some 1, rspFifoDepth := some 1 }
    status := 15
    smp := .active ⟨.nat, 613566756, 4294967292, 0, .w32⟩ }

theorem test_witness_busy_inv : busy.Inv where
  cfgLegal := by decide +kernel
  cmdqFits := by
    intro d hd
    obtain rfl : 1 = d := by simpa [busy] using hd
    exact Nat.le_refl _
  rspqFits := fun d _ => Nat.zero_le d
  pendBounded := fun h => absurd rfl h
  statusBits := by decide
  seedFits := by decide
  engWf := by
    intro e he
    obtain rfl := Option.some.inj he
    exact (by decide : (0x6D : U64).getLsbD 0 = true)
  smpWf := by
    intro r hr
    obtain rfl := Smp.active.inj hr
    exact ⟨rfl, _, rfl, by decide, 6, by decide, by decide, by decide⟩

theorem test_witness_EveryStepKeepsTheInvariant : busy.Inv ∧ step busy = .next (after busy) :=
  ⟨test_witness_busy_inv, rfl⟩

theorem test_witness_NoStepFaultsUnderTheInvariant : busy.Inv := test_witness_busy_inv

theorem test_witness_ResetHasTheInvariant : Config.specDefault.Legal := by decide +kernel

theorem test_witness_HostActionsKeepTheInvariant :
    busy.Inv ∧ hostWrite 5 busy = none ∧
    (∃ t, hostWrite 5 { busy with cmdq := [] } = some t) ∧
    (∃ t, hostRead { busy with rspq := [7] } = some (7, t)) := ⟨test_witness_busy_inv, rfl, ⟨_, rfl⟩, ⟨_, rfl⟩⟩

end Sys2Proof.Tests
end

/-! PROOFS. The raw draw of the engine base and the state after reset: O40 and O57. -/

namespace Sys2Proof.Machine

/-! ### The raw draw -/

/-- Zero-extension keeps a 32-bit word below `2 ^ 32` (R15). -/
theorem zext64_toNat_lt (v : U32) : (zext64 v).toNat < 2 ^ 32 := by
  rw [zext64, BitVec.toNat_setWidth_of_le (by decide)]
  exact v.isLt

/-- The engine after a raw draw is of the same constructor (R451), so its kind is the same. -/
@[simp] theorem kindOf_rawDraw (c : Config) (e : Engine) :
    kindOf (some (rawDraw c e).2) = kindOf (some e) := by
  cases e <;> simp only [rawDraw, kindOf]

/-- The 32-bit engines zero-extend their word; a 64-bit engine's word fills the beat (R20, R450). -/
theorem rawDraw_toNat_lt (c : Config) (e : Engine) :
    (rawDraw c e).1.toNat < 2 ^ nativeWidth e := by
  cases e with
  | mt32 | pcg32 | philox => exact zext64_toNat_lt _
  | mt64 | tf20 | tfr => exact BitVec.isLt _

/-! ### The state after reset -/

/-- The reset values of R140 meet the invariant: empty queues fit any depth, STATUS is 0, and with the
slot empty and SMP idle nothing is asked of an engine or a sampler. Only the configuration's own
legality is left to assume. -/
theorem resetWith_inv {c : Config} (hc : c.Legal) : (State.resetWith c).Inv where
  cfgLegal := hc
  cmdqFits := fun d _ => Nat.zero_le d
  rspqFits := fun d _ => Nat.zero_le d
  pendBounded := fun h => absurd (resetWith_rspPend c) h
  statusBits := by simp
  seedFits := Nat.zero_le _
  engWf := by simp
  smpWf := by simp

/-- The default configuration has R13's legal values. -/
theorem specDefault_legal : Config.specDefault.Legal := by
  simp [Config.Legal, Config.DepthLegal, Config.specDefault]

end Sys2Proof.Machine

namespace Sys2Proof.Proofs

open Sys2Proof Sys2Proof.Machine

/-- Settles O40, by the engine's kind: the width and the kind of the one raw draw. -/
theorem rawDrawHasNativeWidthAndKeepsKind : Obligations.RawDrawHasNativeWidthAndKeepsKind :=
  fun c e => ⟨rawDraw_toNat_lt c e, kindOf_rawDraw c e⟩

/-- Settles O57: the reset state of any legal configuration, the default one's among them. -/
theorem resetHasTheInvariant : Obligations.ResetHasTheInvariant :=
  ⟨resetWith_inv specDefault_legal, fun _ => resetWith_inv⟩

end Sys2Proof.Proofs

/-! PROOFS. The family 10_state.md: what a command's own step can do, the invariant under every step,
STATUS, the registers and reset, the packet at the head of CMDQ, and the sequences of the counter-based
engines: O56, O16, O37, O38, O8, O14, O20, O21 and O23. -/

namespace Sys2Proof.Machine

/-! ### The engine's fields under construction and draw -/

theorem mtDraw_idx_le {w n : Nat} (p : MtParams w) {e : MtState w n} (hn : 0 < n) (he : e.idx ≤ n) :
    (mtDraw p e).2.idx ≤ n := by
  by_cases hidx : e.idx = n
  · simpa [mtDraw, hidx] using Nat.succ_le_of_lt hn
  · simp only [mtDraw, hidx, if_false]
    omega

theorem philoxDraw_pos_le {e : PhiloxState} (he : e.pos ≤ 4) : (philoxDraw e).2.pos ≤ 4 := by
  by_cases hpos : e.pos = 4
  · simp [philoxDraw, hpos]
  · simp only [philoxDraw, hpos, if_false]
    omega

theorem tfDraw_pos_le (rounds : Nat) (inc : Quad 64 → Quad 64) {e : TfState} (he : e.pos ≤ 4) :
    (tfDraw rounds inc e).2.pos ≤ 4 := by
  by_cases hpos : e.pos = 4
  · simp [tfDraw, hpos]
  · simp only [tfDraw, hpos, if_false]
    omega

theorem pcgDraw_snd (e : PcgState) : (pcgDraw e).2 = ⟨e.state * pcgMul + e.inc, e.inc⟩ := rfl

theorem pcg32_wf_iff (state inc : U64) :
    Engine.Wf (.pcg32 ⟨state, inc⟩) ↔ inc.getLsbD 0 = true := Iff.rfl

/-- A raw draw keeps IDX, POS and the odd INC in their ranges (R111 to R116). -/
theorem rawDraw_wf (c : Config) {e : Engine} (he : e.Wf) : (rawDraw c e).2.Wf := by
  cases e with rw [rawDraw]
  | mt32 e => exact mtDraw_idx_le mt32Params (by decide) he
  | mt64 e => exact mtDraw_idx_le mt64Params (by decide) he
  | pcg32 e => rwa [pcgDraw_snd, pcg32_wf_iff]
  | philox e => exact philoxDraw_pos_le he
  | tf20 e => exact tfDraw_pos_le _ _ he
  | tfr e => exact tfDraw_pos_le _ _ he

@[simp] theorem nativeWidth_rawDraw (c : Config) (e : Engine) :
    nativeWidth (rawDraw c e).2 = nativeWidth e := by
  cases e <;> simp only [rawDraw, nativeWidth]

/-- A Mersenne Twister construction leaves IDX = N (R512). -/
theorem mt32Fresh_wf {l : List U32} (h : l.length = 624) : Engine.Wf (.mt32 (mtFresh l h)) := by
  simp [Engine.Wf, mtFresh]

theorem mt64Fresh_wf {l : List U64} (h : l.length = 312) : Engine.Wf (.mt64 (mtFresh l h)) := by
  simp [Engine.Wf, mtFresh]

theorem nextWord32_snd (c : Config) (e : Engine) : (nextWord32 c e).2 = (rawDraw c e).2 := by
  unfold nextWord32
  split <;> rfl

/-- NextU64 is one or two raw draws, so what every raw draw keeps, it keeps (R455). -/
theorem nextWord64_snd_induction {P : Engine → Prop} (c : Config)
    (hdraw : ∀ e, P e → P (rawDraw c e).2) {e : Engine} (he : P e) : P (nextWord64 c e).2 := by
  unfold nextWord64
  split
  · exact hdraw _ (hdraw _ he)
  · exact hdraw _ he

/-- The increment of a stream is odd (R114, R550). -/
theorem pcgInc_odd (stream : U64) : (pcgInc stream).getLsbD 0 = true := by
  simp [pcgInc]

theorem pcgWarmUp_inc (mode : PcgSeedMode) (initstate inc : U64) :
    (pcgWarmUp mode initstate inc).inc = inc := by
  cases mode <;> rfl

/-! ### The sampler's constants -/

/-- A sampler fits every engine of the width it was started for. -/
theorem Sampler.Wf.congr_width {c : Config} {e e' : Engine} {r : Sampler} (h : r.Wf c e)
    (hw : nativeWidth e' = nativeWidth e) : r.Wf c e' := by
  unfold Sampler.Wf at h ⊢
  rwa [hw]

/-- The native loop's constants are those of its `max` (R650). -/
theorem boundedNative_wf (c : Config) (e : Engine) {k max : Nat} {off : Beat} {width : ResultWidth}
    (hk : nativeWidth e = k) (hmax : max < 2 ^ k) (hoff : off.toNat < 2 ^ resultBits width) :
    Sampler.Wf c e ⟨.nat, scalingOf k max, limitOf k max, off, width⟩ := by
  subst hk
  exact ⟨hoff, max, hmax, rfl, rfl⟩

theorem bounded32_wf (c : Config) (e : Engine) {max : Nat} {off : Beat} (hmax : max < 2 ^ 32)
    (hoff : off.toNat < 2 ^ 32) :
    Sampler.Wf c e ⟨(bounded32 e max).ph, (bounded32 e max).sc, (bounded32 e max).lim, off, .w32⟩ := by
  have hwidth : 32 ≤ nativeWidth e := by cases e <;> simp [nativeWidth]
  exact boundedNative_wf c e rfl (hmax.trans_le (Nat.pow_le_pow_right (by decide) hwidth)) hoff

/-- Each construction of Bounded64 starts in a phase that fits the engine's width and the configured
mode (R655 to R657). -/
theorem bounded64_wf (c : Config) (e : Engine) {max : Nat} (off : Beat) (hmax : max < 2 ^ 64) :
    Sampler.Wf c e
      ⟨(bounded64 c e max).ph, (bounded64 c e max).sc, (bounded64 c e max).lim, off, .w64⟩ := by
  have hoff : off.toNat < 2 ^ resultBits .w64 := off.isLt
  unfold bounded64
  split
  · next hw =>
    split
    · next hmode =>
      unfold boundedSplit
      split
      · next hsmall => exact boundedNative_wf c e hw hsmall hoff
      · next hbig =>
        have hhigh : max / 2 ^ 32 < 2 ^ 32 := by omega
        exact ⟨hoff, hw, hmode, Nat.not_lt.mp hbig, hhigh, rfl, rfl⟩
    · next hmode => exact ⟨hoff, hw, hmode, max, hmax, rfl, rfl⟩
  · next hw =>
    have hw64 : nativeWidth e = 64 := by
      cases e with
      | mt32 | pcg32 | philox => exact absurd rfl hw
      | mt64 | tf20 | tfr => rfl
    exact boundedNative_wf c e hw64 hmax hoff

/-- The span of two signed `k`-bit patterns is below `2 ^ k` (R659). -/
theorem intOf_span_lt {k : Nat} (hk : 0 < k) (lo hi : BitVec k) :
    (intOf hi - intOf lo).toNat < 2 ^ k := by
  rw [intOf_eq_toInt hk, intOf_eq_toInt hk]
  obtain ⟨m, rfl⟩ : ∃ m, k = m + 1 := ⟨k - 1, by omega⟩
  have hpow : (2 : Nat) ^ (m + 1) = 2 ^ m + 2 ^ m := by rw [Nat.pow_succ]; omega
  have hhi := hi.toInt_lt
  have hlo := lo.le_toInt
  have hpos : 0 < 2 ^ m := Nat.two_pow_pos m
  have hcast : (2 : Int) ^ m = ((2 ^ m : Nat) : Int) := by push_cast; rfl
  rw [Nat.add_sub_cancel, hcast] at hhi hlo
  rw [hpow]
  omega

/-! ### What a command's own step can do -/

/-- What command `i`, executed in state `s`, can leave as the next state: it fails as `raise` says, or
answers OK having changed nothing, the seed buffer or the engine slot alone, or starts the sampler. Each
effect comes with the class of commands that can have it and with what the new part of the state meets. -/
inductive CommandEffect (i : Instr) (s : State) : State → Prop
  | failed (e : Err) : CommandEffect i s (raise e s)
  | answered (rs : List Beat) (hcount : rs.length = resultCount i) : CommandEffect i s (respond s rs)
  | cleared (hi : i = .seedClear) : CommandEffect i s (respond { s with sb := [] } [])
  | pushed (v : Beat) (hi : i = .seedPush v) (hroom : s.sb.length ≠ s.cfg.seedCap) :
      CommandEffect i s (respond { s with sb := s.sb ++ [v] } [])
  | constructed (e : Engine) (hi : isConstruction i = true) (hwf : e.Wf) :
      CommandEffect i s (respond { s with eng := some e } [])
  | drew (e e' : Engine) (r : Beat) (hi : isDraw i = true ∧ isRange i = false)
      (hslot : s.eng = some e) (hwf : e.Wf → e'.Wf) (hkind : kindOf (some e') = kindOf (some e)) :
      CommandEffect i s (respond { s with eng := some e' } [r])
  | started (e : Engine) (r : Sampler) (hi : isRange i = true) (hslot : s.eng = some e)
      (hwf : r.Wf s.cfg e) : CommandEffect i s (s.sampling r)

/-- The result is a next state that command `i` can leave. -/
def EndsInEffect (i : Instr) (s : State) (res : Result) : Prop :=
  ∃ t, res = .next t ∧ CommandEffect i s t

section
variable {i : Instr} {s : State}

theorem failWith_effect (e : Err) : EndsInEffect i s (failWith e s) := ⟨_, rfl, .failed e⟩

theorem answer_effect {rs : List Beat} (hcount : rs.length = resultCount i) :
    EndsInEffect i s (answer s rs) := ⟨_, rfl, .answered rs hcount⟩

theorem construct_effect {e : Engine} (hi : isConstruction i = true) (hwf : e.Wf) :
    EndsInEffect i s (construct e s) := ⟨_, rfl, .constructed e hi hwf⟩

theorem start_effect {b : Bound} {off : Beat} {width : ResultWidth} {e : Engine} (hi : isRange i = true)
    (hslot : s.eng = some e) (hwf : Sampler.Wf s.cfg e ⟨b.ph, b.sc, b.lim, off, width⟩) :
    EndsInEffect i s (start b off width s) := ⟨_, rfl, .started e _ hi hslot hwf⟩

theorem check_effect {p : Prop} [Decidable p] {e : Err} {res : Result}
    (h : ¬ p → EndsInEffect i s res) : EndsInEffect i s (if p then failWith e s else res) := by
  split
  · exact failWith_effect e
  · next hp => exact h hp

theorem withEngine_effect {k : Engine → Result} (h : ∀ e, s.eng = some e → EndsInEffect i s (k e)) :
    EndsInEffect i s (withEngine s k) := by
  unfold withEngine
  split
  · exact failWith_effect .ncon
  · next e he => exact h e he

theorem withU32_effect {b : Beat} {k : U32 → Result} (h : ∀ v, EndsInEffect i s (k v)) :
    EndsInEffect i s (withU32 b s k) := by
  unfold withU32
  split
  · exact failWith_effect .arg
  · exact h _

theorem withKey32_effect {k : List U32 → Result} (h : ∀ key, EndsInEffect i s (k key)) :
    EndsInEffect i s (withKey32 s k) := by
  refine check_effect fun _ => ?_
  split
  · exact failWith_effect .arg
  · exact h _

theorem withKey64_effect {k : List U64 → Result} (h : ∀ key, EndsInEffect i s (k key)) :
    EndsInEffect i s (withKey64 s k) := check_effect fun _ => h _

theorem withLength_effect {n : Beat} {k : Nat → Result} (h : EndsInEffect i s (k n.toNat)) :
    EndsInEffect i s (withLength n s k) := check_effect fun _ => h

theorem withArrayLength_effect {n : Beat} {k : Nat → Result} (h : EndsInEffect i s (k n.toNat)) :
    EndsInEffect i s (withArrayLength n s k) := check_effect fun _ => h

/-- An InitByArray answer has as many beats as were asked for, the empty output included (R409). -/
theorem arrayAnswer_effect {n : Nat} {out : List Beat} (hcount : resultCount i = n)
    (hout : out.length = n) : EndsInEffect i s (if n = 0 then answer s [] else answer s out) := by
  split
  · next hn => exact answer_effect (by rw [hcount, hn, List.length_nil])
  · exact answer_effect (hout.trans hcount.symm)

theorem nextU32_effect (hi : isDraw i = true ∧ isRange i = false) :
    EndsInEffect i s (execNextU32 s) :=
  withEngine_effect fun e he => by
    refine ⟨_, rfl, .drew e _ _ hi he ?_ ?_⟩
    · rw [nextWord32_snd]; exact rawDraw_wf _
    · rw [nextWord32_snd]; exact kindOf_rawDraw _ e

/-- NEXT_U64 and the three CANON commands: a 64-bit word is drawn and `f` of it answered (R455, R465). -/
theorem draw64_effect (f : Beat → Beat) (hi : isDraw i = true ∧ isRange i = false) :
    EndsInEffect i s (withEngine s fun e =>
      answerDraw s (f (nextWord64 s.cfg e).1) (nextWord64 s.cfg e).2) :=
  withEngine_effect fun e he => by
    refine ⟨_, rfl, .drew e _ _ hi he ?_ ?_⟩
    · exact nextWord64_snd_induction (P := Engine.Wf) _ fun _ => rawDraw_wf _
    · exact nextWord64_snd_induction (P := fun e' => kindOf (some e') = kindOf (some e)) _
        (fun e' he' => (kindOf_rawDraw _ e').trans he') rfl

end

/-- Every command answers a next state, and that state is one of `CommandEffect`. -/
theorem exec_effect (i : Instr) (s : State) : EndsInEffect i s (exec i s) := by
  cases i with simp only [exec]
  | nop => exact answer_effect rfl
  | seedClear => exact ⟨_, rfl, .cleared rfl⟩
  | seedPush v => exact check_effect fun hroom => ⟨_, rfl, .pushed v rfl hroom⟩
  | ssIgr32 seed n =>
    exact withU32_effect fun v => withLength_effect <|
      answer_effect ((List.length_map _).trans (initGenRand_length _ _ _))
  | ssIgr64 seed n =>
    unfold execSsIgr64
    exact withLength_effect <| answer_effect (initGenRand_length _ _ _)
  | ssIba32 n =>
    exact withKey32_effect fun key => withArrayLength_effect <|
      arrayAnswer_effect rfl ((List.length_map _).trans (initByArray_length _ _ _))
  | ssIba64 n =>
    exact withKey64_effect fun key => withArrayLength_effect <|
      arrayAnswer_effect rfl (initByArray_length _ _ _)
  | ssSseq32 n =>
    exact withKey32_effect fun v => withLength_effect <|
      answer_effect ((List.length_map _).trans (seedSeq_length _ _))
  | mt32Seed seed => exact withU32_effect fun v => construct_effect rfl (mt32Fresh_wf _)
  | mt32SeedArray => exact withKey32_effect fun key => construct_effect rfl (mt32Fresh_wf _)
  | mt32SeedSeq => exact withKey32_effect fun v => construct_effect rfl (mt32Fresh_wf _)
  | mt64Seed seed =>
    unfold execMt64Seed
    exact construct_effect rfl (mt64Fresh_wf _)
  | mt64SeedArray => exact withKey64_effect fun key => construct_effect rfl (mt64Fresh_wf _)
  | pcg32Seed initstate stream =>
    refine check_effect fun _ => construct_effect rfl ?_
    rw [Engine.Wf, pcgWarmUp_inc]
    exact pcgInc_odd stream
  | philoxSeed k0 k1 =>
    exact withU32_effect fun a => withU32_effect fun b => construct_effect rfl (Nat.le_refl 4)
  | tf20Seed k0 k1 k2 k3 => exact construct_effect rfl (Nat.le_refl 4)
  | tfrSeed k0 k1 k2 k3 => exact construct_effect rfl (Nat.le_refl 4)
  | nextU32 => exact nextU32_effect ⟨rfl, rfl⟩
  | nextU64 => exact draw64_effect id ⟨rfl, rfl⟩
  | boundedU32 max =>
    exact withEngine_effect fun e he => withU32_effect fun m =>
      start_effect rfl he (bounded32_wf _ e m.isLt (by decide))
  | boundedU64 max =>
    exact withEngine_effect fun e he => start_effect rfl he (bounded64_wf _ e 0 max.isLt)
  | rangeU32 min max =>
    exact withEngine_effect fun e he => withU32_effect fun lo => withU32_effect fun hi =>
      check_effect fun _ => start_effect rfl he
        (bounded32_wf _ e ((Nat.sub_le _ _).trans_lt hi.isLt) (zext64_toNat_lt lo))
  | rangeU64 min max =>
    exact withEngine_effect fun e he => check_effect fun _ => start_effect rfl he
      (bounded64_wf _ e min ((Nat.sub_le _ _).trans_lt max.isLt))
  | rangeI32 min max =>
    exact withEngine_effect fun e he => withU32_effect fun lo => withU32_effect fun hi =>
      check_effect fun _ => start_effect rfl he
        (bounded32_wf _ e (intOf_span_lt (by decide) lo hi) (zext64_toNat_lt lo))
  | rangeI64 min max =>
    exact withEngine_effect fun e he => check_effect fun _ => start_effect rfl he
      (bounded64_wf _ e min (intOf_span_lt (by decide) min max))
  | canon => exact draw64_effect canonical ⟨rfl, rfl⟩
  | canonInc => exact draw64_effect incrementedCanonical ⟨rfl, rfl⟩
  | canonSym => exact draw64_effect symmetricCanonical ⟨rfl, rfl⟩
  | normCanon w => exact answer_effect rfl
  | normCanonInc w => exact answer_effect rfl
  | normCanonSym w => exact answer_effect rfl
  | readReg reg =>
    unfold execReadReg
    split
    · exact failWith_effect .ill
    · exact answer_effect rfl

theorem exec_next {i : Instr} {s t : State} (h : exec i s = .next t) : CommandEffect i s t := by
  obtain ⟨t', ht', heffect⟩ := exec_effect i s
  obtain rfl : t' = t := by simpa [ht'] using h
  exact heffect

/-! ### What a sampler step can do -/

/-- A sampler step answers, or goes on in a phase whose registers still fit every engine that could have
drawn the word `d` (R670). -/
theorem samplerDecide_cases (r : Sampler) (d : Nat) (s : State) :
    (∃ x, samplerDecide r d s = finish r x s) ∨
    ∃ ph, samplerDecide r d s = goOn r ph s ∧
      ∀ c e, d < 2 ^ nativeWidth e → r.Wf c e → Sampler.Wf c e { r with ph := ph } := by
  obtain ⟨ph, sc, lim, off, width⟩ := r
  cases ph with
  | nat =>
    simp only [samplerDecide]
    split
    · exact .inl ⟨_, rfl⟩
    · exact .inr ⟨_, rfl, fun _ _ _ hwf => hwf⟩
  | splHi mx =>
    simp only [samplerDecide]
    split
    · next hlt =>
      refine .inr ⟨_, rfl, fun c e _ ⟨hoff, hw, hmode, hmx, hmax, hsc, hlim⟩ => ?_⟩
      have hlimit : lim = sc * (mx / 2 ^ 32 + 1) := by
        rw [show lim = _ from hlim, show sc = _ from hsc, limitOf, Nat.mul_comm]
      have hhi : d / sc < mx / 2 ^ 32 + 1 := Nat.div_lt_of_lt_mul (hlimit ▸ hlt)
      exact ⟨hoff, hw, hmode, hmx, ⟨hmax, hsc, hlim⟩, Nat.le_of_lt_succ hhi⟩
    · exact .inr ⟨_, rfl, fun _ _ _ hwf => hwf⟩
  | splLo mx hi =>
    simp only [samplerDecide]
    split
    · exact .inl ⟨_, rfl⟩
    · exact .inr ⟨_, rfl, fun _ _ _ ⟨hoff, hw, hmode, hmx, hconst, _⟩ =>
        ⟨hoff, hw, hmode, hmx, hconst⟩⟩
  | cmpHi =>
    refine .inr ⟨_, rfl, fun c e hd ⟨hoff, hw, hmode, hconst⟩ => ?_⟩
    exact ⟨hoff, hw, hmode, hw ▸ hd, hconst⟩
  | cmpLo hi =>
    simp only [samplerDecide]
    split
    · exact .inl ⟨_, rfl⟩
    · exact .inr ⟨_, rfl, fun _ _ _ ⟨hoff, hw, hmode, _, hconst⟩ => ⟨hoff, hw, hmode, hconst⟩⟩

@[simp] theorem samplerDecide_status (r : Sampler) (d : Nat) (s : State) :
    (samplerDecide r d s).status = s.status := by
  obtain ⟨x, hfin⟩ | ⟨ph, hgo, _⟩ := samplerDecide_cases r d s
  · rw [hfin, finish_status]
  · rw [hgo, goOn_status]

/-! ### The invariant -/

/-- A send step is enabled only while response beats wait (R212). -/
theorem fetch_send_inv {s : State} (h : fetch s = .send) : s.rspPend ≠ [] := by
  intro hpend
  unfold fetch at h
  split at h
  · simp at h
  · rw [if_neg (not_not.mpr hpend)] at h
    split at h
    · simp at h
    · split at h <;> simp at h

/-- The response port keeps its depth, and with an unbounded one nothing is left waiting (R212). -/
theorem pushResponse_inv {s : State} (hs : s.Inv) (hidle : s.smp = .idle) (bs : List Beat) :
    (pushResponse s bs).Inv :=
  { hs with
    rspqFits := by
      intro d hd
      have hfits := hs.rspqFits d hd
      rw [pushResponse_rspq, List.length_append, List.length_take, rspRoom_bounded s _ d hd]
      omega
    pendBounded := by
      intro hpend hunbounded
      exact hpend (by rw [pushResponse_unbounded s bs hunbounded])
    smpWf := by simp [hidle] }

theorem errBit_toNat_lt (e : Err) : (errBit e).toNat < 2 ^ 4 := by
  cases e <;> decide

theorem raise_inv {s : State} (hs : s.Inv) (e : Err) : (raise e s).Inv := by
  have hstatus : (s.status ||| errBit e).toNat < 2 ^ 4 := by
    rw [BitVec.toNat_or]
    exact Nat.or_lt_two_pow hs.statusBits (errBit_toNat_lt e)
  have hraised : State.Inv { s with status := s.status ||| errBit e, smp := .idle } :=
    { hs with statusBits := hstatus, smpWf := fun _ hr => Smp.noConfusion hr }
  exact pushResponse_inv hraised rfl _

theorem consume_inv {s : State} (hs : s.Inv) (n : Nat) : (consume n s).Inv :=
  { hs with
    cmdqFits := fun d hd => by
      rw [consume_cmdq, List.length_drop]
      exact (Nat.sub_le _ _).trans (hs.cmdqFits d hd) }

/-- While SMP is IDLE the slot may take any engine whose fields are in range. -/
theorem State.Inv.with_eng {s : State} (hs : s.Inv) (hidle : s.smp = .idle) {e : Engine} (he : e.Wf) :
    State.Inv { s with eng := some e } :=
  { hs with
    engWf := by rintro _ ⟨⟩; exact he
    smpWf := by simp [hidle] }

theorem State.Inv.with_sb {s : State} (hs : s.Inv) (sb : List Beat)
    (hfits : sb.length ≤ s.cfg.seedCap) :
    State.Inv { s with sb := sb } :=
  { hs with seedFits := hfits }

/-- A command executed with SMP IDLE and no response under way keeps the invariant. -/
theorem CommandEffect.inv {i : Instr} {s t : State} (h : CommandEffect i s t) (hs : s.Inv)
    (hpend : s.rspPend = []) (hidle : s.smp = .idle) : t.Inv := by
  cases h with
  | failed e => exact raise_inv hs e
  | answered rs => exact pushResponse_inv hs hidle _
  | cleared => exact pushResponse_inv (hs.with_sb [] (Nat.zero_le _)) hidle _
  | pushed v _ hroom =>
    have hfits := hs.seedFits
    refine pushResponse_inv (hs.with_sb (s.sb ++ [v]) ?_) hidle _
    rw [List.length_append, List.length_singleton]
    omega
  | constructed e _ hwf => exact pushResponse_inv (hs.with_eng hidle hwf) hidle _
  | drew e e' r _ hslot hwf =>
    exact pushResponse_inv (hs.with_eng hidle (hwf (hs.engWf e hslot))) hidle _
  | started e r _ hslot hwf =>
    exact { hs with smpWf := by rintro _ ⟨⟩; exact ⟨hpend, e, hslot, hwf⟩ }

/-- A sampler step keeps the invariant: the engine drawn from stays in range and keeps its width, so the
registers that go on still fit it. -/
theorem sampler_step_inv {s : State} {r : Sampler} {e : Engine} (hs : s.Inv)
    (hactive : s.smp = .active r) (hslot : s.eng = some e) :
    (samplerDecide r (rawDraw s.cfg e).1.toNat { s with eng := some (rawDraw s.cfg e).2 }).Inv := by
  obtain ⟨hpend, e₀, hslot₀, hwf⟩ := hs.smpWf r hactive
  obtain rfl : e = e₀ := by simpa [hslot] using hslot₀
  have heng : ∀ e' ∈ some (rawDraw s.cfg e).2, e'.Wf := by
    rintro _ ⟨⟩
    exact rawDraw_wf _ (hs.engWf e hslot)
  obtain ⟨x, hfin⟩ | ⟨ph, hgo, hkeeps⟩ := samplerDecide_cases r (rawDraw s.cfg e).1.toNat
    { s with eng := some (rawDraw s.cfg e).2 }
  · rw [hfin]
    have hdrawn : State.Inv { s with eng := some (rawDraw s.cfg e).2, smp := .idle } :=
      { hs with engWf := heng, smpWf := fun _ hr => Smp.noConfusion hr }
    exact pushResponse_inv hdrawn rfl _
  · rw [hgo]
    have hfit := (hkeeps _ _ (rawDraw_toNat_lt _ _) hwf).congr_width (nativeWidth_rawDraw s.cfg e)
    exact { hs with engWf := heng, smpWf := by rintro _ ⟨⟩; exact ⟨hpend, _, rfl, hfit⟩ }

theorem step_inv {s t : State} (hs : s.Inv) (h : step s = .next t) : t.Inv := by
  obtain ⟨_, rfl⟩ | ⟨hf, rfl⟩ | ⟨r, e, hf, hslot, rfl⟩ | ⟨n, _, rfl⟩ | ⟨i, n, hf, hexec⟩ := step_next h
  · exact hs
  · refine pushResponse_inv hs ?_ []
    cases hsmp : s.smp with
    | idle => rfl
    | active r => exact absurd (hs.smpWf r hsmp).1 (fetch_send_inv hf)
  · obtain ⟨_, _, hactive⟩ := fetch_sample_inv hf
    exact sampler_step_inv hs hactive hslot
  · exact raise_inv (consume_inv hs n) .ill
  · obtain ⟨⟨_, hpend, hidle⟩, _⟩ := fetch_run_inv hf
    exact (exec_next hexec).inv (consume_inv hs n) hpend hidle

/-! ### STATUS -/

/-- A command leaves STATUS as it was or ORs one error's bit into it (R752, R753). -/
theorem CommandEffect.status {i : Instr} {s t : State} (h : CommandEffect i s t) :
    t.status = s.status ∨ ∃ e, t.status = s.status ||| errBit e := by
  cases h with
  | failed e => exact .inr ⟨e, rfl⟩
  | answered | cleared | pushed | constructed | drew | started => exact .inl rfl

theorem step_status {s t : State} (h : step s = .next t) :
    t.status = s.status ∨ ∃ e, t.status = s.status ||| errBit e := by
  obtain ⟨_, rfl⟩ | ⟨_, rfl⟩ | ⟨r, e, _, _, rfl⟩ | ⟨n, _, rfl⟩ | ⟨i, n, _, hexec⟩ := step_next h
  · exact .inl rfl
  · exact .inl rfl
  · exact .inl (samplerDecide_status _ _ _)
  · exact .inr ⟨.ill, rfl⟩
  · exact (exec_next hexec).status

/-! ### The packet at the head of CMDQ -/

/-- A command beat with an assigned OPC, RSV 0 and no stray SUB decodes to its row's instruction once the
row's operand beats are there (R310, R312). -/
theorem decode_of_row {b : Beat} {rest : List Beat} {row : OpcodeRow} {sub : BitVec 8} {i : Instr}
    {n : Nat} (hrow : opcodeRow (opcOf b) = some row) (hlen : row.fmt.operands ≤ rest.length)
    (hsub : subOf b = sub) (hrsv : rsvOf b = 0) (hstray : sub = 0 ∨ opcOf b = 0x30)
    (hi : row.build sub (rest.getD 0 0) (rest.getD 1 0) (rest.getD 2 0) (rest.getD 3 0) = i)
    (hn : 1 + row.fmt.operands = n) : decode (b :: rest) = .instr i n := by
  subst hsub hi hn
  have hok : ¬ (subOf b ≠ 0 ∧ opcOf b ≠ 0x30) := by tauto
  simp only [decode, hrow, if_neg (Nat.not_lt.mpr hlen), if_neg (not_not.mpr hrsv), if_neg hok]

/-- READ_REG's command beat holds the register number above its OPC (R305). -/
theorem readReg_beat_toNat (reg : BitVec 8) :
    ((0x30 : Beat) ||| (reg.setWidth 64 <<< 8)).toNat = reg.toNat * 2 ^ 8 + 0x30 := by
  have hreg := reg.isLt
  rw [← Nat.shiftLeft_eq, Nat.shiftLeft_add_eq_or_of_lt (by decide), Nat.or_comm, BitVec.toNat_or,
    BitVec.toNat_shiftLeft, BitVec.toNat_setWidth_of_le (by decide), Nat.mod_eq_of_lt]
  · rfl
  · rw [Nat.shiftLeft_eq]
    omega

theorem readReg_beat_fields (reg : BitVec 8) :
    opcOf ((0x30 : Beat) ||| (reg.setWidth 64 <<< 8)) = 0x30 ∧
    subOf ((0x30 : Beat) ||| (reg.setWidth 64 <<< 8)) = reg ∧
    rsvOf ((0x30 : Beat) ||| (reg.setWidth 64 <<< 8)) = 0 := by
  have hreg := reg.isLt
  have hbeat := readReg_beat_toNat reg
  refine ⟨?_, BitVec.eq_of_toNat_eq ?_, BitVec.eq_of_toNat_eq ?_⟩
  · rw [opcOf, hbeat]
    omega
  · rw [subOf, BitVec.extractLsb'_toNat, hbeat, Nat.shiftRight_eq_div_pow]
    omega
  · rw [rsvOf, BitVec.extractLsb'_toNat, hbeat, Nat.shiftRight_eq_div_pow]
    change _ = 0
    omega

/-- An encoded packet decodes to its instruction, whatever beats follow (R310, R313). -/
theorem decode_encode_append (i : Instr) (rest : List Beat) :
    decode (encode i ++ rest) = .instr i (encode i).length := by
  cases i with
  | readReg reg =>
    obtain ⟨hopc, hsub, hrsv⟩ := readReg_beat_fields reg
    exact decode_of_row (by rw [hopc]; rfl) (Nat.zero_le _) hsub hrsv (.inr hopc) rfl rfl
  | _ =>
    refine decode_of_row rfl ?_ rfl rfl (.inl rfl) rfl rfl
    simp [Format.operands]

/-! ### The read-only registers -/

/-- Numbers 6 to 255 are outside the register map (R130). -/
theorem readRegister_unmapped (s : State) {reg : BitVec 8} (h : 6 ≤ reg.toNat) :
    readRegister s reg = none := by
  unfold readRegister
  split
  case h_7 => rfl
  all_goals omega

/-- CONFIG as a number, before it is put in a register (R136). -/
def configNat (c : Config) : Nat :=
  pcgModeField c.pcgSeedMode + 2 * b64ModeField c.bounded64Mode +
    2 ^ 8 * tfRedRoundCount c.tfRedRounds + 2 ^ 16 * tfrCtrField c.tfRedCtrBits

/-- The fields of CONFIG fit the bits they have: `2 ^ 5` bounds the round count of 13 or 20. -/
theorem configFields_bounds (c : Config) :
    pcgModeField c.pcgSeedMode < 2 ∧ b64ModeField c.bounded64Mode < 2 ∧
    tfRedRoundCount c.tfRedRounds < 2 ^ 5 ∧ tfrCtrField c.tfRedCtrBits < 2 := by
  refine ⟨?_, ?_, ?_, ?_⟩
  · cases c.pcgSeedMode <;> decide
  · cases c.bounded64Mode <;> decide
  · cases c.tfRedRounds <;> decide
  · cases c.tfRedCtrBits <;> decide

theorem configWord_toNat (c : Config) : (configWord c).toNat = configNat c := by
  obtain ⟨hpcg, hb64, hrounds, hctr⟩ := configFields_bounds c
  rw [configWord, BitVec.toNat_ofNat, ← configNat, Nat.mod_eq_of_lt]
  unfold configNat
  omega

theorem configWord_getLsbD (c : Config) (j : Nat) :
    (configWord c).getLsbD j = true ↔ configNat c / 2 ^ j % 2 = 1 := by
  rw [← BitVec.testBit_toNat, configWord_toNat, Nat.testBit_eq_decide_div_mod_eq, decide_eq_true_eq]

theorem configWord_pcgMode (c : Config) :
    (configWord c).getLsbD 0 = true ↔ c.pcgSeedMode = .twoAfterFold := by
  have hfield : pcgModeField c.pcgSeedMode = 1 ↔ c.pcgSeedMode = .twoAfterFold := by
    cases c.pcgSeedMode <;> decide
  obtain ⟨hpcg, hb64, hrounds, hctr⟩ := configFields_bounds c
  rw [configWord_getLsbD, ← hfield, configNat]
  omega

theorem configWord_b64Mode (c : Config) :
    (configWord c).getLsbD 1 = true ↔ c.bounded64Mode = .compose := by
  have hfield : b64ModeField c.bounded64Mode = 1 ↔ c.bounded64Mode = .compose := by
    cases c.bounded64Mode <;> decide
  obtain ⟨hpcg, hb64, hrounds, hctr⟩ := configFields_bounds c
  rw [configWord_getLsbD, ← hfield, configNat]
  omega

theorem configWord_tfrCtr (c : Config) :
    (configWord c).getLsbD 16 = true ↔ c.tfRedCtrBits = .b256 := by
  have hfield : tfrCtrField c.tfRedCtrBits = 1 ↔ c.tfRedCtrBits = .b256 := by
    cases c.tfRedCtrBits <;> decide
  obtain ⟨hpcg, hb64, hrounds, hctr⟩ := configFields_bounds c
  rw [configWord_getLsbD, ← hfield, configNat]
  omega

theorem configWord_rounds (c : Config) :
    (configWord c).extractLsb' 8 8 = BitVec.ofNat 8 (tfRedRoundCount c.tfRedRounds) := by
  obtain ⟨hpcg, hb64, hrounds, hctr⟩ := configFields_bounds c
  apply BitVec.eq_of_toNat_eq
  rw [BitVec.extractLsb'_toNat, configWord_toNat, configNat, Nat.shiftRight_eq_div_pow,
    BitVec.toNat_ofNat]
  omega

/-- Below bit 8 only the two mode bits are used, and above bit 16 none (R136). -/
theorem configWord_unused (c : Config) {j : Nat} (hj : (1 < j ∧ j < 8) ∨ 16 < j) :
    (configWord c).getLsbD j = false := by
  obtain ⟨hpcg, hb64, hrounds, hctr⟩ := configFields_bounds c
  rw [Bool.eq_false_iff, ne_eq, configWord_getLsbD, configNat]
  obtain ⟨hlow, hhigh⟩ | hhigh := hj
  · interval_cases j <;> omega
  · rw [Nat.div_eq_of_lt]
    · decide
    · have hpow : 2 ^ 17 ≤ 2 ^ j := Nat.pow_le_pow_right (by decide) hhigh
      omega

/-! ### Philox round keys -/

/-- The key of round `r`: `key` with `r` Weyl increments added (R610, R612). -/
def philoxRoundKey (key : Pair 32) (r : Nat) : Pair 32 :=
  ⟨key.k0 + BitVec.ofNat 32 r * philoxW0, key.k1 + BitVec.ofNat 32 r * philoxW1⟩

theorem philoxRoundKey_zero (key : Pair 32) : philoxRoundKey key 0 = key := by
  simp [philoxRoundKey]

theorem add_bump (k w : U32) (r : Nat) :
    k + w + BitVec.ofNat 32 r * w = k + BitVec.ofNat 32 (r + 1) * w := by
  rw [BitVec.ofNat_add, BitVec.add_mul, BitVec.one_mul, BitVec.add_assoc, BitVec.add_comm w]

theorem philoxRoundKey_bump (key : Pair 32) (r : Nat) :
    philoxRoundKey (philoxBump key) r = philoxRoundKey key (r + 1) := by
  simp only [philoxRoundKey, philoxBump, add_bump]

/-- An equation of functions: applied to `c` and `k`, the kernel would evaluate `philoxRound c k`. -/
theorem philoxRounds_succ (r : Nat) :
    philoxRounds (r + 1) = fun c k => philoxRounds r (philoxRound c k) (philoxBump k) := rfl

/-- Bumping the key between the rounds gives each round the key of its number. -/
theorem philoxRounds_eq_foldl (r : Nat) (c : Quad 32) (key : Pair 32) :
    philoxRounds r c key =
      (List.range r).foldl (fun c j => philoxRound c (philoxRoundKey key j)) c := by
  induction r generalizing c key with
  | zero => rfl
  | succ r ih =>
    rw [philoxRounds_succ]
    beta_reduce
    rw [ih, List.range_succ_eq_map, List.foldl_cons, List.foldl_map,
      philoxRoundKey_zero]
    simp only [philoxRoundKey_bump]

/-! ### Counter-based sequences -/

/-- What the counter-based engines have in common: the counter, the buffered block and the word position
(R115, R116). -/
structure BlockState (w : Nat) where
  ctr : Quad w
  buf : Quad w
  pos : Nat

/-- One raw draw over the block function `block` and the counter increment `inc` (R640). -/
def BlockState.draw {w : Nat} (block inc : Quad w → Quad w) (b : BlockState w) :
    BitVec w × BlockState w :=
  if b.pos = 4 then (quadWord (block b.ctr) 0, ⟨inc b.ctr, block b.ctr, 1⟩)
  else (quadWord b.buf b.pos, ⟨b.ctr, b.buf, b.pos + 1⟩)

/-- `k` words are drawn, where `ctrAt v` is the counter after `v` refills: `k / 4` rounded up blocks are
computed, and unless the last is used up, BUF holds it and POS counts its words drawn (R641, R642). -/
def BlockState.Drawn {w : Nat} (block : Quad w → Quad w) (ctrAt : Nat → Quad w) (k : Nat)
    (b : BlockState w) : Prop :=
  b.ctr = ctrAt ((k + 3) / 4) ∧
    if k % 4 = 0 then b.pos = 4 else b.pos = k % 4 ∧ b.buf = block (ctrAt (k / 4))

/-- A draw gives word `k mod 4` of block `k div 4`, computing the block first when POS is 4 (R640). -/
theorem BlockState.drawn_draw {w : Nat} {block inc : Quad w → Quad w} {ctrAt : Nat → Quad w} {k : Nat}
    {b : BlockState w} (hinc : ∀ v, inc (ctrAt v) = ctrAt (v + 1)) (hb : b.Drawn block ctrAt k) :
    (b.draw block inc).1 = quadWord (block (ctrAt (k / 4))) (k % 4) ∧
      (b.draw block inc).2.Drawn block ctrAt (k + 1) := by
  obtain ⟨hctr, hbuf⟩ := hb
  unfold draw Drawn
  by_cases hk : k % 4 = 0
  · rw [if_pos hk] at hbuf
    have hrefill : (k + 3) / 4 = k / 4 := by omega
    have hnext : (k + 1 + 3) / 4 = k / 4 + 1 := by omega
    have hsame : (k + 1) / 4 = k / 4 := by omega
    have hpos : (k + 1) % 4 = 1 := by omega
    rw [if_pos hbuf, hctr, hrefill, hinc, hnext, hsame, hpos, hk]
    exact ⟨rfl, rfl, rfl, rfl⟩
  · rw [if_neg hk] at hbuf
    obtain ⟨hpos, hblock⟩ := hbuf
    have hpos4 : b.pos ≠ 4 := by omega
    have hnext : (k + 1 + 3) / 4 = (k + 3) / 4 := by omega
    rw [if_neg hpos4, hctr, hblock, hpos, hnext]
    refine ⟨rfl, rfl, ?_⟩
    split
    · change k % 4 + 1 = 4
      omega
    · have hsame : (k + 1) / 4 = k / 4 := by omega
      have hword : k % 4 + 1 = (k + 1) % 4 := by omega
      rw [hsame]
      exact ⟨hword, rfl⟩

/-- An engine whose raw draws are those of a block state `b` gives, as draw `k` after `j` draws, word
`(j + k) mod 4` of the block at counter `(j + k) div 4` (R642). -/
theorem wordAt_of_drawn {w : Nat} {block inc : Quad w → Quad w} {ctrAt : Nat → Quad w} {c : Config}
    {engine : BlockState w → Engine} {out : BitVec w → Beat}
    (hdraw : ∀ b, rawDraw c (engine b) = (out (b.draw block inc).1, engine (b.draw block inc).2))
    (hinc : ∀ v, inc (ctrAt v) = ctrAt (v + 1)) (k : Nat) :
    ∀ {j : Nat} {b : BlockState w}, b.Drawn block ctrAt j →
      wordAt c k (engine b) = out (quadWord (block (ctrAt ((j + k) / 4))) ((j + k) % 4)) := by
  induction k with
  | zero =>
    intro j b hb
    rw [wordAt, engineAfter, hdraw, (BlockState.drawn_draw hinc hb).1, Nat.add_zero]
  | succ k ih =>
    intro j b hb
    rw [wordAt, engineAfter, hdraw, ← wordAt, ih (BlockState.drawn_draw hinc hb).2,
      show j + 1 + k = j + (k + 1) by omega]

/-- Right after construction no word is drawn: the counter is `ctrAt 0` and POS is 4 (R630 to R632). -/
theorem wordAt_of_fresh {w : Nat} {block inc : Quad w → Quad w} {ctrAt : Nat → Quad w} {c : Config}
    {engine : BlockState w → Engine} {out : BitVec w → Beat}
    (hdraw : ∀ b, rawDraw c (engine b) = (out (b.draw block inc).1, engine (b.draw block inc).2))
    (hinc : ∀ v, inc (ctrAt v) = ctrAt (v + 1)) (buf : Quad w) (k : Nat) :
    wordAt c k (engine ⟨ctrAt 0, buf, 4⟩) = out (quadWord (block (ctrAt (k / 4))) (k % 4)) := by
  have hfresh : BlockState.Drawn block ctrAt 0 ⟨ctrAt 0, buf, 4⟩ := ⟨rfl, rfl⟩
  rw [wordAt_of_drawn hdraw hinc k hfresh, Nat.zero_add]

/-- The PHILOX engine with key `key` and the rest of its fields in `b`. -/
def philoxOf (key : Pair 32) (b : BlockState 32) : Engine := .philox ⟨b.ctr, key, b.buf, b.pos⟩

theorem rawDraw_philoxOf (c : Config) (key : Pair 32) (b : BlockState 32) :
    rawDraw c (philoxOf key b) = (zext64 (b.draw (philoxBlock · key) incFull).1,
      philoxOf key (b.draw (philoxBlock · key) incFull).2) := by
  by_cases hpos : b.pos = 4
  · simp only [philoxOf, rawDraw, philoxDraw, BlockState.draw, hpos, if_true]
  · simp only [philoxOf, rawDraw, philoxDraw, BlockState.draw, hpos, if_false]

/-- The ThreeFry fields with key `key` and the rest in `b`. -/
def tfOf (key : Quad 64) (b : BlockState 64) : TfState := ⟨b.ctr, key, b.buf, b.pos⟩

theorem tfDraw_tfOf (rounds : Nat) (inc : Quad 64 → Quad 64) (key : Quad 64) (b : BlockState 64) :
    tfDraw rounds inc (tfOf key b) = ((b.draw (threeFryBlock · key rounds) inc).1,
      tfOf key (b.draw (threeFryBlock · key rounds) inc).2) := by
  by_cases hpos : b.pos = 4
  · simp only [tfOf, tfDraw, BlockState.draw, hpos, if_true]
  · simp only [tfOf, tfDraw, BlockState.draw, hpos, if_false]

theorem rawDraw_tf20Of (c : Config) (key : Quad 64) (b : BlockState 64) :
    rawDraw c (.tf20 (tfOf key b)) = ((b.draw (threeFryBlock · key 20) incFull).1,
      .tf20 (tfOf key (b.draw (threeFryBlock · key 20) incFull).2)) := by
  rw [rawDraw, tf20Draw, tfDraw_tfOf]

theorem rawDraw_tfrOf (c : Config) (key : Quad 64) (b : BlockState 64) :
    rawDraw c (.tfr (tfOf key b)) =
      ((b.draw (threeFryBlock · key (tfRedRoundCount c.tfRedRounds)) (incTfr c.tfRedCtrBits)).1,
        .tfr (tfOf key
          (b.draw (threeFryBlock · key (tfRedRoundCount c.tfRedRounds)) (incTfr c.tfRedCtrBits)).2)) := by
  rw [rawDraw, tfrDraw, tfDraw_tfOf]

theorem ofNat_succ (w v : Nat) : BitVec.ofNat w (v + 1) = BitVec.ofNat w v + 1 :=
  BitVec.ofNat_add v 1

/-- A counter word wraps to 0 exactly where it carries into the next word. -/
theorem ofNat_eq_zero_iff_dvd {w v : Nat} : BitVec.ofNat w v = 0 ↔ 2 ^ w ∣ v := by
  change _ = 0#w ↔ _
  rw [← BitVec.toNat_inj, BitVec.toNat_ofNat, BitVec.toNat_ofNat, Nat.zero_mod, Nat.dvd_iff_mod_eq_zero]

/-- The words of a counter by repeated division. -/
theorem ctrOf_eq (w v : Nat) : ctrOf w v =
    ⟨BitVec.ofNat w v, BitVec.ofNat w (v / 2 ^ w), BitVec.ofNat w (v / 2 ^ w / 2 ^ w),
      BitVec.ofNat w (v / 2 ^ w / 2 ^ w / 2 ^ w)⟩ := by
  have htwo : w + w = 2 * w := by omega
  have hthree : 2 * w + w = 3 * w := by omega
  simp only [ctrOf, Nat.div_div_eq_div_mul, ← Nat.pow_add, htwo, hthree]

/-- `Inc` takes the counter of value `v` to that of value `v + 1` (R117, R635). -/
theorem incFull_ctrOf (w v : Nat) : incFull (ctrOf w v) = ctrOf w (v + 1) := by
  simp only [ctrOf_eq, incFull, ← ofNat_succ, ne_eq, ofNat_eq_zero_iff_dvd, ite_not]
  split
  · next h0 =>
    rw [Nat.succ_div_of_dvd h0, ofNat_eq_zero_iff_dvd.mpr h0]
    split
    · next h1 =>
      rw [Nat.succ_div_of_dvd h1, ofNat_eq_zero_iff_dvd.mpr h1]
      split
      · next h2 => rw [Nat.succ_div_of_dvd h2, ofNat_eq_zero_iff_dvd.mpr h2]
      · next h2 => rw [Nat.succ_div_of_not_dvd h2]
    · next h1 => rw [Nat.succ_div_of_not_dvd h1]
  · next h0 => rw [Nat.succ_div_of_not_dvd h0]

/-- The counter of a TFR engine after `v` refills: 64 bits wide, it is word 0 alone (R637). -/
def tfrCtrAt (bits : TfRedCtrBits) (v : Nat) : Quad 64 :=
  match bits with
  | .b64 => ⟨BitVec.ofNat 64 v, 0, 0, 0⟩
  | .b256 => ctrOf 64 v

theorem tfrCtrAt_zero (bits : TfRedCtrBits) : tfrCtrAt bits 0 = quadZero 64 := by
  cases bits <;> rfl

theorem incTfr_tfrCtrAt (bits : TfRedCtrBits) (v : Nat) :
    incTfr bits (tfrCtrAt bits v) = tfrCtrAt bits (v + 1) := by
  cases bits with
  | b64 => simp only [incTfr, tfrCtrAt, ofNat_succ]
  | b256 => exact incFull_ctrOf 64 v

end Sys2Proof.Machine

namespace Sys2Proof.Proofs

open Sys2Proof Sys2Proof.Machine

/-- Settles O56, by the cases of a step: a sampler step by the phase it leaves, a command step by what
the command can do. -/
theorem everyStepKeepsTheInvariant : Obligations.EveryStepKeepsTheInvariant :=
  fun _ _ => step_inv

/-- Settles O16: a step at most ORs an error's bit into STATUS. -/
theorem statusIsSticky : Obligations.StatusIsSticky := by
  intro s t h
  obtain hkept | ⟨e, hored⟩ := step_status h
  · rw [hkept, BitVec.and_self]
  · rw [hored]
    ext j hj
    simpa using Or.inl

/-- Settles O37: the draws of each engine are those of a block state, whose blocks are taken four words
at a time. -/
theorem counterBasedSequenceFromConstruction : Obligations.CounterBasedSequenceFromConstruction := by
  refine ⟨fun c key buf k => ?_, fun c key buf k => ?_, fun c key buf k => ?_⟩
  · exact wordAt_of_fresh (rawDraw_philoxOf c key) (incFull_ctrOf 32) buf k
  · exact wordAt_of_fresh (out := id) (rawDraw_tf20Of c key) (incFull_ctrOf 64) buf k
  · rw [← tfrCtrAt_zero c.tfRedCtrBits]
    exact wordAt_of_fresh (out := id) (rawDraw_tfrOf c key) (incTfr_tfrCtrAt c.tfRedCtrBits) buf k

/-- Settles O38, by induction on the number of rounds. -/
theorem philoxRoundKeysAreRecomputed : Obligations.PhiloxRoundKeysAreRecomputed :=
  fun ctr key => philoxRounds_eq_foldl 10 ctr key

/-- Settles O8: the packet is decoded, and consuming it leaves the beats behind it. -/
theorem stepRunsTheDecodedCommand : Obligations.StepRunsTheDecodedCommand := by
  intro s i rest hready hcmdq
  have hfetch : fetch s = .run i (encode i).length := by
    rw [fetch_ready hready, hcmdq, decode_encode_append]
  have hconsume : consume (encode i).length s =
      { s with cmdq := rest, pos := s.pos + (encode i).length } := by
    rw [consume, hcmdq, List.drop_left]
  rw [step, hfetch, ← hconsume]

/-- Settles O14, from the bits and codes of the four errors. -/
theorem raiseSetsItsBitAndSendsItsCode : Obligations.RaiseSetsItsBitAndSendsItsCode :=
  fun _ => ⟨rfl, rfl, rfl, rfl⟩

/-- Settles O20, by the rows of the register map. -/
theorem readRegisterAnswersTheMap : Obligations.ReadRegisterAnswersTheMap := by
  intro s
  have hkind {slot : Option Engine} {k : Nat} (hk : kindCode (kindOf slot) = k) (h : s.eng = slot) :
      kindCode (kindOf s.eng) = k := h ▸ hk
  refine ⟨rfl, ⟨_, rfl, hkind rfl, ?_⟩, rfl, rfl, rfl, rfl, fun reg hreg => ?_⟩
  · exact ⟨fun _ => hkind rfl, fun _ => hkind rfl, fun _ => hkind rfl, fun _ => hkind rfl,
      fun _ => hkind rfl, fun _ => hkind rfl⟩
  · rw [exec, execReadReg, readRegister_unmapped s hreg]
    rfl

/-- Settles O21, field by field. -/
theorem configRegisterFields : Obligations.ConfigRegisterFields := by
  refine ⟨rfl, fun c => ⟨configWord_pcgMode c, configWord_b64Mode c, ⟨?_, ?_⟩, configWord_tfrCtr c,
    fun j hj => configWord_unused c (by omega)⟩⟩
  · rw [configWord_rounds]
    cases c.tfRedRounds <;> decide
  · rw [configWord_rounds]
    cases c.tfRedRounds <;> decide

/-- Settles O23, by the fields of the reset state. -/
theorem resetDiscardsEverythingButConfiguration :
    Obligations.ResetDiscardsEverythingButConfiguration :=
  fun s => ⟨State.resetWith s.cfg, rfl, resetWith_cfg _, rfl, resetWith_eng _, rfl, resetWith_status _,
    resetWith_smp _, resetWith_cmdq _, resetWith_rspq _, resetWith_rspPend _, resetWith_pos _⟩

end Sys2Proof.Proofs

/-! PROOFS. The family 20_memory.md: the two ports and the host's traffic, the sampler's steps, what each
class of commands leaves unchanged, and the counter-based seeds: O12, O11, O49, O50, O53, O58, O10 and
O39. -/

namespace Sys2Proof.Machine

/-! ### Beats behind the packet at the head of CMDQ -/

/-- A row of the opcode map reads the operand beats of its own format and no other (R302, R310). -/
theorem build_congr {opc : Nat} {row : OpcodeRow} (hrow : opcodeRow opc = some row) (sub : BitVec 8)
    {a b c d a' b' c' d' : Beat} (ha : 0 < row.fmt.operands → a = a')
    (hb : 1 < row.fmt.operands → b = b') (hc : 2 < row.fmt.operands → c = c')
    (hd : 3 < row.fmt.operands → d = d') :
    row.build sub a b c d = row.build sub a' b' c' d' := by
  unfold opcodeRow at hrow
  split at hrow
  all_goals cases hrow
  all_goals simp_all [Format.operands]

/-- Beats that arrive behind a complete packet do not change what the decoder finds (R313). -/
theorem decode_append {queue : List Beat} (more : List Beat) (h : decode queue ≠ .incomplete) :
    decode (queue ++ more) = decode queue := by
  cases queue with
  | nil => exact absurd rfl h
  | cons b rest =>
    rw [List.cons_append]
    cases hrow : opcodeRow (opcOf b) with
    | none => simp only [decode, hrow]
    | some row =>
      have hlen : ¬ rest.length < row.fmt.operands := fun hshort =>
        h (by simp only [decode, hrow, if_pos hshort])
      have hlong : ¬ (rest ++ more).length < row.fmt.operands := by
        rw [List.length_append]
        omega
      have hread (k : Nat) (hk : k < row.fmt.operands) : (rest ++ more).getD k 0 = rest.getD k 0 :=
        List.getD_append rest more 0 k (by omega)
      simp only [decode, hrow, if_neg hlen, if_neg hlong,
        build_congr hrow (subOf b) (hread 0) (hread 1) (hread 2) (hread 3)]

/-- How many beats a move takes off CMDQ (R102, R315). -/
def Fetched.taken : Fetched → Nat
  | .wait | .send | .sample _ => 0
  | .illegal n | .run _ n => n

/-- The four conditions of the unit that its next move depends on. -/
theorem port_cases (s : State) :
    rspFull s = true ∨ (rspFull s = false ∧ s.rspPend ≠ []) ∨
    (∃ r, rspFull s = false ∧ s.rspPend = [] ∧ s.smp = .active r) ∨ s.Ready := by
  by_cases hpend : s.rspPend = []
  · cases hfull : rspFull s with
    | true => exact .inl rfl
    | false =>
      cases hsmp : s.smp with
      | idle => exact .inr (.inr (.inr ⟨hfull, hpend, hsmp⟩))
      | active r => exact .inr (.inr (.inl ⟨r, rfl, hpend, rfl⟩))
  · cases hfull : rspFull s with
    | true => exact .inl rfl
    | false => exact .inr (.inl ⟨rfl, hpend⟩)

/-- A command step consumes no more beats than stand in CMDQ (R315). -/
theorem fetch_taken_le (s : State) : (fetch s).taken ≤ s.cmdq.length := by
  obtain hfull | ⟨hfull, hpend⟩ | ⟨r, hfull, hpend, hsmp⟩ | hready := port_cases s
  · simp [fetch_full hfull, Fetched.taken]
  · simp [fetch_pending hfull hpend, Fetched.taken]
  · simp [fetch_sample hfull hpend hsmp, Fetched.taken]
  · rw [fetch_ready hready]
    cases s.cmdq with
    | nil => exact Nat.le_refl 0
    | cons b rest =>
      obtain ⟨_, hd⟩ | ⟨row, _, ⟨_, hd⟩ | ⟨hlen, ⟨_, hd⟩ | ⟨_, _, _, hd⟩ | ⟨_, _, hd⟩⟩⟩ :=
        decode_cons b rest
      all_goals
        rw [hd]
        simp only [Fetched.taken, List.length_cons]
        omega

/-- Beats that arrive while the unit has a move to make do not change that move (R209). -/
theorem fetch_append {s : State} (more : List Beat) (h : fetch s ≠ .wait) :
    fetch { s with cmdq := s.cmdq ++ more } = fetch s := by
  obtain hfull | ⟨hfull, hpend⟩ | ⟨r, hfull, hpend, hsmp⟩ | ⟨hfull, hpend, hidle⟩ := port_cases s
  · exact absurd (fetch_full hfull) h
  · rw [fetch_pending hfull hpend]
    exact fetch_pending hfull hpend
  · rw [fetch_sample hfull hpend hsmp]
    exact fetch_sample hfull hpend hsmp
  · have hcomplete : decode s.cmdq ≠ .incomplete := fun hinc => by
      rw [fetch_ready ⟨hfull, hpend, hidle⟩, hinc] at h
      exact h rfl
    rw [fetch_ready (s := { s with cmdq := s.cmdq ++ more }) ⟨hfull, hpend, hidle⟩,
      fetch_ready ⟨hfull, hpend, hidle⟩, decode_append more hcomplete]

/-! ### What a move does to the ports -/

/-- The three queues that the host's traffic goes through. -/
structure Ports where
  cmdq : List Beat
  rspq : List Beat
  rspPend : List Beat

/-- `s` with the queues `q` in place of its own. -/
def State.withPorts (s : State) (q : Ports) : State :=
  { s with cmdq := q.cmdq, rspq := q.rspq, rspPend := q.rspPend }

/-- The queues of `s`. -/
def State.ports (s : State) : Ports := ⟨s.cmdq, s.rspq, s.rspPend⟩

/-- The outcome `res` of a unit configured as `c` does not depend on the queues `q` it starts with: it
ends in one and the same state `m` but for the queues, which are `q`, with one and the same response behind
them if it responds; or it stops with one and the same fault. -/
inductive PortFree (c : Config) (res : Ports → Result) : Prop
  | moved (m : State) (hcfg : m.cfg = c) (h : ∀ q, res q = .next (m.withPorts q))
  | responded (m : State) (bs : List Beat) (hcfg : m.cfg = c)
      (h : ∀ q, res q = .next (pushResponse (m.withPorts q) bs))
  | stopped (f : Fault) (h : ∀ q, res q = .fault f)

section
variable {s : State}

theorem failWith_portFree (e : Err) : PortFree s.cfg fun q => failWith e (s.withPorts q) :=
  .responded { s with status := s.status ||| errBit e, smp := .idle } [errCode e] rfl fun _ => rfl

theorem answer_portFree (rs : List Beat) : PortFree s.cfg fun q => answer (s.withPorts q) rs :=
  .responded s (statusOk :: rs) rfl fun _ => rfl

theorem construct_portFree (e : Engine) : PortFree s.cfg fun q => construct e (s.withPorts q) :=
  .responded { s with eng := some e } [statusOk] rfl fun _ => rfl

theorem answerDraw_portFree (r : Beat) (e : Engine) :
    PortFree s.cfg fun q => answerDraw (s.withPorts q) r e :=
  .responded { s with eng := some e } [statusOk, r] rfl fun _ => rfl

theorem start_portFree (b : Bound) (off : Beat) (width : ResultWidth) :
    PortFree s.cfg fun q => start b off width (s.withPorts q) :=
  .moved (s.sampling ⟨b.ph, b.sc, b.lim, off, width⟩) rfl fun _ => rfl

theorem check_portFree {p : Prop} [Decidable p] {e : Err} {res : Ports → Result}
    (h : PortFree s.cfg res) : PortFree s.cfg fun q => if p then failWith e (s.withPorts q) else res q := by
  split
  · exact failWith_portFree e
  · exact h

theorem withEngine_portFree {k : Ports → Engine → Result} (h : ∀ e, PortFree s.cfg fun q => k q e) :
    PortFree s.cfg fun q => withEngine (s.withPorts q) (k q) := by
  cases hslot : s.eng with
  | none =>
    simp only [fun q => withEngine_none (s := s.withPorts q) (k q) hslot]
    exact failWith_portFree .ncon
  | some e =>
    simp only [fun q => withEngine_some (s := s.withPorts q) (k q) hslot]
    exact h e

theorem withU32_portFree {b : Beat} {k : Ports → U32 → Result} (h : ∀ v, PortFree s.cfg fun q => k q v) :
    PortFree s.cfg fun q => withU32 b (s.withPorts q) (k q) := by
  unfold withU32
  split
  · exact failWith_portFree .arg
  · exact h _

theorem withKey32_portFree {k : Ports → List U32 → Result} (h : ∀ key, PortFree s.cfg fun q => k q key) :
    PortFree s.cfg fun q => withKey32 (s.withPorts q) (k q) := by
  have hread : PortFree s.cfg fun q => match key32 s.sb with
      | none => failWith .arg (s.withPorts q)
      | some key => k q key := by
    split
    · exact failWith_portFree .arg
    · exact h _
  exact check_portFree (p := s.sb = []) hread

theorem withKey64_portFree {k : Ports → List U64 → Result} (h : ∀ key, PortFree s.cfg fun q => k q key) :
    PortFree s.cfg fun q => withKey64 (s.withPorts q) (k q) :=
  check_portFree (p := s.sb = []) (h s.sb)

theorem withLength_portFree {n : Beat} {k : Ports → Nat → Result}
    (h : ∀ len, PortFree s.cfg fun q => k q len) :
    PortFree s.cfg fun q => withLength n (s.withPorts q) (k q) :=
  check_portFree (p := s.cfg.ssMaxOut < n.toNat) (h n.toNat)

theorem withArrayLength_portFree {n : Beat} {k : Ports → Nat → Result}
    (h : ∀ len, PortFree s.cfg fun q => k q len) :
    PortFree s.cfg fun q => withArrayLength n (s.withPorts q) (k q) :=
  check_portFree (p := s.cfg.ssMaxOut < n.toNat ∨ n.toNat = 1) (h n.toNat)

/-- NEXT_U64 and the three CANON commands, which answer `f` of a 64-bit word (R455, R465). -/
theorem draw64_portFree (f : Beat → Beat) : PortFree s.cfg fun q => withEngine (s.withPorts q) fun e =>
    answerDraw (s.withPorts q) (f (nextWord64 (s.withPorts q).cfg e).1)
      (nextWord64 (s.withPorts q).cfg e).2 :=
  withEngine_portFree fun e =>
    answerDraw_portFree (f (nextWord64 s.cfg e).1) (nextWord64 s.cfg e).2

theorem readReg_portFree (reg : BitVec 8) : PortFree s.cfg fun q => execReadReg reg (s.withPorts q) := by
  cases hread : readRegister s reg with
  | none =>
    have hfails (q : Ports) : execReadReg reg (s.withPorts q) = failWith .ill (s.withPorts q) := by
      rw [execReadReg, show readRegister (s.withPorts q) reg = none from hread]
    simp only [hfails]
    exact failWith_portFree .ill
  | some v =>
    have hanswers (q : Ports) : execReadReg reg (s.withPorts q) = answer (s.withPorts q) [v] := by
      rw [execReadReg, show readRegister (s.withPorts q) reg = some v from hread]
    simp only [hanswers]
    exact answer_portFree [v]

end

/-- No command reads a port: all that a command does is a function of the other fields (R209, R816). -/
theorem exec_portFree (i : Instr) (s : State) : PortFree s.cfg fun q => exec i (s.withPorts q) := by
  cases i with simp only [exec]
  | nop => exact answer_portFree []
  | seedClear => exact .responded { s with sb := [] } [statusOk] rfl fun _ => rfl
  | seedPush v =>
    exact check_portFree (p := s.sb.length = s.cfg.seedCap)
      (.responded { s with sb := s.sb ++ [v] } [statusOk] rfl fun _ => rfl)
  | ssIgr32 seed n =>
    exact withU32_portFree fun v => withLength_portFree fun len => answer_portFree _
  | ssIgr64 seed n => exact withLength_portFree fun len => answer_portFree _
  | ssIba32 n =>
    refine withKey32_portFree fun key => withArrayLength_portFree fun len => ?_
    split <;> exact answer_portFree _
  | ssIba64 n =>
    refine withKey64_portFree fun key => withArrayLength_portFree fun len => ?_
    split <;> exact answer_portFree _
  | ssSseq32 n => exact withKey32_portFree fun v => withLength_portFree fun len => answer_portFree _
  | mt32Seed seed => exact withU32_portFree fun v => construct_portFree _
  | mt32SeedArray => exact withKey32_portFree fun key => construct_portFree _
  | mt32SeedSeq => exact withKey32_portFree fun v => construct_portFree _
  | mt64Seed seed => exact construct_portFree _
  | mt64SeedArray => exact withKey64_portFree fun key => construct_portFree _
  | pcg32Seed initstate stream => 
    exact check_portFree <| construct_portFree <|
      .pcg32 (pcgWarmUp s.cfg.pcgSeedMode initstate (pcgInc stream))
  | philoxSeed k0 k1 => 
    exact withU32_portFree fun a => withU32_portFree fun b =>
      construct_portFree (.philox (philoxFresh ⟨a, b⟩ s.pos))
  | tf20Seed k0 k1 k2 k3 => exact construct_portFree (.tf20 (tfFresh ⟨k0, k1, k2, k3⟩ s.pos))
  | tfrSeed k0 k1 k2 k3 => exact construct_portFree (.tfr (tfFresh ⟨k0, k1, k2, k3⟩ s.pos))
  | nextU32 =>
    exact withEngine_portFree fun e =>
      answerDraw_portFree (nextWord32 s.cfg e).1 (nextWord32 s.cfg e).2
  | nextU64 => exact draw64_portFree id
  | boundedU32 max =>
    exact withEngine_portFree fun e => withU32_portFree fun m => start_portFree _ _ _
  | boundedU64 max =>
    exact withEngine_portFree fun e => start_portFree (bounded64 s.cfg e max.toNat) _ _
  | rangeU32 min max =>
    exact withEngine_portFree fun e => withU32_portFree fun lo => withU32_portFree fun hi =>
      check_portFree (start_portFree _ _ _)
  | rangeU64 min max =>
    exact withEngine_portFree fun e =>
      check_portFree (start_portFree (bounded64 s.cfg e (max.toNat - min.toNat)) _ _)
  | rangeI32 min max =>
    exact withEngine_portFree fun e => withU32_portFree fun lo => withU32_portFree fun hi =>
      check_portFree (start_portFree _ _ _)
  | rangeI64 min max =>
    exact withEngine_portFree fun e =>
      check_portFree (start_portFree (bounded64 s.cfg e (intOf max - intOf min).toNat) _ _)
  | canon => exact draw64_portFree canonical
  | canonInc => exact draw64_portFree incrementedCanonical
  | canonSym => exact draw64_portFree symmetricCanonical
  | normCanon w => exact answer_portFree _
  | normCanonInc w => exact answer_portFree _
  | normCanonSym w => exact answer_portFree _
  | readReg reg => exact readReg_portFree reg

theorem samplerDecide_portFree (r : Sampler) (d : Nat) (s : State) :
    PortFree s.cfg fun q => .next (samplerDecide r d (s.withPorts q)) := by
  have hfinish (x : Nat) : PortFree s.cfg fun q => .next (finish r x (s.withPorts q)) :=
    .responded { s with smp := .idle } [statusOk, resultBeat r x] rfl fun _ => rfl
  have hgoOn (ph : Phase) : PortFree s.cfg fun q => .next (goOn r ph (s.withPorts q)) :=
    .moved (goOn r ph s) rfl fun _ => rfl
  unfold samplerDecide
  cases r.ph with
  | nat | splLo | cmpLo =>
    dsimp only
    split
    · exact hfinish _
    · exact hgoOn _
  | splHi mx =>
    dsimp only
    split
    · exact hgoOn _
    · exact hgoOn _
  | cmpHi => exact hgoOn _

theorem samplerStep_portFree (r : Sampler) (s : State) :
    PortFree s.cfg fun q => samplerStep r (s.withPorts q) := by
  cases hslot : s.eng with
  | none =>
    refine .stopped .samplerWithoutEngine fun q => ?_
    rw [samplerStep, show (s.withPorts q).eng = none from hslot]
  | some e =>
    have hdraws (q : Ports) : samplerStep r (s.withPorts q) =
        .next (samplerDecide r (rawDraw s.cfg e).1.toNat
          (State.withPorts { s with eng := some (rawDraw s.cfg e).2 } q)) := by
      rw [samplerStep, show (s.withPorts q).eng = some e from hslot]
      rfl
    simp only [hdraws]
    exact samplerDecide_portFree r _ { s with eng := some (rawDraw s.cfg e).2 }

/-- What a move does once its packet, if it has one, is off CMDQ. -/
def Fetched.meaning : Fetched → State → Result
  | .wait, s => .next s
  | .send, s => .next (pushResponse s [])
  | .sample r, s => samplerStep r s
  | .illegal _, s => failWith .ill s
  | .run i _, s => exec i s

theorem step_eq_meaning (s : State) : step s = (fetch s).meaning (consume (fetch s).taken s) := by
  unfold step
  cases fetch s <;> rfl

theorem meaning_portFree (f : Fetched) (s : State) :
    PortFree s.cfg fun q => f.meaning (s.withPorts q) := by
  cases f with
  | wait => exact .moved s rfl fun _ => rfl
  | send => exact .responded s [] rfl fun _ => rfl
  | sample r => exact samplerStep_portFree r s
  | illegal n => exact failWith_portFree .ill
  | run i n => exact exec_portFree i s

/-! ### The host's writes and reads -/

theorem hostWrite_room {s : State} (b : Beat) (h : cmdHasRoom s = true) :
    hostWrite b s = some { s with cmdq := s.cmdq ++ [b] } := by
  rw [hostWrite, if_pos h]

theorem hostWrite_full {s : State} (b : Beat) (h : cmdHasRoom s = false) : hostWrite b s = none := by
  rw [hostWrite, h]
  rfl

theorem hostWrite_eq_some {b : Beat} {s t : State} (h : hostWrite b s = some t) :
    cmdHasRoom s = true ∧ t = { s with cmdq := s.cmdq ++ [b] } := by
  cases hroom : cmdHasRoom s with
  | true => exact ⟨rfl, by simpa [hostWrite_room b hroom] using h.symm⟩
  | false => simp [hostWrite_full b hroom] at h

theorem cmdHasRoom_unbounded {s : State} (h : s.cfg.cmdFifoDepth = none) : cmdHasRoom s = true := by
  rw [cmdHasRoom, h]

theorem cmdHasRoom_bounded {s : State} {d : Nat} (h : s.cfg.cmdFifoDepth = some d) :
    cmdHasRoom s = decide (s.cmdq.length < d) := by
  rw [cmdHasRoom, h]

theorem hostRead_cons {s : State} {b : Beat} {rest : List Beat} (h : s.rspq = b :: rest) :
    hostRead s = some (b, { s with rspq := rest }) := by
  rw [hostRead, h]

theorem hostRead_eq_some {b : Beat} {s t : State} (h : hostRead s = some (b, t)) :
    ∃ rest, s.rspq = b :: rest ∧ t = { s with rspq := rest } := by
  cases hq : s.rspq with
  | nil => simp [hostRead, hq] at h
  | cons b' rest =>
    obtain ⟨rfl, rfl⟩ : b' = b ∧ { s with rspq := rest } = t := by
      simpa [hostRead_cons hq] using h
    exact ⟨rest, rfl, rfl⟩

/-! ### Steps and the host's traffic commute -/

/-- Beats behind CMDQ stay there. -/
theorem PortFree.append {c : Config} {res : Ports → Result} {q : Ports} {t : State}
    (h : PortFree c res) (ht : res q = .next t) (more : List Beat) :
    res { q with cmdq := q.cmdq ++ more } = .next { t with cmdq := t.cmdq ++ more } := by
  cases h with
  | moved m _ h =>
    obtain rfl : m.withPorts q = t := by simpa [h] using ht
    exact h _
  | responded m bs _ h =>
    obtain rfl : pushResponse (m.withPorts q) bs = t := by simpa [h] using ht
    exact h _
  | stopped f h => simp [h] at ht

/-- With an unbounded port a response goes behind the oldest beat, whether or not it has been read. -/
theorem PortFree.read {c : Config} {res : Ports → Result} {q : Ports} {t : State} {b : Beat}
    {rest : List Beat} (h : PortFree c res) (hdepth : c.rspFifoDepth = none)
    (hq : q.rspq = b :: rest) (ht : res q = .next t) :
    ∃ v, hostRead t = some (b, v) ∧ res { q with rspq := rest } = .next v := by
  cases h with
  | moved m _ h =>
    obtain rfl : m.withPorts q = t := by simpa [h] using ht
    exact ⟨_, hostRead_cons hq, h _⟩
  | responded m bs hcfg h =>
    have hpush (p : Ports) : pushResponse (m.withPorts p) bs =
        m.withPorts ⟨p.cmdq, p.rspq ++ (p.rspPend ++ bs), []⟩ :=
      pushResponse_unbounded _ _ (by rw [← hdepth, ← hcfg]; rfl)
    obtain rfl : m.withPorts ⟨q.cmdq, q.rspq ++ (q.rspPend ++ bs), []⟩ = t := by
      simpa [h, hpush] using ht
    refine ⟨_, hostRead_cons (rest := rest ++ (q.rspPend ++ bs)) ?_, (h _).trans (by rw [hpush]; rfl)⟩
    show q.rspq ++ (q.rspPend ++ bs) = _
    rw [hq, List.cons_append]
  | stopped f h => simp [h] at ht

theorem step_append {s t : State} (more : List Beat) (hmove : fetch s ≠ .wait)
    (h : step s = .next t) :
    step { s with cmdq := s.cmdq ++ more } = .next { t with cmdq := t.cmdq ++ more } := by
  rw [step_eq_meaning] at h
  rw [step_eq_meaning, fetch_append more hmove, consume,
    List.drop_append_of_le_length (fetch_taken_le s)]
  exact (meaning_portFree (fetch s) (consume (fetch s).taken s)).append
    (q := (consume (fetch s).taken s).ports) h more

theorem fetch_rspq_of_unbounded {s : State} (hdepth : s.cfg.rspFifoDepth = none) (queued : List Beat) :
    fetch { s with rspq := queued } = fetch s := by
  simp only [fetch, rspFull, hdepth]

theorem step_read {s t u : State} {b : Beat} (hdepth : s.cfg.rspFifoDepth = none)
    (hread : hostRead s = some (b, u)) (h : step s = .next t) :
    ∃ v, hostRead t = some (b, v) ∧ step u = .next v := by
  obtain ⟨rest, hq, rfl⟩ := hostRead_eq_some hread
  rw [step_eq_meaning] at h
  rw [step_eq_meaning, fetch_rspq_of_unbounded hdepth]
  exact (meaning_portFree (fetch s) (consume (fetch s).taken s)).read
    (q := (consume (fetch s).taken s).ports) hdepth hq h

/-! ### Full ports -/

/-- A unit whose RSPQ is full holds (R212; log entry 4). -/
theorem step_full {s : State} (hfull : rspFull s = true) : step s = .next s := by
  rw [step, fetch_full hfull]

/-- With room for one beat in RSPQ, a step moves the oldest waiting beat there (R212; log entry 6). -/
theorem step_one_room {s : State} {b : Beat} {waiting : List Beat} (hpend : s.rspPend = b :: waiting)
    (hdepth : s.cfg.rspFifoDepth = some (s.rspq.length + 1)) :
    step s = .next { s with rspq := s.rspq ++ [b], rspPend := waiting } := by
  have hfull : rspFull s = false := by
    rw [rspFull_bounded hdepth, decide_eq_false (Nat.not_succ_le_self _)]
  have hroom : rspRoom s (b :: waiting).length = 1 := by
    rw [rspRoom_bounded s _ _ hdepth, List.length_cons]
    omega
  rw [step, fetch_pending hfull (by simp [hpend]), pushResponse, List.append_nil, hpend, hroom]
  rfl

/-! ### The invariant under the host's actions -/

theorem hostWrite_inv {s t : State} {b : Beat} (hs : s.Inv) (h : hostWrite b s = some t) : t.Inv := by
  obtain ⟨hroom, rfl⟩ := hostWrite_eq_some h
  refine { hs with cmdqFits := fun d hd => ?_ }
  rw [cmdHasRoom_bounded (s := s) hd, decide_eq_true_eq] at hroom
  simpa using hroom

theorem hostRead_inv {s t : State} {b : Beat} (hs : s.Inv) (h : hostRead s = some (b, t)) :
    t.Inv := by
  obtain ⟨rest, hq, rfl⟩ := hostRead_eq_some h
  refine { hs with rspqFits := fun d hd => ?_ }
  have hfits := hs.rspqFits d hd
  rw [hq, List.length_cons] at hfits
  exact Nat.le_of_succ_le hfits

/-! ### The sampler's steps -/

/-- A unit with room, no response under way and an active sampler draws one raw word and decides by it
(R670, R671). -/
theorem step_sampling {s : State} {r : Sampler} {e : Engine} (hfull : rspFull s = false)
    (hpend : s.rspPend = []) (hactive : s.smp = .active r) (hslot : s.eng = some e) :
    step s = .next (samplerDecide r (rawDraw s.cfg e).1.toNat
      { s with eng := some (rawDraw s.cfg e).2 }) := by
  rw [step, fetch_sample hfull hpend hactive]
  simp only [samplerStep, hslot]

section
variable {r : Sampler} (d : Nat) (s : State)

theorem samplerDecide_nat (h : r.ph = .nat) :
    samplerDecide r d s = if d < r.lim then finish r (d / r.sc) s else goOn r .nat s := by
  simp only [samplerDecide, h]

theorem samplerDecide_splHi {mx : Nat} (h : r.ph = .splHi mx) :
    samplerDecide r d s =
      if d < r.lim then goOn r (.splLo mx (d / r.sc)) s else goOn r (.splHi mx) s := by
  simp only [samplerDecide, h]

theorem samplerDecide_splLo {mx hi : Nat} (h : r.ph = .splLo mx hi) :
    samplerDecide r d s =
      if hi * 2 ^ 32 + d ≤ mx then finish r (hi * 2 ^ 32 + d) s else goOn r (.splHi mx) s := by
  simp only [samplerDecide, h]

theorem samplerDecide_cmpHi (h : r.ph = .cmpHi) : samplerDecide r d s = goOn r (.cmpLo d) s := by
  simp only [samplerDecide, h]

theorem samplerDecide_cmpLo {hi : Nat} (h : r.ph = .cmpLo hi) :
    samplerDecide r d s =
      if hi * 2 ^ 32 + d < r.lim then finish r ((hi * 2 ^ 32 + d) / r.sc) s
      else goOn r .cmpHi s := by
  simp only [samplerDecide, h]

end

theorem goOn_eq_sampling (r : Sampler) (ph : Phase) (s : State) :
    goOn r ph s = s.sampling { r with ph := ph } := rfl

/-- A rejected draw leaves the sampler's registers as they were. -/
theorem goOn_same_phase {r : Sampler} {ph : Phase} {s : State} (hph : r.ph = ph)
    (hactive : s.smp = .active r) : goOn r ph s = s := by
  subst hph
  rw [goOn, ← hactive]

theorem finish_eq (r : Sampler) (x : Nat) (s : State) :
    finish r x s = pushResponse { s with smp := .idle }
      [0, BitVec.ofNat 64 ((r.off.toNat + x) % 2 ^ resultBits r.rw)] := rfl

theorem core_run_succ {s t : State} (h : step s = .next t) (k : Nat) :
    Sys2Proof.core.run (k + 1) s = Sys2Proof.core.run k t := by
  have hcore : Sys2Proof.core.step s = .next t := h
  simp only [Host.Core.run, hcore]

/-- The native loop ends with the first word below the limit, after one draw for each word (R650). -/
theorem run_native_loop {r : Sampler} (hph : r.ph = .nat) (j : Nat) {s : State} {e : Engine}
    (hfull : rspFull s = false) (hpend : s.rspPend = []) (hactive : s.smp = .active r)
    (hslot : s.eng = some e) (hreject : ∀ i, i < j → r.lim ≤ (wordAt s.cfg i e).toNat)
    (haccept : (wordAt s.cfg j e).toNat < r.lim) :
    Sys2Proof.core.run (j + 1) s = .next (finish r ((wordAt s.cfg j e).toNat / r.sc)
      { s with eng := some (engineAfter s.cfg (j + 1) e) }) := by
  induction j generalizing s e with
  | zero =>
    have hbelow : (rawDraw s.cfg e).1.toNat < r.lim := haccept
    have hstep := step_sampling hfull hpend hactive hslot
    rw [samplerDecide_nat _ _ hph, if_pos hbelow] at hstep
    exact core_run_succ hstep 0
  | succ j ih =>
    have habove : ¬ (rawDraw s.cfg e).1.toNat < r.lim := Nat.not_lt.mpr (hreject 0 (Nat.succ_pos j))
    have hstep := step_sampling hfull hpend hactive hslot
    rw [samplerDecide_nat _ _ hph, if_neg habove,
      goOn_same_phase (s := { s with eng := some (rawDraw s.cfg e).2 }) hph hactive] at hstep
    rw [core_run_succ hstep]
    exact ih (s := { s with eng := some (rawDraw s.cfg e).2 }) hfull hpend hactive rfl
      (fun i hi => hreject (i + 1) (Nat.succ_lt_succ hi)) haccept

/-! ### What each class of commands leaves unchanged -/

theorem isRange_of_isConstruction {i : Instr} (h : isConstruction i = true) : isRange i = false := by
  cases i <;> simp_all [isConstruction, isRange]

section
variable {i : Instr} {s t : State} (h : CommandEffect i s t)
include h

theorem CommandEffect.port_frame : t.cfg = s.cfg ∧ t.pos = s.pos ∧ t.cmdq = s.cmdq := by
  cases h with
  | failed | answered | cleared | pushed | constructed | drew | started => exact ⟨rfl, rfl, rfl⟩

theorem CommandEffect.sb_frame (hi : isSeedBuffer i = false) : t.sb = s.sb := by
  cases h with
  | failed | answered | constructed | drew | started => rfl
  | cleared hclear => simp [hclear, isSeedBuffer] at hi
  | pushed v hpush => simp [hpush, isSeedBuffer] at hi

/-- The slot changes only by a construction, or by a draw command that starts no sampler (R207). -/
theorem CommandEffect.eng_frame
    (hi : (isConstruction i = false ∧ isDraw i = false) ∨ isRange i = true) : t.eng = s.eng := by
  cases h with
  | failed | answered | cleared | pushed | started => rfl
  | constructed e hconstr =>
    have hrange := isRange_of_isConstruction hconstr
    simp [hconstr, hrange] at hi
  | drew e e' r hdraw => simp [hdraw] at hi

theorem CommandEffect.smp_frame (hidle : s.smp = .idle) (hi : isRange i = false) : t.smp = s.smp := by
  cases h with
  | failed => exact hidle.symm
  | answered | cleared | pushed | constructed | drew => rfl
  | started e r hrange => simp [hrange] at hi

end

end Sys2Proof.Machine

namespace Sys2Proof.Proofs

open Sys2Proof Sys2Proof.Machine

/-- Settles O12: a move that is open stays the same when more beats stand in CMDQ or one less in an
unbounded RSPQ, and no move reads a queue. -/
theorem stepCommutesWithHostTraffic : Obligations.StepCommutesWithHostTraffic :=
  ⟨fun _ _ more => step_append more, fun _ _ _ _ => step_read⟩

/-- Settles O11, port by port: RSPQ full, RSPQ read once, and CMDQ with and without room. -/
theorem fullPortsHoldUntilThereIsRoom : Obligations.FullPortsHoldUntilThereIsRoom := by
  refine ⟨fun s d hdepth hlen => ?_, fun s first b queued waiting hq hpend hdepth => ?_,
    fun s b => ?_⟩
  · have hfull : rspFull s = true := by rw [rspFull_bounded hdepth, decide_eq_true hlen]
    refine ⟨step_full hfull, fun b t hwrite => step_full ?_⟩
    obtain ⟨_, rfl⟩ := hostWrite_eq_some hwrite
    exact hfull
  · rw [hq, List.length_cons] at hdepth
    refine ⟨hostRead_cons hq, ?_⟩
    exact step_one_room (s := { s with rspq := queued }) hpend hdepth
  · refine ⟨fun hdepth => hostWrite_room b (cmdHasRoom_unbounded hdepth), fun d hdepth =>
      ⟨fun hlt => hostWrite_room b ?_, fun hle => hostWrite_full b ?_⟩⟩
    · rw [cmdHasRoom_bounded hdepth, decide_eq_true hlt]
    · rw [cmdHasRoom_bounded hdepth, decide_eq_false (Nat.not_lt.mpr hle)]

/-- Settles O49, phase by phase: the sampler step's decision, with `accept` as `finish` and a rejection
in the same phase as no change beyond the draw. -/
theorem samplerStepFollowsItsPhase : Obligations.SamplerStepFollowsItsPhase := by
  rintro s r e d drawn accept hfull hpend hactive hslot rfl hdrawn haccept
  have hfinish (x : Nat) : finish r x drawn = accept x := (finish_eq r x drawn).trans (haccept x).symm
  have hreject {ph : Phase} (hph : r.ph = ph) : goOn r ph drawn = drawn :=
    goOn_same_phase hph (by rw [hdrawn, hactive])
  rw [step_sampling hfull hpend hactive hslot, ← hdrawn]
  refine ⟨fun hph => ?_, fun mx hph => ?_, fun mx hi hph => ?_, fun hph => ?_, fun hi hph => ?_⟩
  · rw [samplerDecide_nat _ _ hph, hfinish, hreject hph]
  · rw [samplerDecide_splHi _ _ hph, hreject hph, goOn_eq_sampling]
  · rw [samplerDecide_splLo _ _ hph, hfinish, goOn_eq_sampling]
  · rw [samplerDecide_cmpHi _ _ hph, goOn_eq_sampling]
  · rw [samplerDecide_cmpLo _ _ hph, hfinish, goOn_eq_sampling]

/-- Settles O50, by induction on the number of rejected words. -/
theorem nativeLoopAnswersTheFirstAcceptedDraw : Obligations.NativeLoopAnswersTheFirstAcceptedDraw := by
  intro s r e j hfull hpend hactive hph hslot hreject haccept
  exact run_native_loop hph j hfull hpend hactive hslot hreject haccept

/-- Settles O53, by the effects that a command can have. -/
theorem commandsChangeOnlyTheirOwnState : Obligations.CommandsChangeOnlyTheirOwnState := by
  intro i s t hidle hexec
  have heffect := exec_next hexec
  obtain ⟨hcfg, hpos, hcmdq⟩ := heffect.port_frame
  exact ⟨hcfg, hpos, hcmdq, heffect.sb_frame,
    fun hconstr hdraw => heffect.eng_frame (.inl ⟨hconstr, hdraw⟩),
    fun hrange => heffect.eng_frame (.inr hrange), heffect.smp_frame hidle⟩

/-- Settles O58: a write needs room, a read shortens RSPQ, and reset keeps the legal configuration. -/
theorem hostActionsKeepTheInvariant : Obligations.HostActionsKeepTheInvariant :=
  fun _ _ _ hs => ⟨hostWrite_inv hs, hostRead_inv hs, resetWith_inv hs.cfgLegal⟩

/-- Settles O10, from the stream of the response port and the room it has. -/
theorem responsePortKeepsOrderAndDepth : Obligations.ResponsePortKeepsOrderAndDepth := by
  intro s bs
  refine ⟨_, rfl, pushResponse_stream s bs, ⟨_, pushResponse_rspq s bs⟩, fun hdepth => ?_,
    fun d hdepth hfits => ?_, rfl⟩
  · rw [pushResponse_unbounded s bs hdepth]
  · rw [pushResponse_rspq, pushResponse_rspPend, List.length_append, List.length_take,
      rspRoom_bounded s _ d hdepth]
    refine ⟨by omega, fun hwaits => ?_⟩
    have hover := List.length_pos_of_ne_nil hwaits
    rw [List.length_drop] at hover
    omega

/-- Settles O39: the operands are narrow or need no check, and the construction is the fresh engine. -/
theorem counterBasedSeedsLoadTheKey : Obligations.CounterBasedSeedsLoadTheKey := by
  refine fun k0 k1 k2 k3 s => ⟨fun h0 h1 => ⟨Config.freeBuf32 s.pos, ?_⟩,
    ⟨Config.freeBuf64 s.pos, rfl⟩, ⟨Config.freeBuf64 s.pos, rfl⟩⟩
  rw [exec, execPhiloxSeed, withU32_narrow _ _ h0, withU32_narrow _ _ h1]
  rfl

end Sys2Proof.Proofs

/-! PROOFS. The family 30_encoding.md: the fields of the command beat, what a ready unit does with the
beats at the head of CMDQ, the operands the assembler makes, and how every command ends: O1, O2, O3, O4,
O5, O7, O9, O15, O6 and O22. -/

namespace Sys2Proof.Machine

/-! ### The command beat and its fields -/

/-- The command beat with OPC `opc`, SUB `sub` and RSV 0 (R301). -/
def commandBeat (opc : Nat) (sub : BitVec 8) : Beat := BitVec.ofNat 64 opc ||| (sub.setWidth 64 <<< 8)

theorem commandBeat_toNat {opc : Nat} (sub : BitVec 8) (hopc : opc < 2 ^ 8) :
    (commandBeat opc sub).toNat = sub.toNat * 2 ^ 8 + opc := by
  have hsub := sub.isLt
  have hfits : sub.toNat * 2 ^ 8 < 2 ^ 64 := by omega
  rw [commandBeat, BitVec.toNat_or, BitVec.toNat_shiftLeft, BitVec.toNat_setWidth_of_le (by decide),
    BitVec.toNat_ofNat, Nat.shiftLeft_eq, Nat.mod_eq_of_lt hfits, Nat.mod_eq_of_lt (by omega),
    Nat.or_comm, ← Nat.shiftLeft_eq, Nat.shiftLeft_add_eq_or_of_lt hopc]

theorem opcOf_eq (b : Beat) : opcOf b = b.toNat % 2 ^ 8 := rfl

theorem subOf_toNat (b : Beat) : (subOf b).toNat = b.toNat / 2 ^ 8 % 2 ^ 8 := by
  rw [subOf, BitVec.extractLsb'_toNat, Nat.shiftRight_eq_div_pow]

theorem rsvOf_toNat (b : Beat) : (rsvOf b).toNat = b.toNat / 2 ^ 16 := by
  have hb := b.isLt
  rw [rsvOf, BitVec.extractLsb'_toNat, Nat.shiftRight_eq_div_pow]
  omega

theorem subOf_eq_zero_iff (b : Beat) : subOf b = 0 ↔ b.toNat / 2 ^ 8 % 2 ^ 8 = 0 := by
  rw [← BitVec.toNat_inj, subOf_toNat]
  rfl

theorem rsvOf_eq_zero_iff (b : Beat) : rsvOf b = 0 ↔ b.toNat / 2 ^ 16 = 0 := by
  rw [← BitVec.toNat_inj, rsvOf_toNat]
  rfl

/-- OPC, SUB and RSV are the whole command beat: no bit is outside them (R301). -/
theorem eq_commandBeat_of_rsv {b : Beat} (hrsv : rsvOf b = 0) : b = commandBeat (opcOf b) (subOf b) := by
  rw [rsvOf_eq_zero_iff] at hrsv
  have hopc : opcOf b < 2 ^ 8 := Nat.mod_lt _ (by decide)
  apply BitVec.eq_of_toNat_eq
  rw [commandBeat_toNat _ hopc, subOf_toNat, opcOf_eq]
  omega

/-! ### Rows of the opcode map -/

/-- The packet of a row's instruction is its command beat and the row's operand beats (R302, R310). SUB
is 0 outside READ_REG (R312). -/
theorem encode_build {opc : Nat} {row : OpcodeRow} (hrow : opcodeRow opc = some row) {sub : BitVec 8}
    (hstray : sub = 0 ∨ opc = 0x30) (a b c d : Beat) :
    encode (row.build sub a b c d) = commandBeat opc sub :: [a, b, c, d].take row.fmt.operands := by
  unfold opcodeRow at hrow
  split at hrow
  case h_32 =>
    cases hrow
    rfl
  case h_33 => cases hrow
  all_goals
    cases hrow
    obtain rfl : sub = 0 := hstray.resolve_right (by decide)
    rfl

/-- No format has more than four operand beats (R302). -/
theorem operands_le (f : Format) : f.operands ≤ 4 := by
  cases f <;> decide

/-- The decoder's reads of the operand beats, as far as a packet goes, are those beats. -/
theorem take_getD_four {rest : List Beat} {k : Nat} (hk : k ≤ 4) (hlen : k ≤ rest.length) :
    [rest.getD 0 0, rest.getD 1 0, rest.getD 2 0, rest.getD 3 0].take k = rest.take k := by
  apply List.ext_getElem
  · simp only [List.length_take, List.length_cons, List.length_nil]
    omega
  · intro j hj _
    have hjk : j < k := (List.length_take_le _ _).trans_lt' hj
    rw [List.getElem_take, List.getElem_take, ← List.getD_eq_getElem _ 0 (hjk.trans_le hlen)]
    obtain rfl | rfl | rfl | rfl : j = 0 ∨ j = 1 ∨ j = 2 ∨ j = 3 := by omega
    all_goals rfl

theorem packetLength_assigned {opc : Nat} {row : OpcodeRow} (h : opcodeRow opc = some row) :
    packetLength opc = 1 + row.fmt.operands := by
  simp only [packetLength, h]

theorem packetLength_unassigned {opc : Nat} (h : opcodeRow opc = none) : packetLength opc = 1 := by
  simp only [packetLength, h]

/-! ### What the decoder finds -/

/-- Beats that decode to an instruction begin with that instruction's packet (R310, R312). -/
theorem encode_of_decode {bs : List Beat} {i : Instr} {n : Nat} (h : decode bs = .instr i n) :
    n ≤ bs.length ∧ encode i = bs.take n := by
  cases bs with
  | nil => cases h
  | cons b rest =>
    obtain ⟨_, hd⟩ | ⟨row, hrow, ⟨_, hd⟩ | ⟨hlen, ⟨_, hd⟩ | ⟨_, _, _, hd⟩ | ⟨hrsv, hstray, hd⟩⟩⟩ :=
      decode_cons b rest
    case inr.inr.inr.inr =>
      rw [hd] at h
      cases h
      refine ⟨by rw [List.length_cons]; omega, ?_⟩
      rw [encode_build hrow hstray, ← eq_commandBeat_of_rsv hrsv, take_getD_four (operands_le _) hlen,
        Nat.add_comm, List.take_succ_cons]
    all_goals
      rw [hd] at h
      cases h

/-- What the decoder finds is a packet of the length that OPC calls for, or too few beats for one (R313,
R315). -/
theorem decode_length (b : Beat) (rest : List Beat) :
    (rest.length + 1 < packetLength (opcOf b) ∧ decode (b :: rest) = .incomplete) ∨
    (packetLength (opcOf b) ≤ rest.length + 1 ∧
      ((∃ why, decode (b :: rest) = .illegal why (packetLength (opcOf b))) ∨
       (∃ i, decode (b :: rest) = .instr i (packetLength (opcOf b))))) := by
  obtain ⟨hrow, hd⟩ | ⟨row, hrow, ⟨hlen, hd⟩ | ⟨hlen, hcase⟩⟩ := decode_cons b rest
  · rw [packetLength_unassigned hrow]
    exact .inr ⟨by omega, .inl ⟨_, hd⟩⟩
  · rw [packetLength_assigned hrow]
    exact .inl ⟨by omega, hd⟩
  · rw [packetLength_assigned hrow]
    refine .inr ⟨by omega, ?_⟩
    obtain ⟨_, hd⟩ | ⟨_, _, _, hd⟩ | ⟨_, _, hd⟩ := hcase
    · exact .inl ⟨_, hd⟩
    · exact .inl ⟨_, hd⟩
    · exact .inr ⟨_, hd⟩

/-- A complete packet of an assigned OPC with RSV not 0, or with a stray SUB, is illegal as a whole
(R312). -/
theorem decode_malformed {b : Beat} {rest : List Beat} {row : OpcodeRow}
    (hrow : opcodeRow (opcOf b) = some row) (hlen : row.fmt.operands ≤ rest.length)
    (hbad : rsvOf b ≠ 0 ∨ (subOf b ≠ 0 ∧ opcOf b ≠ 0x30)) :
    ∃ why, decode (b :: rest) = .illegal why (1 + row.fmt.operands) := by
  obtain ⟨hnone, _⟩ | ⟨row', hrow', ⟨hshort, _⟩ | ⟨_, ⟨_, hd⟩ | ⟨_, _, _, hd⟩ | ⟨hrsv, hok, _⟩⟩⟩ :=
    decode_cons b rest
  · rw [hrow] at hnone
    cases hnone
  all_goals
    rw [hrow] at hrow'
    cases hrow'
  · omega
  · exact ⟨_, hd⟩
  · exact ⟨_, hd⟩
  · tauto

/-- An unassigned OPC is an illegal packet of one beat (R311). -/
theorem decode_unassigned {b : Beat} (rest : List Beat) (h : opcodeRow (opcOf b) = none) :
    decode (b :: rest) = .illegal .unassignedOpcode 1 := by
  simp only [decode, h]

/-! ### The step of a ready unit -/

/-- A ready unit consumes an illegal packet and raises IllegalCommand (R311, R312). -/
theorem step_illegal {s : State} {why : Reject} {n : Nat} (hready : s.Ready)
    (hd : decode s.cmdq = .illegal why n) : step s = .next (raise .ill (consume n s)) := by
  have hfetch : fetch s = .illegal n := by rw [fetch_ready hready, hd]
  rw [step, hfetch]

/-- A ready unit waits while no packet is complete (R315, R810). -/
theorem step_incomplete {s : State} (hready : s.Ready) (hd : decode s.cmdq = .incomplete) :
    step s = .next s := by
  have hfetch : fetch s = .wait := by rw [fetch_ready hready, hd]
  rw [step, hfetch]

/-! ### The assembler's operands -/

/-- The operand kinds whose beats have bits [63:32] = 0 (R203, R303). -/
def AsmKind.narrow : AsmKind → Bool
  | .u32 | .i32 => true
  | .u64 | .i64 | .count | .reg => false

theorem isU32_ofNat {v : Nat} (h : v < 2 ^ 32) : Beat.IsU32 (BitVec.ofNat 64 v) :=
  (Nat.mod_le _ _).trans_lt h

/-- A value that an operand of a narrow kind takes is a 32-bit pattern (R316). -/
theorem asmBeat_isU32 {kind : AsmKind} (hkind : kind.narrow = true) {negative : Bool} {v : Nat}
    {b : Beat} (h : asmBeat kind negative v = some b) : Beat.IsU32 b := by
  cases kind with
  | u64 | i64 | count | reg => cases hkind
  | u32 =>
    obtain ⟨⟨_, hv⟩, rfl⟩ : (negative = false ∧ v < 2 ^ 32) ∧ BitVec.ofNat 64 v = b := by
      simpa [asmBeat] using h
    exact isU32_ofNat hv
  | i32 =>
    cases negative with
    | true =>
      obtain ⟨_, rfl⟩ : v ≤ 2 ^ 31 ∧ BitVec.ofNat 64 ((2 ^ 32 - v) % 2 ^ 32) = b := by
        simpa [asmBeat] using h
      exact isU32_ofNat (Nat.mod_lt _ (by decide))
    | false =>
      obtain ⟨hv, rfl⟩ : v < 2 ^ 31 ∧ BitVec.ofNat 64 v = b := by simpa [asmBeat] using h
      exact isU32_ofNat (by omega)

theorem asmOperand_isU32 {kind : AsmKind} (hkind : kind.narrow = true) {text : List Char} {b : Beat}
    (h : asmOperand kind text = some b) : Beat.IsU32 b := by
  have hnumber {negative : Bool} {digits : List Char}
      (hn : (asmNat digits).bind (asmBeat kind negative) = some b) : Beat.IsU32 b := by
    obtain ⟨v, _, hv⟩ := Option.bind_eq_some_iff.mp hn
    exact asmBeat_isU32 hkind hv
  unfold asmOperand at h
  cases kind with
  | u64 | i64 | count | reg => cases hkind
  | u32 | i32 =>
    dsimp only at h
    split at h
    · exact hnumber h
    · exact hnumber h

/-- Each operand of a narrow kind is a 32-bit pattern. -/
theorem asmOperands_isU32 {kinds : List AsmKind} {fields : List (List Char)} {bs : List Beat}
    (h : asmOperands kinds fields = some bs) (j : Nat)
    (hj : (kinds[j]?).any AsmKind.narrow = true) : Beat.IsU32 (bs.getD j 0) := by
  induction kinds generalizing fields bs j with
  | nil => simp at hj
  | cons kind kinds ih =>
    cases fields with
    | nil => cases h
    | cons field fields =>
      rw [asmOperands] at h
      split at h
      · next b bs' hb hbs =>
        cases h
        cases j with
        | zero => exact asmOperand_isU32 (by simpa using hj) hb
        | succ j => exact ih hbs j (by simpa using hj)
      · cases h

/-! ### Operand kinds of the opcode map -/

/-- The OPC values whose first operand is a `u32` or an `i32` (R310). -/
def narrowFirst : List Nat := [0x08, 0x10, 0x1C, 0x22, 0x24, 0x26]

/-- The OPC values whose second operand is a `u32` or an `i32` (R310). -/
def narrowSecond : List Nat := [0x1C, 0x24, 0x26]

/-- A row's instruction is well formed once the narrow operands of its OPC are 32-bit patterns. -/
theorem wellFormed_build {opc : Nat} {row : OpcodeRow} (hrow : opcodeRow opc = some row) (sub : BitVec 8)
    {a b : Beat} (c d : Beat) (ha : opc ∈ narrowFirst → Beat.IsU32 a)
    (hb : opc ∈ narrowSecond → Beat.IsU32 b) : (row.build sub a b c d).wellFormed = true := by
  unfold opcodeRow at hrow
  split at hrow
  all_goals cases hrow
  all_goals simp_all [Instr.wellFormed, narrowFirst, narrowSecond]

/-- The assembler's table gives a narrow kind to every narrow operand (R310, R316). -/
theorem asmTable_narrow : ∀ r ∈ asmTable,
    (r.2.1 ∈ narrowFirst → (r.2.2[0]?).any AsmKind.narrow = true) ∧
    (r.2.1 ∈ narrowSecond → (r.2.2[1]?).any AsmKind.narrow = true) := by
  decide

/-! ### The assembler's commands -/

/-- Every command of the list has operands of its kinds (R316). -/
def AllWellFormed (is : List Instr) : Prop := ∀ i ∈ is, i.wellFormed = true

theorem asmCommand_wellFormed {name : List Char} {fields : List (List Char)} {i : Instr}
    (h : asmCommand name fields = some i) : i.wellFormed = true := by
  unfold asmCommand at h
  split at h
  · cases h
  · next entry opc kinds hfind =>
    obtain ⟨hfirst, hsecond⟩ := asmTable_narrow _ (List.mem_of_find?_eq_some hfind)
    split at h
    · next row bs hrow hbs =>
      cases h
      exact wellFormed_build hrow _ _ _ (fun hopc => asmOperands_isU32 hbs 0 (hfirst hopc))
        (fun hopc => asmOperands_isU32 hbs 1 (hsecond hopc))
    · cases h

theorem asmCommand_single_wellFormed {name : List Char} {fields : List (List Char)} {is : List Instr}
    (h : (asmCommand name fields).map ([·]) = some is) : AllWellFormed is := by
  obtain ⟨i, hi, rfl⟩ := Option.map_eq_some_iff.mp h
  simpa [AllWellFormed] using asmCommand_wellFormed hi

theorem asmSeedLoad_wellFormed {fields : List (List Char)} {is : List Instr}
    (h : asmSeedLoad fields = some is) : AllWellFormed is := by
  unfold asmSeedLoad at h
  split at h
  · cases h
  · obtain ⟨bs, _, rfl⟩ := Option.map_eq_some_iff.mp h
    simp [AllWellFormed, Instr.wellFormed]

/-- A seed load followed by a construction (R317). -/
theorem asmSeedLoad_append_wellFormed {fields : List (List Char)} {last : Instr}
    (hlast : last.wellFormed = true) {is : List Instr}
    (h : (asmSeedLoad fields).map (· ++ [last]) = some is) : AllWellFormed is := by
  obtain ⟨load, hload, rfl⟩ := Option.map_eq_some_iff.mp h
  exact List.forall_mem_append.mpr ⟨asmSeedLoad_wellFormed hload, by simpa using hlast⟩

theorem asmExpand_wellFormed {name : List Char} {fields : List (List Char)} {is : List Instr}
    (h : asmExpand name fields = some is) : AllWellFormed is := by
  unfold asmExpand at h
  split_ifs at h
  · exact asmSeedLoad_wellFormed h
  · exact asmSeedLoad_append_wellFormed rfl h
  · exact asmSeedLoad_append_wellFormed rfl h
  · exact asmSeedLoad_append_wellFormed rfl h
  · exact asmCommand_single_wellFormed h
  · exact asmCommand_single_wellFormed h
  · exact asmCommand_single_wellFormed h

theorem asmLine_wellFormed {line : List Char} {is : List Instr} (h : asmLine line = some is) :
    AllWellFormed is := by
  unfold asmLine at h
  dsimp only at h
  split at h
  · cases h
    exact List.forall_mem_nil _
  · exact asmExpand_wellFormed h

/-! ### Result counts -/

/-- A construction answers no result beat (R310). -/
theorem resultCount_of_isConstruction {i : Instr} (h : isConstruction i = true) : resultCount i = 0 := by
  cases i <;> simp_all [isConstruction, resultCount]

/-- A draw command answers one result beat (R310). -/
theorem resultCount_of_isDraw {i : Instr} (h : isDraw i = true) : resultCount i = 1 := by
  cases i <;> simp_all [isDraw, resultCount]

/-- How a command that meets an idle sampler can end: with an error and nothing more, with an OK response
of as many result beats as R310 gives, or with the sampler started and nothing sent. -/
theorem CommandEffect.outcome {i : Instr} {s t : State} (h : CommandEffect i s t)
    (hidle : s.smp = .idle) :
    (∃ e, t = raise e s) ∨
    (t.smp = .idle ∧ t.status = s.status ∧ ∃ rs, rs.length = resultCount i ∧
      t.rspq ++ t.rspPend = s.rspq ++ s.rspPend ++ (0 :: rs)) ∨
    (isRange i = true ∧ t.smp ≠ .idle ∧ { t with smp := s.smp } = s) := by
  cases h with
  | failed e => exact .inl ⟨e, rfl⟩
  | answered rs hcount => exact .inr (.inl ⟨hidle, rfl, rs, hcount, respond_stream _ _⟩)
  | cleared hi => exact .inr (.inl ⟨hidle, rfl, [], by rw [hi]; rfl, respond_stream _ _⟩)
  | pushed v hi => exact .inr (.inl ⟨hidle, rfl, [], by rw [hi]; rfl, respond_stream _ _⟩)
  | constructed e hi =>
    exact .inr (.inl ⟨hidle, rfl, [], (resultCount_of_isConstruction hi).symm, respond_stream _ _⟩)
  | drew e e' r hi =>
    exact .inr (.inl ⟨hidle, rfl, [r], (resultCount_of_isDraw hi.1).symm, respond_stream _ _⟩)
  | started e r hi => exact .inr (.inr ⟨hi, by simp, rfl⟩)

end Sys2Proof.Machine

namespace Sys2Proof.Proofs

open Sys2Proof Sys2Proof.Machine

/-- Settles O1, by the constructor of the command: READ_REG's beat by its fields, every other packet by
its row of the opcode map. -/
theorem decodeOfEncodeIsTheInstruction : Obligations.DecodeOfEncodeIsTheInstruction :=
  decode_encode_append

/-- Settles O2: the decoder accepts only RSV 0 and no stray SUB, so that OPC and SUB give the whole
command beat, and the row's operands are the beats behind it. -/
theorem encodeOfDecodeIsThePacket : Obligations.EncodeOfDecodeIsThePacket :=
  fun _ _ _ => encode_of_decode

/-- Settles O3: the decoder's answer for an unassigned OPC, and the count over all 256 values. -/
theorem unassignedOpcodeConsumesOneBeatAndIsIllegal :
    Obligations.UnassignedOpcodeConsumesOneBeatAndIsIllegal := by
  refine ⟨fun s b rest hready hcmdq hrow => ?_, by decide +kernel, by decide +kernel⟩
  rw [step_illegal hready (hcmdq ▸ decode_unassigned rest hrow), consume, hcmdq, List.drop_one,
    List.tail_cons]

/-- Settles O4, with RSV and SUB read as numbers. -/
theorem malformedCommandConsumesItsPacketAndIsIllegal :
    Obligations.MalformedCommandConsumesItsPacketAndIsIllegal := by
  intro s b rest row hready hcmdq hrow hlen hbad
  have hfields : rsvOf b ≠ 0 ∨ (subOf b ≠ 0 ∧ opcOf b ≠ 0x30) := by
    simpa only [ne_eq, rsvOf_eq_zero_iff, subOf_eq_zero_iff, opcOf_eq] using hbad
  obtain ⟨why, hd⟩ := decode_malformed hrow hlen hfields
  rw [step_illegal hready (hcmdq ▸ hd), consume, hcmdq, Nat.add_comm 1, List.drop_succ_cons]

/-- Settles O5: the three answers of the decoder exclude each other. -/
theorem packetLengthComesFromOpcAlone : Obligations.PacketLengthComesFromOpcAlone := by
  intro b rest
  rw [← opcOf_eq]
  obtain ⟨hlen, hd⟩ | ⟨hlen, ⟨why, hd⟩ | ⟨i, hd⟩⟩ := decode_length b rest
  all_goals rw [hd]
  · exact ⟨⟨fun _ => hlen, fun _ => rfl⟩, nofun, nofun⟩
  · exact ⟨⟨nofun, fun hshort => absurd hlen (Nat.not_le.mpr hshort)⟩, fun | _, _, rfl => rfl, nofun⟩
  · exact ⟨⟨nofun, fun hshort => absurd hlen (Nat.not_le.mpr hshort)⟩, nofun, fun | _, _, rfl => rfl⟩

/-- Settles O7, from the operands' kinds in the assembler's table. -/
theorem assembledCommandsAreWellFormed : Obligations.AssembledCommandsAreWellFormed :=
  fun _ _ => asmLine_wellFormed

/-- Settles O9: with too few beats for the packet that OPC calls for, or none, the decoder finds no
packet. -/
theorem partialPacketHasNoEffect : Obligations.PartialPacketHasNoEffect := by
  intro s hready hshort
  refine step_incomplete hready ?_
  cases hcmdq : s.cmdq with
  | nil => rfl
  | cons b rest =>
    have hlen := hshort b rest hcmdq
    rw [hcmdq, List.length_cons] at hlen
    exact (packetLengthComesFromOpcAlone b rest).1.mpr hlen

/-- Settles O15, by the effects that a command can have. -/
theorem everyCommandFailsCleanlyOrSucceeds : Obligations.EveryCommandFailsCleanlyOrSucceeds := by
  intro i s hidle
  obtain ⟨t, hexec, heffect⟩ := exec_effect i s
  exact ⟨t, hexec, heffect.outcome hidle⟩

/-- Settles O6: each list of words is the packet of its command. -/
theorem writtenWordsDecode : Obligations.WrittenWordsDecode :=
  ⟨decode_encode_append .nop [], decode_encode_append (.seedPush 0x123) [],
    decode_encode_append (.pcg32Seed 0x2A 0x36) [], decode_encode_append (.tf20Seed 1 2 3 4) [],
    decode_encode_append (.rangeI32 0xFFFFFFFD 3) [], decode_encode_append (.readReg 5) []⟩

/-- Settles O22: NOP is an OK response without result beats. -/
theorem nopAnswersOkAndChangesNothing : Obligations.NopAnswersOkAndChangesNothing :=
  fun _ => rfl

end Sys2Proof.Proofs

/-! PROOFS. The family 40_seedseq.md: the words of the seed sequences, what the checks pass on, the
SeedSequence commands and the Mersenne Twister constructions: O25, O26, O27, O28, O32 and O33. -/

namespace Sys2Proof.Machine

/-! ### InitGenRand, word by word -/

/-- Behind the word `S[i-1] = prev`, each word of the list is the recurrence's next one. -/
theorem rd_cons_igrFrom {w : Nat} (p : IgrParams w) (prev : BitVec w) (i : Nat) {k j : Nat} (hj : j < k) :
    rd (prev :: igrFrom p prev i k) (j + 1) = igrNext p (rd (prev :: igrFrom p prev i k) j) (i + j) := by
  induction k generalizing prev i j with
  | zero => exact absurd hj (Nat.not_lt_zero j)
  | succ k ih =>
    cases j with
    | zero => rfl
    | succ j =>
      rw [← Nat.succ_add_eq_add_succ i j]
      exact ih (igrNext p prev i) (i + 1) (Nat.lt_of_succ_lt_succ hj)

theorem rd_initGenRand_zero {w : Nat} (p : IgrParams w) (seed : BitVec w) {n : Nat} (hn : 0 < n) :
    rd (initGenRand p seed n) 0 = seed := by
  cases n with
  | zero => exact absurd hn (Nat.lt_irrefl 0)
  | succ n => rfl

/-- The recurrence of R405 and R406. -/
theorem rd_initGenRand {w : Nat} (p : IgrParams w) (seed : BitVec w) {n i : Nat} (hpos : 0 < i)
    (hi : i < n) :
    rd (initGenRand p seed n) i = igrNext p (rd (initGenRand p seed n) (i - 1)) i := by
  obtain ⟨j, rfl⟩ : ∃ j, i = j + 1 := ⟨i - 1, by omega⟩
  obtain ⟨m, rfl⟩ : ∃ m, n = m + 1 := ⟨n - 1, by omega⟩
  have hstep := rd_cons_igrFrom p seed 1 (Nat.lt_of_succ_lt_succ hi)
  rwa [Nat.add_comm 1 j] at hstep

/-! ### InitByArray's first word -/

/-- InitByArray ends by writing TOP over word 0 (R407). -/
theorem rd_initByArray_zero {w : Nat} (p : IbaParams w) (key : List (BitVec w)) {n : Nat} (hn : 0 < n) :
    rd (initByArray p key n) 0 = p.top := by
  have hlen := initByArray_length p key n
  rw [initByArray, wr_length] at hlen
  exact rd_wr_same _ 0 p.top (by rw [hlen]; exact hn)

theorem head?_initByArray {w : Nat} (p : IbaParams w) (key : List (BitVec w)) {n : Nat} (hn : 0 < n) :
    (initByArray p key n).head? = some p.top := by
  have hlen : 0 < (initByArray p key n).length := (initByArray_length p key n).symm ▸ hn
  rw [List.head?_eq_getElem?, List.getElem?_eq_getElem hlen, ← rd_initByArray_zero p key hn, rd,
    List.getD_eq_getElem _ _ hlen]

/-! ### seed_seq's first step -/

theorem rd_replicate {w n j : Nat} (x : BitVec w) (hj : j < n) : rd (List.replicate n x) j = x := by
  simp [rd, hj]

/-- Over an array filled with `x`, the first step reads `x` at all three indices and adds to it (R412). -/
theorem seedSeqMixStep_replicate (v : List U32) {n : Nat} (hn : 0 < n) (x : U32) {r1 : U32}
    (hr1 : r1 = 1664525 * seedSeqTemper (x ^^^ x ^^^ x)) :
    seedSeqMixStep v n (List.replicate n x) 0 =
      let b := wr (List.replicate n x) (seedSeqP n % n) (x + r1)
      let r2 := r1 + BitVec.ofNat 32 v.length
      wr (wr b (seedSeqQ n % n) (rd b (seedSeqQ n % n) + r2)) 0 r2 := by
  have hread : ∀ k, rd (List.replicate n x) (k % n) = x := fun k => rd_replicate x (Nat.mod_lt k hn)
  simp only [seedSeqMixStep, hread, Nat.zero_add, Nat.zero_mod, rd_replicate x hn, if_true, hr1]

/-- R414's constant: r1 over the fill constant. -/
theorem seedSeq_fill_r1 :
    (1371501266 : U32) = 1664525 * seedSeqTemper (0x8B8B8B8B ^^^ 0x8B8B8B8B ^^^ 0x8B8B8B8B) := by decide

/-! ### Checks that pass -/

theorem withKey64_nonempty {s : State} (k : List U64 → Result) (h : s.sb ≠ []) :
    withKey64 s k = k s.sb := if_neg h

theorem withLength_le {n : Beat} {s : State} (k : Nat → Result) (h : n.toNat ≤ s.cfg.ssMaxOut) :
    withLength n s k = k n.toNat := if_neg (Nat.not_lt.mpr h)

theorem withArrayLength_le {n : Beat} {s : State} (k : Nat → Result) (h : n.toNat ≤ s.cfg.ssMaxOut)
    (h1 : n.toNat ≠ 1) : withArrayLength n s k = k n.toNat :=
  if_neg (not_or.mpr ⟨Nat.not_lt.mpr h, h1⟩)

theorem answer_eq (s : State) (rs : List Beat) : answer s rs = .next (pushResponse s (0 :: rs)) := rfl

theorem construct_eq (e : Engine) (s : State) :
    construct e s = .next (pushResponse { s with eng := some e } [0]) := rfl

/-- The end of SS_IBA32 and SS_IBA64: for n = 0 the status beat alone, else the network's `n` words, each
sent as the beat `f` of it (R422, R423). -/
theorem ibaAnswer_eq {w : Nat} (p : IbaParams w) (key : List (BitVec w)) (n : Nat) (f : BitVec w → Beat)
    (s : State) : ∃ ws : List (BitVec w), ws.length = n ∧
      (if n = 0 then answer s [] else answer s ((initByArray p key n).map f)) =
        .next (pushResponse s (0 :: ws.map f)) ∧
      (n ≠ 0 → ws = initByArray p key n ∧ ws.head? = some p.top) := by
  by_cases hn : n = 0
  · exact ⟨[], hn.symm, if_pos hn, fun h => absurd hn h⟩
  · exact ⟨initByArray p key n, initByArray_length p key n, if_neg hn,
      fun _ => ⟨rfl, head?_initByArray p key (Nat.pos_of_ne_zero hn)⟩⟩

/-! ### A Mersenne Twister engine after its construction -/

@[simp] theorem mtFresh_toList {w n : Nat} (l : List (BitVec w)) (h : l.length = n) :
    (mtFresh l h).s.toList = l := rfl

@[simp] theorem mtFresh_idx {w n : Nat} (l : List (BitVec w)) (h : l.length = n) :
    (mtFresh l h).idx = n := rfl

/-- The array after MT32_SEED and MT64_SEED is the recurrence from the seed on (R520, R530). -/
theorem mtFresh_initGenRand {w n : Nat} (p : IgrParams w) (seed : BitVec w) (hn : 0 < n) :
    let e : MtState w n := mtFresh (initGenRand p seed n) (initGenRand_length p seed n)
    rd e.s.toList 0 = seed ∧
      ∀ i, 0 < i → i < n → rd e.s.toList i = igrNext p (rd e.s.toList (i - 1)) i := by
  simp only [mtFresh_toList]
  exact ⟨rd_initGenRand_zero p seed hn, fun i hpos hi => rd_initGenRand p seed hpos hi⟩

end Sys2Proof.Machine

namespace Sys2Proof.Proofs

open Sys2Proof Sys2Proof.Machine

/-- Settles O25, by the recurrence of InitGenRand's words. -/
theorem ssIgr32AnswersTheRecurrence : Obligations.SsIgr32AnswersTheRecurrence := by
  intro seed n s hseed hn
  refine ⟨initGenRand igr32Params (seed.setWidth 32) n.toNat, initGenRand_length _ _ _, ?_,
    rd_initGenRand_zero _ _, fun i hpos hi => rd_initGenRand _ _ hpos hi⟩
  rw [exec, execSsIgr32, withU32_narrow _ _ hseed, withLength_le _ hn, answer_eq]
  rfl

/-- Settles O26, by the recurrence of InitGenRand's words. -/
theorem ssIgr64AnswersTheRecurrence : Obligations.SsIgr64AnswersTheRecurrence := by
  intro seed n s hn
  refine ⟨initGenRand igr64Params seed n.toNat, initGenRand_length _ _ _, ?_,
    rd_initGenRand_zero _ _, fun i hpos hi => rd_initGenRand _ _ hpos hi⟩
  rw [exec, execSsIgr64, withLength_le _ hn, answer_eq]

/-- Settles O27: the buffer and the length pass the checks, and the answer is the network's words. -/
theorem arraySeedSequencesAnswerTheirNetworks : Obligations.ArraySeedSequencesAnswerTheirNetworks := by
  refine fun n s hne hn => ⟨fun h1 => ?_, fun hnarrow => ⟨fun h1 => ?_, ?_⟩⟩
  · rw [exec, execSsIba64, withKey64_nonempty _ hne, withArrayLength_le _ hn h1]
    have hanswer := ibaAnswer_eq iba64Params s.sb n.toNat id s
    simp only [List.map_id] at hanswer
    exact hanswer
  · rw [exec, execSsIba32, withKey32_narrow _ hne hnarrow, withArrayLength_le _ hn h1]
    exact ibaAnswer_eq iba32Params _ n.toNat zext64 s
  · rw [exec, execSsSseq32, withKey32_narrow _ hne hnarrow, withLength_le _ hn, answer_eq]
    exact ⟨seedSeq _ n.toNat, seedSeq_length _ _, rfl, rfl⟩

/-- Settles O28: the first step reads only the fill constant, and its three writes are at p, q and 0. -/
theorem seedSeqFirstStepIsIndexIndependent : Obligations.SeedSeqFirstStepIsIndexIndependent := by
  intro v n j hn hj
  rw [seedSeqMixStep_replicate v hn _ seedSeq_fill_r1]
  refine ⟨rd_replicate _ hj, fun i hp h0 hq => ?_, rd_wr_same _ _ _ ?_⟩
  · rw [rd_wr_other _ _ _ _ h0.symm, rd_wr_other _ _ _ _ hq.symm, hp]
    exact rd_wr_same _ _ _ (by rw [List.length_replicate]; exact Nat.mod_lt _ hn)
  · rw [wr_length, wr_length, List.length_replicate]
    exact hn

/-- Settles O32: the fresh engine holds InitGenRand's words. -/
theorem mersenneWordSeedsLoadTheRecurrence : Obligations.MersenneWordSeedsLoadTheRecurrence := by
  refine ⟨fun seed s hseed => ⟨mtFresh (initGenRand igr32Params (seed.setWidth 32) 624)
      (initGenRand_length _ _ _), ?_, mtFresh_idx _ _, ?_⟩,
    fun seed s => ⟨mtFresh (initGenRand igr64Params seed 312) (initGenRand_length _ _ _), ?_,
      mtFresh_idx _ _, ?_⟩⟩
  · rw [exec, execMt32Seed, withU32_narrow _ _ hseed, construct_eq]
  · exact mtFresh_initGenRand igr32Params _ (by decide)
  · rw [exec, execMt64Seed, construct_eq]
  · exact mtFresh_initGenRand igr64Params seed (by decide)

/-- Settles O33: the buffer passes the network's check, and the fresh engine holds the network's words. -/
theorem mersenneArraySeedsLoadTheirNetworks : Obligations.MersenneArraySeedsLoadTheirNetworks := by
  refine fun s hne => ⟨⟨mtFresh (initByArray iba64Params s.sb 312) (initByArray_length _ _ _), ?_,
      mtFresh_idx _ _, mtFresh_toList _ _, ?_⟩, fun hnarrow =>
    ⟨⟨mtFresh (initByArray iba32Params _ 624) (initByArray_length _ _ _), ?_,
      mtFresh_idx _ _, mtFresh_toList _ _, ?_⟩,
    ⟨mtFresh (seedSeq _ 624) (seedSeq_length _ _), ?_, mtFresh_idx _ _, mtFresh_toList _ _⟩⟩⟩
  · rw [exec, execMt64SeedArray, withKey64_nonempty _ hne, construct_eq]
  · rw [mtFresh_toList]
    exact rd_initByArray_zero _ _ (by decide)
  · rw [exec, execMt32SeedArray, withKey32_narrow _ hne hnarrow, construct_eq]
  · rw [mtFresh_toList]
    exact rd_initByArray_zero _ _ (by decide)
  · rw [exec, execMt32SeedSeq, withKey32_narrow _ hne hnarrow, construct_eq]

end Sys2Proof.Proofs

/-! PROOFS. The family 41_engine_base.md: progress under the invariant, the words derived from the raw
draw, the binary64 pattern and its normalizations: O43, O59, O41, O42, O44 and O45. -/

namespace Sys2Proof.Machine

/-! ### Progress -/

/-- An enabled sampler step has an engine to draw from: the invariant gives an active sampler one (R124,
R670), so the model's only fault is out of reach. -/
theorem sample_answers {s : State} {r : Sampler} (hs : s.Inv) (hf : fetch s = .sample r) :
    ∃ t, step s = .next t := by
  obtain ⟨hfull, hpend, hactive⟩ := fetch_sample_inv hf
  obtain ⟨_, e, hslot, _⟩ := hs.smpWf r hactive
  exact ⟨_, step_sampling hfull hpend hactive hslot⟩

/-- A command always answers a next state: there is no fault or refusal among its effects. -/
theorem exec_answers (i : Instr) (s : State) : ∃ t, exec i s = .next t := by
  obtain ⟨t, ht, _⟩ := exec_effect i s
  exact ⟨t, ht⟩

theorem step_answers {s : State} (hs : s.Inv) : ∃ t, step s = .next t := by
  cases hf : fetch s with
  | sample r => exact sample_answers hs hf
  | wait | send | illegal n => exact ⟨_, by rw [step, hf]⟩
  | run i n =>
    rw [step, hf]
    exact exec_answers i _

/-! ### The words derived from the raw draw -/

/-- On a 32-bit engine NextU32 is the raw draw (R454). -/
theorem nextWord32_of_width32 (c : Config) {e : Engine} (hw : nativeWidth e = 32) :
    nextWord32 c e = rawDraw c e := if_pos hw

/-- On a 64-bit engine NextU32 is the high half of the raw draw (R454). -/
theorem nextWord32_of_width64 (c : Config) {e : Engine} (hw : nativeWidth e = 64) :
    (nextWord32 c e).1.toNat = (rawDraw c e).1.toNat / 2 ^ 32 := by
  rw [nextWord32, if_neg (by rw [hw]; decide), BitVec.toNat_ushiftRight, Nat.shiftRight_eq_div_pow]

/-- On a 64-bit engine NextU64 is the raw draw (R455). -/
theorem nextWord64_of_width64 (c : Config) {e : Engine} (hw : nativeWidth e = 64) :
    nextWord64 c e = rawDraw c e := if_neg (by rw [hw]; decide)

/-- On a 32-bit engine NextU64 joins the words of draws 0 and 1 (R455). -/
theorem nextWord64_of_width32 (c : Config) {e : Engine} (hw : nativeWidth e = 32) :
    nextWord64 c e = (joinWords (wordAt c 0 e) (wordAt c 1 e), engineAfter c 2 e) := if_pos hw

/-- Joining two 32-bit words is positional, the first word high (R204, R455). -/
theorem joinWords_toNat {w1 w2 : Beat} (h1 : w1.toNat < 2 ^ 32) (h2 : w2.toNat < 2 ^ 32) :
    (joinWords w1 w2).toNat = w1.toNat * 2 ^ 32 + w2.toNat := by
  have hshift : (w1 <<< 32).toNat = w1.toNat <<< 32 := by
    rw [BitVec.toNat_shiftLeft, Nat.shiftLeft_eq]
    omega
  rw [joinWords, BitVec.toNat_or, hshift, ← Nat.shiftLeft_add_eq_or_of_lt h2, Nat.shiftLeft_eq]

@[simp] theorem nativeWidth_engineAfter (c : Config) (k : Nat) (e : Engine) :
    nativeWidth (engineAfter c k e) = nativeWidth e := by
  induction k generalizing e with
  | zero => rfl
  | succ k ih => rw [engineAfter, ih, nativeWidth_rawDraw]

theorem wordAt_toNat_lt (c : Config) (k : Nat) (e : Engine) :
    (wordAt c k e).toNat < 2 ^ nativeWidth e := by
  have hlt := rawDraw_toNat_lt c (engineAfter c k e)
  rwa [nativeWidth_engineAfter] at hlt

/-! ### The commands that draw one word -/

/-- A command that draws a word and ends, over an engine: `draw` gives the result beat and the engine that
stays in the slot. -/
theorem withEngine_answerDraw {s : State} {e : Engine} (draw : Engine → Beat × Engine)
    (he : s.eng = some e) :
    withEngine s (fun e => answerDraw s (draw e).1 (draw e).2) =
      .next (pushResponse { s with eng := some (draw e).2 } [0, (draw e).1]) := by
  rw [withEngine_some _ he, answerDraw, answer_eq]

theorem exec_nextU32 {s : State} {e : Engine} (he : s.eng = some e) :
    exec .nextU32 s = .next (pushResponse { s with eng := some (nextWord32 s.cfg e).2 }
      [0, (nextWord32 s.cfg e).1]) :=
  withEngine_answerDraw (nextWord32 s.cfg) he

theorem exec_nextU64 {s : State} {e : Engine} (he : s.eng = some e) :
    exec .nextU64 s = .next (pushResponse { s with eng := some (nextWord64 s.cfg e).2 }
      [0, (nextWord64 s.cfg e).1]) :=
  withEngine_answerDraw (nextWord64 s.cfg) he

/-- A command that answers the word of NextU64 under the normalization `norm` (R465). -/
theorem withEngine_normalized {s : State} {e : Engine} (norm : Beat → Beat) (he : s.eng = some e) :
    withEngine s (fun e => answerDraw s (norm (nextWord64 s.cfg e).1) (nextWord64 s.cfg e).2) =
      .next (pushResponse { s with eng := some (nextWord64 s.cfg e).2 }
        [0, norm (nextWord64 s.cfg e).1]) :=
  withEngine_answerDraw (fun e => (norm (nextWord64 s.cfg e).1, (nextWord64 s.cfg e).2)) he

/-! ### The binary64 pattern -/

/-- The significand of the pattern of `k · 2^-53`, its leading bit written out: `k` shifted so that this
bit is bit 52 (R464). -/
def f64Significand (k : Nat) : Nat :=
  if k.log2 ≤ 52 then k * 2 ^ (52 - k.log2) else k / 2 ^ (k.log2 - 52)

theorem f64Pattern_eq {k : Nat} (hk : k ≠ 0) :
    f64Pattern k = BitVec.ofNat 64 ((1023 + k.log2 - 53) * 2 ^ 52 + (f64Significand k - 2 ^ 52)) :=
  if_neg hk

theorem log2_le_of_le_two_pow {k n : Nat} (hk : k ≠ 0) (hle : k ≤ 2 ^ n) : k.log2 ≤ n :=
  (Nat.pow_le_pow_iff_right (by decide)).mp ((Nat.log2_self_le hk).trans hle)

/-- Shifting loses nothing: below `2^53` it is to the left, and at `2^53` itself the bit shifted out is
0 (R464). -/
theorem f64Significand_mul {k : Nat} (hk : 0 < k) (hle : k ≤ 2 ^ 53) :
    f64Significand k * 2 ^ k.log2 = k * 2 ^ 52 := by
  unfold f64Significand
  split
  · next hsmall => rw [Nat.mul_assoc, ← Nat.pow_add, Nat.sub_add_cancel hsmall]
  · next hbig =>
    have hlog : k.log2 = 53 := by
      have := log2_le_of_le_two_pow hk.ne' hle
      omega
    obtain rfl : k = 2 ^ 53 := hle.antisymm (hlog ▸ Nat.log2_self_le hk.ne')
    rw [hlog]
    decide

/-- The significand is that of a normal number: its leading bit is bit 52 (R464). -/
theorem f64Significand_bounds {k : Nat} (hk : 0 < k) (hle : k ≤ 2 ^ 53) :
    2 ^ 52 ≤ f64Significand k ∧ f64Significand k < 2 ^ 53 := by
  have hmul := f64Significand_mul hk hle
  constructor
  · refine Nat.le_of_mul_le_mul_right ?_ (Nat.two_pow_pos k.log2)
    calc 2 ^ 52 * 2 ^ k.log2 = 2 ^ k.log2 * 2 ^ 52 := Nat.mul_comm _ _
      _ ≤ k * 2 ^ 52 := Nat.mul_le_mul_right _ (Nat.log2_self_le hk.ne')
      _ = f64Significand k * 2 ^ k.log2 := hmul.symm
  · refine Nat.lt_of_mul_lt_mul_right (a := 2 ^ k.log2) ?_
    calc f64Significand k * 2 ^ k.log2 = k * 2 ^ 52 := hmul
      _ < 2 ^ (k.log2 + 1) * 2 ^ 52 :=
          Nat.mul_lt_mul_of_pos_right Nat.lt_log2_self (Nat.two_pow_pos _)
      _ = 2 ^ 53 * 2 ^ k.log2 := by rw [Nat.pow_succ]; omega

/-- The value of the significand, for every bias `n` of the exponent (R463, R464). -/
theorem f64Significand_value {k : Nat} (hk : 0 < k) (hle : k ≤ 2 ^ 53) (n : Nat) :
    f64Significand k * 2 ^ (n + k.log2) = k * 2 ^ (n + 52) :=
  calc f64Significand k * 2 ^ (n + k.log2) = f64Significand k * 2 ^ k.log2 * 2 ^ n := by
        rw [Nat.add_comm, Nat.pow_add, Nat.mul_assoc]
    _ = k * 2 ^ 52 * 2 ^ n := by rw [f64Significand_mul hk hle]
    _ = k * 2 ^ (n + 52) := by rw [Nat.mul_assoc, ← Nat.pow_add, Nat.add_comm]

/-- The fields of a pattern made of an exponent and a fraction with sign 0 (R464). -/
theorem f64_fields {exponent fraction : Nat} (hexp : exponent < 2 ^ 11) (hfrac : fraction < 2 ^ 52) :
    let b := BitVec.ofNat 64 (exponent * 2 ^ 52 + fraction)
    f64Sign b = exponent / 2 ^ 11 ∧ f64Exponent b = exponent ∧ f64Fraction b = fraction := by
  have htoNat : (BitVec.ofNat 64 (exponent * 2 ^ 52 + fraction)).toNat =
      exponent * 2 ^ 52 + fraction := by
    rw [BitVec.toNat_ofNat]
    exact Nat.mod_eq_of_lt (by omega)
  simp only [f64Sign, f64Exponent, f64Fraction, htoNat]
  omega

/-- The fields of the pattern of `k · 2^-53` (R463, R464). -/
theorem f64Pattern_fields {k : Nat} (hk : 0 < k) (hle : k ≤ 2 ^ 53) :
    f64Sign (f64Pattern k) = 0 ∧ f64Exponent (f64Pattern k) = 970 + k.log2 ∧
      2 ^ 52 + f64Fraction (f64Pattern k) = f64Significand k := by
  have hlog := log2_le_of_le_two_pow hk.ne' hle
  obtain ⟨hlow, hhigh⟩ := f64Significand_bounds hk hle
  obtain ⟨hsign, hexponent, hfraction⟩ :=
    f64_fields (exponent := 1023 + k.log2 - 53) (fraction := f64Significand k - 2 ^ 52)
      (by omega) (by omega)
  rw [f64Pattern_eq hk.ne', hsign, hexponent, hfraction]
  omega

/-! ### The normalizations -/

theorem canonical_eq (w : Beat) : canonical w = f64Pattern (w.toNat / 2 ^ 11) := by
  rw [canonical, BitVec.toNat_ushiftRight, Nat.shiftRight_eq_div_pow]

theorem incrementedCanonical_eq (w : Beat) :
    incrementedCanonical w = f64Pattern (w.toNat / 2 ^ 11 + 1) := by
  rw [incrementedCanonical, BitVec.toNat_ushiftRight, Nat.shiftRight_eq_div_pow]

/-- The magnitude of a word is its bits [62:10] (R462). -/
theorem magnitude_toNat (w : Beat) : (w.extractLsb' 10 53).toNat = w.toNat / 2 ^ 10 % 2 ^ 53 := by
  rw [BitVec.extractLsb'_toNat, Nat.shiftRight_eq_div_pow]

/-- The sign of a word stands exactly in the words from `2^63` on (R462). -/
theorem signBit_iff (w : Beat) : w.getLsbD 63 = true ↔ 2 ^ 63 ≤ w.toNat := by
  rw [← decide_eq_true_iff (p := 2 ^ 63 ≤ w.toNat), ← BitVec.msb_eq_decide w,
    BitVec.msb_eq_getLsbD_last]

theorem symmetricCanonical_eq (w : Beat) :
    symmetricCanonical w = f64Pattern (w.toNat / 2 ^ 10 % 2 ^ 53) |||
      ((if 2 ^ 63 ≤ w.toNat then 1 <<< 63 else 0 : Nat) : Beat) := by
  have hsignBit : ((1 <<< 63 : Nat) : Beat) = 0x8000000000000000 := by decide
  rw [symmetricCanonical, magnitude_toNat]
  by_cases hneg : 2 ^ 63 ≤ w.toNat
  · rw [if_pos ((signBit_iff w).mpr hneg), if_pos hneg, hsignBit]
  · rw [if_neg (mt (signBit_iff w).mp hneg), if_neg hneg, Nat.cast_zero, BitVec.ofNat_eq_ofNat,
      BitVec.or_zero]

end Sys2Proof.Machine

namespace Sys2Proof.Proofs

open Sys2Proof Sys2Proof.Machine

/-- Settles O43, by the fields of the pattern and the value of its significand. -/
theorem canonicalPatternHasTheExactValue : Obligations.CanonicalPatternHasTheExactValue := by
  refine ⟨rfl, fun k hk hle => ?_⟩
  obtain ⟨hsign, hexponent, hsignificand⟩ := f64Pattern_fields hk hle
  have hlog := log2_le_of_le_two_pow hk.ne' hle
  have hbias : 1022 = 970 + 52 := rfl
  rw [hexponent, hsignificand, hbias]
  exact ⟨hsign, by omega, by omega, f64Significand_value hk hle 970⟩

/-- Settles O59, by the unit's next move. -/
theorem noStepFaultsUnderTheInvariant : Obligations.NoStepFaultsUnderTheInvariant :=
  fun _ => step_answers

/-- Settles O41, by the engine's width. -/
theorem nextU32AnswersOneDraw : Obligations.NextU32AnswersOneDraw := by
  intro s e he
  refine ⟨(nextWord32 s.cfg e).1, ?_, fun hw => ?_, nextWord32_of_width64 s.cfg⟩
  · rw [exec_nextU32 he, nextWord32_snd]
  · rw [nextWord32_of_width32 s.cfg hw]

/-- Settles O42, by the engine's width. -/
theorem nextU64AnswersOneOrTwoDraws : Obligations.NextU64AnswersOneOrTwoDraws := by
  intro s e he
  refine ⟨fun hw => ?_, fun hw => ⟨joinWords (wordAt s.cfg 0 e) (wordAt s.cfg 1 e), ?_, ?_⟩⟩
  · rw [exec_nextU64 he, nextWord64_of_width64 s.cfg hw]
  · rw [exec_nextU64 he, nextWord64_of_width32 s.cfg hw]
  · exact joinWords_toNat (hw ▸ wordAt_toNat_lt s.cfg 0 e) (hw ▸ wordAt_toNat_lt s.cfg 1 e)

/-- Settles O44, from the three normalizations; none of the three commands reads the engine slot. -/
theorem normalizersAnswerAndChangeNothing : Obligations.NormalizersAnswerAndChangeNothing := by
  intro w s
  rw [← canonical_eq, ← incrementedCanonical_eq, ← symmetricCanonical_eq]
  exact ⟨rfl, rfl, rfl⟩

/-- Settles O45: the four commands draw the same word and differ in what they make of it. -/
theorem canonCommandsNormalizeNextU64 : Obligations.CanonCommandsNormalizeNextU64 :=
  fun s e he => ⟨(nextWord64 s.cfg e).1, (nextWord64 s.cfg e).2, exec_nextU64 he,
    withEngine_normalized canonical he, withEngine_normalized incrementedCanonical he,
    withEngine_normalized symmetricCanonical he⟩

end Sys2Proof.Proofs

/-! PROOFS. The family 42_mersenne_twister.md: the in-place twist, the draw and the sequence of a Mersenne
Twister, and what a successful construction reads: O29, O30, O31 and O54. -/

namespace Sys2Proof.Machine

/-! ### The twist, step by step -/

/-- The array after the twist's steps 0 to `k - 1` (R506). -/
def twistPrefix {w : Nat} (p : MtParams w) (n : Nat) (s : List (BitVec w)) (k : Nat) : List (BitVec w) :=
  (List.range k).foldl (twistStep p n) s

section
variable {w n : Nat} (p : MtParams w) (s : List (BitVec w))

theorem twistPrefix_all : twistPrefix p n s n = twistList p n s := rfl

theorem twistPrefix_succ (k : Nat) :
    twistPrefix p n s (k + 1) = twistStep p n (twistPrefix p n s k) k := by
  rw [twistPrefix, List.range_succ, List.foldl_append, List.foldl_cons, List.foldl_nil, ← twistPrefix]

theorem twistPrefix_length (k : Nat) : (twistPrefix p n s k).length = s.length :=
  foldl_keeps_length _ (fun _ _ => wr_length _ _ _) _ _

theorem rd_twistPrefix_succ_other {j k : Nat} (h : k ≠ j) :
    rd (twistPrefix p n s (k + 1)) j = rd (twistPrefix p n s k) j := by
  rw [twistPrefix_succ, twistStep, rd_wr_other _ _ _ _ h]

/-- The words that the first `k` steps have not reached are the old ones. -/
theorem rd_twistPrefix_unreached {j k : Nat} (h : k ≤ j) : rd (twistPrefix p n s k) j = rd s j := by
  induction k with
  | zero => rfl
  | succ k ih => rw [rd_twistPrefix_succ_other p s (Nat.ne_of_lt h), ih (Nat.le_of_succ_le h)]

/-- No step writes a word that an earlier step has reached. -/
theorem rd_twistPrefix_mono {j k k' : Nat} (hj : j < k) (hk : k ≤ k') :
    rd (twistPrefix p n s k') j = rd (twistPrefix p n s k) j := by
  induction k', hk using Nat.le_induction with
  | base => rfl
  | succ m hkm ih => rw [rd_twistPrefix_succ_other p s (hj.trans_le hkm).ne', ih]

theorem rd_twistPrefix_reached {j k : Nat} (hj : j < k) (hk : k ≤ n) :
    rd (twistPrefix p n s k) j = rd (twistList p n s) j :=
  (rd_twistPrefix_mono p s hj hk).symm

/-- What step `i` reads at distance `d` ahead: the old word, or beyond the end the new word at the wrapped
index (R506). -/
theorem rd_twistPrefix_ahead {i d : Nat} (hi : i < n) (hd : d < n) :
    rd (twistPrefix p n s i) ((i + d) % n) =
      if i + d < n then rd s (i + d) else rd (twistList p n s) (i + d - n) := by
  split
  · next hlt => rw [Nat.mod_eq_of_lt hlt, rd_twistPrefix_unreached p s (Nat.le_add_right i d)]
  · next hge =>
    have hwrap : (i + d) % n = i + d - n := by
      rw [Nat.mod_eq_sub_mod (Nat.not_lt.mp hge), Nat.mod_eq_of_lt (by omega)]
    rw [hwrap, rd_twistPrefix_reached p s (by omega) hi.le]

/-- The recurrence of the twist: the new word `i` is made of the words that step `i` reads (R505, R506). -/
theorem rd_twistList (hlen : s.length = n) (h1 : 1 < n) (hm : p.m < n) {i : Nat} (hi : i < n) :
    rd (twistList p n s) i = twistWord p (rd s i)
      (if i + 1 < n then rd s (i + 1) else rd (twistList p n s) (i + 1 - n))
      (if i + p.m < n then rd s (i + p.m) else rd (twistList p n s) (i + p.m - n)) := by
  have hwritten : i < (twistPrefix p n s i).length := by rwa [twistPrefix_length, hlen]
  rw [← rd_twistPrefix_ahead p s hi h1, ← rd_twistPrefix_ahead p s hi hm,
    ← rd_twistPrefix_reached p s (Nat.lt_succ_self i) hi, twistPrefix_succ, twistStep,
    rd_wr_same _ _ _ hwritten, rd_twistPrefix_unreached p s le_rfl]

end

/-! ### The draw of a Mersenne Twister -/

@[simp] theorem twist_toList {w n : Nat} (p : MtParams w) (s : Vector (BitVec w) n) :
    (twist p s).toList = twistList p n s.toList := rfl

/-- With IDX = N the array is twisted, and the draw takes its first word (R510). -/
theorem mtDraw_exhausted {w n : Nat} (p : MtParams w) {e : MtState w n} (h : e.idx = n) :
    mtDraw p e = (rd (twist p e.s).toList 0, ⟨twist p e.s, 1⟩) := by
  rw [mtDraw, if_pos h]

/-- With IDX < N the draw takes the word at IDX and keeps the array (R112, R510). -/
theorem mtDraw_unexhausted {w n : Nat} (p : MtParams w) {e : MtState w n} (h : e.idx < n) :
    mtDraw p e = (rd e.s.toList e.idx, ⟨e.s, e.idx + 1⟩) := by
  rw [mtDraw, if_neg h.ne]

theorem rawDraw_mt32 (c : Config) (e : MtState 32 624) :
    rawDraw c (.mt32 e) = (zext64 (temper32 (mtDraw mt32Params e).1), .mt32 (mtDraw mt32Params e).2) :=
  rfl

theorem rawDraw_mt64 (c : Config) (e : MtState 64 312) :
    rawDraw c (.mt64 e) = (temper64 (mtDraw mt64Params e).1, .mt64 (mtDraw mt64Params e).2) := rfl

/-! ### The sequence of a Mersenne Twister -/

/-- The engine whose last draw took word `j mod N` of the array `s` twisted `j div N` times (R510, R511).
With `j = N - 1` it is the fresh engine: IDX = N, as if the untwisted array were used up (R512). -/
def mtAfterWord {w n : Nat} (p : MtParams w) (s : Vector (BitVec w) n) (j : Nat) : MtState w n :=
  ⟨(twist p)^[j / n] s, j % n + 1⟩

section
variable {w n : Nat} {p : MtParams w}

theorem mtAfterWord_fresh (hn : 0 < n) (s : Vector (BitVec w) n) :
    mtAfterWord p s (n - 1) = ⟨s, n⟩ := by
  have hlast : n - 1 < n := Nat.sub_one_lt_of_lt hn
  rw [mtAfterWord, Nat.div_eq_of_lt hlast, Nat.mod_eq_of_lt hlast, Nat.sub_add_cancel hn]
  rfl

/-- A draw takes the next word, twisting first where the last one ended its array. -/
theorem mtDraw_afterWord (hn : 0 < n) (s : Vector (BitVec w) n) (j : Nat) :
    mtDraw p (mtAfterWord p s j) =
      (rd ((twist p)^[(j + 1) / n] s).toList ((j + 1) % n), mtAfterWord p s (j + 1)) := by
  by_cases hend : j % n + 1 = n
  · have hrem : (j + 1) % n = 0 := by rw [← Nat.mod_add_mod, hend, Nat.mod_self]
    have hquot : (j + 1) / n = j / n + 1 := Nat.succ_div_of_mod_eq_zero hrem
    rw [mtDraw_exhausted p hend, mtAfterWord, mtAfterWord, hquot, hrem, Function.iterate_succ_apply']
  · have hlt : j % n + 1 < n := Nat.lt_of_le_of_ne (Nat.mod_lt j hn) hend
    have hrem : (j + 1) % n = j % n + 1 := by rw [← Nat.mod_add_mod, Nat.mod_eq_of_lt hlt]
    have hquot : (j + 1) / n = j / n :=
      Nat.succ_div_of_mod_ne_zero (by rw [hrem]; exact Nat.succ_ne_zero _)
    rw [mtDraw_unexhausted p hlt, mtAfterWord, mtAfterWord, hquot, hrem]

/-- An engine whose raw draws are those of a Mersenne Twister gives, `k` draws after word `j`, word
`j + 1 + k`. -/
theorem wordAt_afterWord {c : Config} {engine : MtState w n → Engine} {out : BitVec w → Beat}
    (hdraw : ∀ e, rawDraw c (engine e) = (out (mtDraw p e).1, engine (mtDraw p e).2)) (hn : 0 < n)
    (s : Vector (BitVec w) n) (k j : Nat) :
    wordAt c k (engine (mtAfterWord p s j)) =
      out (rd ((twist p)^[(j + 1 + k) / n] s).toList ((j + 1 + k) % n)) := by
  induction k generalizing j with
  | zero => rw [wordAt, engineAfter, hdraw, mtDraw_afterWord hn, Nat.add_zero]
  | succ k ih =>
    rw [wordAt, engineAfter, hdraw, mtDraw_afterWord hn, ← wordAt, ih, Nat.add_right_comm (j + 1),
      ← Nat.add_assoc]

/-- The sequence from IDX = N on (R510 to R512). -/
theorem wordAt_mtFresh {c : Config} {engine : MtState w n → Engine} {out : BitVec w → Beat}
    (hdraw : ∀ e, rawDraw c (engine e) = (out (mtDraw p e).1, engine (mtDraw p e).2)) (hn : 0 < n)
    (s : Vector (BitVec w) n) (k : Nat) :
    wordAt c k (engine ⟨s, n⟩) = out (rd ((twist p)^[k / n + 1] s).toList (k % n)) := by
  rw [← mtAfterWord_fresh hn s, wordAt_afterWord hdraw hn, Nat.sub_add_cancel hn, Nat.add_div_left k hn,
    Nat.add_mod_left]

end

/-! ### What a successful construction reads -/

theorem narrow_of_not_wideOperand {b : Beat} (h : ¬ WideOperand b) : b.toNat < 2 ^ 32 :=
  Nat.not_le.mp h

theorem narrow_of_not_wideEntry {s : State} (h : ¬ WideEntry s) : ∀ b ∈ s.sb, b.toNat < 2 ^ 32 :=
  fun b hb => Nat.not_le.mp fun hwide => h ⟨b, hb, hwide⟩

/-- A construction from a 32-bit network over the buffer makes its engine of the buffer alone. -/
theorem withKey32_construct {s : State} (engine : List U32 → Engine)
    (harg : ¬ (s.sb = [] ∨ WideEntry s)) : ∃ e, ∀ slot,
      withKey32 { s with eng := slot } (fun key => construct (engine key) { s with eng := slot }) =
        construct e { s with eng := slot } := by
  obtain ⟨hne, hentry⟩ := not_or.mp harg
  exact ⟨engine (s.sb.map fun b => b.setWidth 32), fun slot =>
    withKey32_narrow (s := { s with eng := slot }) _ hne (narrow_of_not_wideEntry hentry)⟩

/-- A construction without a cause of ArgumentError ends in `construct`, with an engine that the earlier
slot has no part in (R804). -/
theorem exec_construction {i : Instr} {s : State} (hi : isConstruction i = true) (harg : ¬ ArgCause i s) :
    ∃ e, ∀ slot, exec i { s with eng := slot } = construct e { s with eng := slot } := by
  cases i with
  | mt32Seed seed => exact ⟨_, fun _ => withU32_narrow _ _ (narrow_of_not_wideOperand harg)⟩
  | mt32SeedArray | mt32SeedSeq => exact withKey32_construct _ harg
  | mt64Seed seed => exact ⟨_, fun _ => rfl⟩
  | mt64SeedArray =>
    refine ⟨.mt64 (mtFresh (initByArray iba64Params s.sb 312) (initByArray_length _ _ _)), fun slot => ?_⟩
    rw [exec, execMt64SeedArray, withKey64_nonempty (s := { s with eng := slot }) _ harg]
  | pcg32Seed initstate stream =>
    exact ⟨.pcg32 (pcgWarmUp s.cfg.pcgSeedMode initstate (pcgInc stream)), fun _ => if_neg harg⟩
  | philoxSeed k0 k1 =>
    obtain ⟨h0, h1⟩ := not_or.mp harg
    refine ⟨.philox (philoxFresh ⟨k0.setWidth 32, k1.setWidth 32⟩ s.pos), fun _ => ?_⟩
    rw [exec, execPhiloxSeed, withU32_narrow _ _ (narrow_of_not_wideOperand h0),
      withU32_narrow _ _ (narrow_of_not_wideOperand h1)]
  | tf20Seed k0 k1 k2 k3 => exact ⟨.tf20 (tfFresh ⟨k0, k1, k2, k3⟩ s.pos), fun _ => rfl⟩
  | tfrSeed k0 k1 k2 k3 => exact ⟨.tfr (tfFresh ⟨k0, k1, k2, k3⟩ s.pos), fun _ => rfl⟩
  | _ => cases hi

end Sys2Proof.Machine

namespace Sys2Proof.Proofs

open Sys2Proof Sys2Proof.Machine

/-- Settles O29: at the last `i` the word ahead wraps to word 0. -/
theorem twistFollowsTheInPlaceRecurrence : Obligations.TwistFollowsTheInPlaceRecurrence := by
  rintro w n p s hlen h1 hm
  refine ⟨(twistList_length p n s).trans hlen, ?_⟩
  rintro i y x hi rfl rfl
  have hwrap : (if i + 1 < n then rd s (i + 1) else rd (twistList p n s) (i + 1 - n)) =
      if i + 1 < n then rd s (i + 1) else rd (twistList p n s) 0 := by
    rw [Nat.sub_eq_zero_of_le hi]
  rw [rd_twistList p s hlen h1 hm hi, hwrap, twistWord]

/-- Settles O30, by the two cases of the draw. -/
theorem mersenneDrawTwistsOnlyWhenExhausted : Obligations.MersenneDrawTwistsOnlyWhenExhausted := by
  refine ⟨fun c e => ⟨fun h => ?_, fun h => ?_⟩, fun c e => ⟨fun h => ?_, fun h => ?_⟩⟩
  · rw [rawDraw_mt32, mtDraw_exhausted _ h, twist_toList, zext64]
  · rw [rawDraw_mt32, mtDraw_unexhausted _ h, zext64]
  · rw [rawDraw_mt64, mtDraw_exhausted _ h, twist_toList]
  · rw [rawDraw_mt64, mtDraw_unexhausted _ h]

/-- Settles O31, by the word that the draws have reached. -/
theorem mersenneSequenceFromConstruction : Obligations.MersenneSequenceFromConstruction :=
  ⟨fun c => wordAt_mtFresh (out := fun y => zext64 (temper32 y)) (rawDraw_mt32 c) (by decide),
    fun c => wordAt_mtFresh (rawDraw_mt64 c) (by decide)⟩

/-- Settles O54: `construct` writes the slot over. -/
theorem constructionForgetsTheEarlierEngine : Obligations.ConstructionForgetsTheEarlierEngine := by
  intro i s slot hi harg
  obtain ⟨e, hexec⟩ := exec_construction hi harg
  have hself : exec i s = construct e s := hexec s.eng
  refine ⟨(hexec slot).trans hself.symm, _, hself.trans (construct_eq e s), ?_⟩
  rw [pushResponse_eng]
  exact Option.some_ne_none e

end Sys2Proof.Proofs

/-! PROOFS. The family 43_pcg.md: the construction of a PCG32 engine and its draw: O34 and O35. -/

namespace Sys2Proof.Machine

/-! ### The increment and the warm-up -/

/-- A stream below `2 ^ 63` loses no bit to the shift, so INC is `2 * stream + 1` (R550). -/
theorem pcgInc_toNat {stream : U64} (h : stream.toNat < 2 ^ 63) :
    (pcgInc stream).toNat = 2 * stream.toNat + 1 := by
  have hshift : (stream <<< 1).toNat = 2 ^ 1 * stream.toNat := by
    rw [BitVec.toNat_shiftLeft, Nat.shiftLeft_eq]
    omega
  calc (pcgInc stream).toNat = 2 ^ 1 * stream.toNat ||| 1 := by
        rw [pcgInc, BitVec.toNat_or, hshift]
        rfl
    _ = 2 * stream.toNat + 1 := (Nat.two_pow_add_eq_or_of_lt (by decide) _).symm

/-- Of REFERENCE's two steps the first, from STATE 0, leaves INC (R551). -/
theorem pcgWarmUp_reference_state (initstate inc : U64) :
    (pcgWarmUp .reference initstate inc).state = (inc + initstate) * pcgMul + inc := by
  simp [pcgWarmUp, pcgAdvance]

theorem pcgWarmUp_twoAfterFold_state (initstate inc : U64) :
    (pcgWarmUp .twoAfterFold initstate inc).state = (initstate * pcgMul + inc) * pcgMul + inc := rfl

theorem execPcg32Seed_narrow {stream : Beat} (initstate : Beat) (s : State)
    (h : stream.toNat < 2 ^ 63) :
    execPcg32Seed initstate stream s =
      construct (.pcg32 (pcgWarmUp s.cfg.pcgSeedMode initstate (pcgInc stream))) s :=
  if_neg (Nat.not_le.mpr h)

theorem execPcg32Seed_wide {stream : Beat} (initstate : Beat) (s : State)
    (h : 2 ^ 63 ≤ stream.toNat) : execPcg32Seed initstate stream s = .next (raise .arg s) :=
  if_pos h

/-! ### The output, bit by bit -/

/-- Bit `j` of a rotated word is bit `j + r` modulo 32 of the word: below the seam it comes from the right
shift, above it from the left one (R16). -/
theorem getLsbD_rotr32 (x : U32) {r j : Nat} (hr : r < 32) (hj : j < 32) :
    (rotr32 x r).getLsbD j = x.getLsbD ((j + r) % 32) := by
  rw [rotr32, BitVec.getLsbD_or, BitVec.getLsbD_ushiftRight, BitVec.getLsbD_shiftLeft, Nat.add_comm r j]
  by_cases hseam : j + r < 32
  · rw [Nat.mod_eq_of_lt hseam]
    rcases Nat.eq_zero_or_pos r with rfl | hpos
    · simp [hj]
    · have hlow : j < (32 - r) % 32 := by omega
      simp [hlow]
  · have hamount : (32 - r) % 32 = 32 - r := by omega
    have hwrap : (j + r) % 32 = j - (32 - r) := by omega
    have hhigh : ¬ j < 32 - r := by omega
    rw [BitVec.getLsbD_of_ge x (j + r) (by omega), hamount, hwrap]
    simp [hj, hhigh]

/-- Bit `k` of R553's `xs`: the shift by 27 after the one by 18 takes it from bits `k + 27` and `k + 45`
of STATE. -/
theorem getLsbD_pcgXorshift (old : U64) {k : Nat} (hk : k < 32) :
    ((((old >>> 18) ^^^ old) >>> 27).setWidth 32 : U32).getLsbD k =
      (old.getLsbD (k + 27) ^^ old.getLsbD (k + 45)) := by
  have hfar : 18 + (k + 27) = k + 45 := by omega
  simp only [BitVec.getLsbD_setWidth, BitVec.getLsbD_ushiftRight, BitVec.getLsbD_xor, hk, decide_true,
    Bool.true_and, Nat.add_comm 27 k, hfar]
  exact Bool.xor_comm _ _

/-- The rotation is STATE[63:59], which is below 32 (R553). -/
theorem pcgRot_toNat (old : U64) : (old >>> 59).toNat = old.toNat / 2 ^ 59 := by
  rw [BitVec.toNat_ushiftRight, Nat.shiftRight_eq_div_pow]

theorem getLsbD_pcgOutput (old : U64) {j : Nat} (hj : j < 32) :
    (pcgOutput old).getLsbD j =
      (old.getLsbD ((j + old.toNat / 2 ^ 59) % 32 + 27) ^^
        old.getLsbD ((j + old.toNat / 2 ^ 59) % 32 + 45)) := by
  have hrot : old.toNat / 2 ^ 59 < 32 := by omega
  rw [pcgOutput, pcgRot_toNat, getLsbD_rotr32 _ hrot hj,
    getLsbD_pcgXorshift old (Nat.mod_lt _ (by decide))]

/-- A PCG32 draw takes its word from the state before the step, and the step is the LCG (R552, R554). -/
theorem rawDraw_pcg32 (c : Config) (e : PcgState) :
    rawDraw c (.pcg32 e) =
      (zext64 (pcgOutput e.state), .pcg32 ⟨e.state * pcgMul + e.inc, e.inc⟩) := rfl

end Sys2Proof.Machine

namespace Sys2Proof.Proofs

open Sys2Proof Sys2Proof.Machine

/-- Settles O34, by the stream's range: the engine is the configured warm-up's. -/
theorem pcgSeedSetsIncrementAndWarmsUp : Obligations.PcgSeedSetsIncrementAndWarmsUp := by
  refine fun initstate stream s => ⟨fun hstream =>
      ⟨pcgWarmUp s.cfg.pcgSeedMode initstate (pcgInc stream), ?_, ?_, fun hmode => ?_, fun hmode => ?_⟩,
    fun hstream => ?_⟩
  · rw [exec, execPcg32Seed_narrow initstate s hstream, construct_eq]
  · rw [pcgWarmUp_inc, pcgInc_toNat hstream]
  · rw [pcgWarmUp_inc, hmode, pcgWarmUp_reference_state, pcgMul]
  · rw [pcgWarmUp_inc, hmode, pcgWarmUp_twoAfterFold_state, pcgMul]
  · rw [exec, execPcg32Seed_wide initstate s hstream]

/-- Settles O35: the word is `PcgOutput` of the old state. -/
theorem pcgDrawPermutesTheOldState : Obligations.PcgDrawPermutesTheOldState :=
  fun c e => ⟨pcgOutput e.state, rawDraw_pcg32 c e, fun _ hj => getLsbD_pcgOutput e.state hj⟩

end Sys2Proof.Proofs

/-! PROOFS. The family 44_counter_based.md: a counter and its value as one integer: O36. -/

namespace Sys2Proof.Machine

/-! ### The counter as one integer -/

/-- The value in nested form, one word per digit of base `2 ^ w`. -/
theorem ctrValue_eq_nested {w : Nat} (c : Quad w) : ctrValue c =
    c.x0.toNat + 2 ^ w * (c.x1.toNat + 2 ^ w * (c.x2.toNat + 2 ^ w * c.x3.toNat)) := by
  rw [ctrValue, Nat.mul_comm 2 w, Nat.mul_comm 3 w, Nat.pow_mul, Nat.pow_mul]
  ring

theorem ofNat_toNat_add_mul {w : Nat} (x : BitVec w) (n : Nat) :
    BitVec.ofNat w (x.toNat + 2 ^ w * n) = x := by
  apply BitVec.eq_of_toNat_eq
  rw [BitVec.toNat_ofNat, Nat.add_mul_mod_self_left, Nat.mod_eq_of_lt x.isLt]

theorem toNat_add_mul_div {w : Nat} (x : BitVec w) (n : Nat) :
    (x.toNat + 2 ^ w * n) / 2 ^ w = n := by
  rw [Nat.add_mul_div_left _ _ (Nat.two_pow_pos w), Nat.div_eq_of_lt x.isLt, Nat.zero_add]

/-- A counter is determined by its value: dividing the value by `2 ^ w` drops its lowest word. -/
theorem ctrOf_ctrValue {w : Nat} (c : Quad w) : ctrOf w (ctrValue c) = c := by
  simp only [ctrOf_eq, ctrValue_eq_nested, ofNat_toNat_add_mul, toNat_add_mul_div, BitVec.ofNat_toNat,
    BitVec.setWidth_eq]

/-- Four words hold a value modulo `2 ^ (4w)` (R117). -/
theorem ctrValue_ctrOf (w v : Nat) : ctrValue (ctrOf w v) = v % 2 ^ (4 * w) := by
  have hsplit : 2 ^ (4 * w) = 2 ^ w * (2 ^ w * (2 ^ w * 2 ^ w)) := by ring
  rw [ctrValue_eq_nested, ctrOf_eq, hsplit]
  simp only [BitVec.toNat_ofNat, Nat.mod_mul]

/-- `Inc` is the integer increment, modulo what four words hold (R635). -/
theorem ctrValue_incFull {w : Nat} (c : Quad w) :
    ctrValue (incFull c) = (ctrValue c + 1) % 2 ^ (4 * w) := by
  calc ctrValue (incFull c) = ctrValue (incFull (ctrOf w (ctrValue c))) := by rw [ctrOf_ctrValue]
    _ = ctrValue (ctrOf w (ctrValue c + 1)) := by rw [incFull_ctrOf]
    _ = (ctrValue c + 1) % 2 ^ (4 * w) := ctrValue_ctrOf w _

theorem incTfr_b256 (c : Quad 64) : incTfr .b256 c = incFull c := rfl

theorem incTfr_b64 (c : Quad 64) : incTfr .b64 c = ⟨c.x0 + 1, c.x1, c.x2, c.x3⟩ := rfl

end Sys2Proof.Machine

namespace Sys2Proof.Proofs

open Sys2Proof Sys2Proof.Machine

/-- Settles O36: a counter is the counter of its value, and `Inc` takes that to the counter of the next
value; at 64 bits `Inc` is the addition on word 0. -/
theorem counterIncrementIsIntegerIncrement : Obligations.CounterIncrementIsIntegerIncrement := by
  refine ⟨fun _ c => ctrValue_incFull c, fun c => ⟨?_, ?_⟩⟩
  · rw [incTfr_b256, ctrValue_incFull]
  · rw [incTfr_b64]
    exact ⟨BitVec.toNat_add c.x0 1, rfl, rfl, rfl⟩

end Sys2Proof.Proofs

/-! PROOFS. The family 45_range.md: the arithmetic of the rejection scheme, what each range command starts,
how the sampler runs to its answer, the bounds of that answer, and the full range: O46, O47, O48, O51 and
O52. -/

namespace Sys2Proof.Machine

/-! ### The rejection scheme -/

theorem scalingOf_pos {k max : Nat} (h : max < 2 ^ k) : 1 ≤ scalingOf k max :=
  Nat.div_pos h (Nat.succ_pos max)

/-- The rejected tail is the remainder of the division that gives the scaling (R650). -/
theorem limitOf_add_tail (k max : Nat) : limitOf k max + 2 ^ k % (max + 1) = 2 ^ k :=
  Nat.div_add_mod _ _

theorem range_le_limitOf {k max : Nat} (h : max < 2 ^ k) : max + 1 ≤ limitOf k max :=
  Nat.le_mul_of_pos_right _ (scalingOf_pos h)

theorem div_le_of_lt_succ_mul {d sc max : Nat} (h : d < (max + 1) * sc) : d / sc ≤ max :=
  Nat.le_of_lt_succ (Nat.div_lt_of_lt_mul (Nat.mul_comm _ sc ▸ h))

/-- The words below the limit whose quotient is `j` are the block of `sc` words from `j * sc` on (R653). -/
theorem lt_and_div_eq_iff {d sc max j : Nat} (hsc : 0 < sc) (hj : j ≤ max) :
    (d < (max + 1) * sc ∧ d / sc = j) ↔ (j * sc ≤ d ∧ d < (j + 1) * sc) := by
  constructor
  · rintro ⟨_, rfl⟩
    exact ⟨Nat.div_mul_le_self d sc, Nat.lt_mul_of_div_lt (Nat.lt_succ_self _) hsc⟩
  · rintro ⟨hlow, hhigh⟩
    have hblock : (j + 1) * sc ≤ (max + 1) * sc := Nat.mul_le_mul_right sc (Nat.succ_le_succ hj)
    exact ⟨hhigh.trans_le hblock, Nat.div_eq_of_lt_le hlow hhigh⟩

/-! ### What a range command starts -/

/-- The sampler registers that `Start(B, off, rw)` loads (R670). -/
def Bound.sampler (b : Bound) (off : Beat) (rw : ResultWidth) : Sampler := ⟨b.ph, b.sc, b.lim, off, rw⟩

theorem start_eq_sampling (b : Bound) (off : Beat) (rw : ResultWidth) (s : State) :
    start b off rw s = .next (s.sampling (b.sampler off rw)) := rfl

@[simp] theorem zext64_toNat (v : U32) : (zext64 v).toNat = v.toNat :=
  BitVec.toNat_setWidth_of_le (by decide)

@[simp] theorem setWidth_zext64 (v : U32) : (zext64 v).setWidth 32 = v := by
  apply BitVec.eq_of_toNat_eq
  rw [BitVec.toNat_setWidth, zext64_toNat, Nat.mod_eq_of_lt v.isLt]

theorem toNat_setWidth_of_narrow {b : Beat} (h : b.toNat < 2 ^ 32) : (b.setWidth 32).toNat = b.toNat := by
  rw [BitVec.toNat_setWidth, Nat.mod_eq_of_lt h]

/-- A 32-bit operand beat is the zero-extension of its low half (R303). -/
theorem zext64_setWidth_of_narrow {b : Beat} (h : b.toNat < 2 ^ 32) : zext64 (b.setWidth 32) = b := by
  apply BitVec.eq_of_toNat_eq
  rw [zext64_toNat, toNat_setWidth_of_narrow h]

section
variable {s : State} {e : Engine} {min max : Beat} {span : Nat} (he : s.eng = some e)
include he

theorem exec_boundedU32 (hmax : max.toNat < 2 ^ 32) :
    exec (.boundedU32 max) s = .next (s.sampling ((bounded32 e max.toNat).sampler 0 .w32)) := by
  rw [exec, execBoundedU32, withEngine_some _ he, withU32_narrow _ _ hmax, start_eq_sampling,
    toNat_setWidth_of_narrow hmax]

theorem exec_rangeU32 (hmin : min.toNat < 2 ^ 32) (hmax : max.toNat < 2 ^ 32)
    (hspan : max.toNat = min.toNat + span) :
    exec (.rangeU32 min max) s = .next (s.sampling ((bounded32 e span).sampler min .w32)) := by
  rw [exec, execRangeU32, withEngine_some _ he, withU32_narrow _ _ hmin, withU32_narrow _ _ hmax,
    toNat_setWidth_of_narrow hmin, toNat_setWidth_of_narrow hmax, if_neg (by omega), start_eq_sampling,
    zext64_setWidth_of_narrow hmin, hspan, Nat.add_sub_cancel_left]

theorem exec_rangeI32 (hmin : min.toNat < 2 ^ 32) (hmax : max.toNat < 2 ^ 32)
    (hspan : (max.setWidth 32).toInt = (min.setWidth 32).toInt + span) :
    exec (.rangeI32 min max) s = .next (s.sampling ((bounded32 e span).sampler min .w32)) := by
  rw [exec, execRangeI32, withEngine_some _ he, withU32_narrow _ _ hmin, withU32_narrow _ _ hmax,
    intOf_eq_toInt (by decide), intOf_eq_toInt (by decide), if_neg (by omega), start_eq_sampling,
    zext64_setWidth_of_narrow hmin, hspan, add_sub_cancel_left, Int.toNat_natCast]

theorem exec_boundedU64 :
    exec (.boundedU64 max) s = .next (s.sampling ((bounded64 s.cfg e max.toNat).sampler 0 .w64)) := by
  rw [exec, execBoundedU64, withEngine_some _ he, start_eq_sampling]

theorem exec_rangeU64 (hspan : max.toNat = min.toNat + span) :
    exec (.rangeU64 min max) s = .next (s.sampling ((bounded64 s.cfg e span).sampler min .w64)) := by
  rw [exec, execRangeU64, withEngine_some _ he, if_neg (by omega), start_eq_sampling, hspan,
    Nat.add_sub_cancel_left]

theorem exec_rangeI64 (hspan : max.toInt = min.toInt + span) :
    exec (.rangeI64 min max) s = .next (s.sampling ((bounded64 s.cfg e span).sampler min .w64)) := by
  rw [exec, execRangeI64, withEngine_some _ he, intOf_eq_toInt (by decide), intOf_eq_toInt (by decide),
    if_neg (by omega), start_eq_sampling, hspan, add_sub_cancel_left, Int.toNat_natCast]

end

section
variable {c : Config} {e : Engine} (max : Nat)

theorem nativeWidth_cases (e : Engine) : nativeWidth e = 32 ∨ nativeWidth e = 64 := by
  cases e with
  | mt32 | pcg32 | philox => exact .inl rfl
  | mt64 | tf20 | tfr => exact .inr rfl

theorem bounded64_of_width64 (hw : nativeWidth e = 64) : bounded64 c e max = boundedNative 64 max :=
  if_neg (by rw [hw]; decide)

theorem bounded64_compose (hw : nativeWidth e = 32) (hmode : c.bounded64Mode = .compose) :
    bounded64 c e max = boundedCompose max := by
  rw [bounded64, if_pos hw, hmode]

theorem bounded64_split (hw : nativeWidth e = 32) (hmode : c.bounded64Mode = .split) :
    bounded64 c e max = boundedSplit max := by
  rw [bounded64, if_pos hw, hmode]

end

theorem boundedSplit_small {max : Nat} (h : max < 2 ^ 32) : boundedSplit max = boundedNative 32 max :=
  if_pos h

theorem boundedSplit_large {max : Nat} (h : 2 ^ 32 ≤ max) :
    boundedSplit max = ⟨.splHi max, scalingOf 32 (max / 2 ^ 32), limitOf 32 (max / 2 ^ 32)⟩ :=
  if_neg (Nat.not_lt.mpr h)

/-! ### A sampler that answers values up to a bound -/

/-- The registers are those of a bounded draw of `max`: the loop that divides has the limit of `max + 1`
ranges of `sc` words, and the SPLIT loop compares with `max` itself (R650, R656, R657). -/
def Sampler.AnswersUpTo (r : Sampler) (max : Nat) : Prop :=
  match r.ph with
  | .nat | .cmpHi | .cmpLo _ => r.lim = (max + 1) * r.sc
  | .splHi mx | .splLo mx _ => mx = max

theorem bounded32_answersUpTo (e : Engine) (max : Nat) (off : Beat) (rw : ResultWidth) :
    ((bounded32 e max).sampler off rw).AnswersUpTo max := rfl

theorem bounded64_answersUpTo (c : Config) (e : Engine) (max : Nat) (off : Beat) (rw : ResultWidth) :
    ((bounded64 c e max).sampler off rw).AnswersUpTo max := by
  unfold bounded64
  split
  · split
    · unfold boundedSplit
      split <;> rfl
    · rfl
  · rfl

/-- A decision answers a value up to the bound, or goes on with registers of the same bound. -/
theorem samplerDecide_answersUpTo {r : Sampler} {max : Nat} (h : r.AnswersUpTo max) (d : Nat) (s : State) :
    (∃ x, x ≤ max ∧ samplerDecide r d s = finish r x s) ∨
    ∃ ph, samplerDecide r d s = goOn r ph s ∧ Sampler.AnswersUpTo { r with ph := ph } max := by
  cases hph : r.ph with simp only [Sampler.AnswersUpTo, hph] at h
  | nat =>
    rw [samplerDecide_nat d s hph]
    split
    · next hlt => exact .inl ⟨_, div_le_of_lt_succ_mul (h ▸ hlt), rfl⟩
    · exact .inr ⟨_, rfl, h⟩
  | splHi mx =>
    rw [samplerDecide_splHi d s hph]
    split
    · exact .inr ⟨_, rfl, h⟩
    · exact .inr ⟨_, rfl, h⟩
  | splLo mx hi =>
    rw [samplerDecide_splLo d s hph]
    split
    · next hle => exact .inl ⟨_, h ▸ hle, rfl⟩
    · exact .inr ⟨_, rfl, h⟩
  | cmpHi =>
    rw [samplerDecide_cmpHi d s hph]
    exact .inr ⟨_, rfl, h⟩
  | cmpLo hi =>
    rw [samplerDecide_cmpLo d s hph]
    split
    · next hlt => exact .inl ⟨_, div_le_of_lt_succ_mul (h ▸ hlt), rfl⟩
    · exact .inr ⟨_, rfl, h⟩

/-! ### The result beat between the bounds -/

theorem resultBeat_w64 {r : Sampler} (hrw : r.rw = .w64) (x : Nat) :
    resultBeat r x = r.off + BitVec.ofNat 64 x := by
  apply BitVec.eq_of_toNat_eq
  simp [resultBeat, hrw, resultBits]

theorem resultBeat_w32 {r : Sampler} {lo : U32} (hrw : r.rw = .w32) (hoff : r.off = zext64 lo) (x : Nat) :
    resultBeat r x = zext64 (lo + BitVec.ofNat 32 x) := by
  apply BitVec.eq_of_toNat_eq
  simp only [resultBeat, hrw, hoff, resultBits, zext64, BitVec.toNat_ofNat, BitVec.toNat_add,
    BitVec.toNat_setWidth]
  omega

/-- Adding at most the span to the lower bound does not wrap (R658). -/
theorem toNat_add_ofNat_of_le {w : Nat} {lo hi : BitVec w} {x : Nat} (h : lo.toNat + x ≤ hi.toNat) :
    (lo + BitVec.ofNat w x).toNat = lo.toNat + x := by
  have hlt : lo.toNat + x < 2 ^ w := h.trans_lt hi.isLt
  rw [BitVec.toNat_add, BitVec.toNat_ofNat, Nat.add_mod_mod, Nat.mod_eq_of_lt hlt]

/-- The same for signed bounds: the patterns' sum is the pattern of the sum in ℤ (R659). -/
theorem toInt_add_ofNat_of_le {w : Nat} (hw : 0 < w) {lo hi : BitVec w} {x : Nat}
    (h : lo.toInt + x ≤ hi.toInt) : (lo + BitVec.ofNat w x).toInt = lo.toInt + x := by
  have hsum : lo + BitVec.ofNat w x = BitVec.ofInt w (lo.toInt + x) := by
    rw [BitVec.ofInt_add, BitVec.ofInt_toInt, BitVec.ofInt_natCast]
  rw [hsum]
  have hlow : -2 ^ (w - 1) ≤ lo.toInt := lo.le_toInt
  exact BitVec.toInt_ofInt_eq_self hw (by omega) (h.trans_lt hi.toInt_lt)

/-- The sampler answers only results that lie between the bounds of command `i`. -/
def Sampler.AnswersWithin (r : Sampler) (i : Instr) : Prop :=
  ∃ max, r.AnswersUpTo max ∧ ∀ x, x ≤ max → ResultIn i (resultBeat r x)

/-- If command `i` from `s` ends with the sampler active, all it did is start a sampler that answers
within the command's bounds. -/
def StartsWithin (i : Instr) (s : State) (res : Result) : Prop :=
  ∀ t, res = .next t → t.smp ≠ .idle → ∃ r, t = s.sampling r ∧ r.AnswersWithin i

section
variable {i : Instr} {s : State}

theorem raise_startsWithin (err : Err) : StartsWithin i s (.next (raise err s)) := by
  intro t ht hactive
  obtain rfl := Host.Outcome.next.inj ht
  exact absurd (raise_smp err s) hactive

theorem check_startsWithin {p : Prop} [Decidable p] {res : Result} (h : ¬ p → StartsWithin i s res) :
    StartsWithin i s (if p then failWith .arg s else res) := by
  split
  · exact raise_startsWithin .arg
  · next hp => exact h hp

theorem withEngine_startsWithin {k : Engine → Result} (h : ∀ e, StartsWithin i s (k e)) :
    StartsWithin i s (withEngine s k) := by
  unfold withEngine
  split
  · exact raise_startsWithin .ncon
  · exact h _

theorem withU32_startsWithin {b : Beat} {k : U32 → Result}
    (h : ∀ v, b = zext64 v → StartsWithin i s (k v)) : StartsWithin i s (withU32 b s k) := by
  rcases Nat.lt_or_ge b.toNat (2 ^ 32) with hnarrow | hwide
  · rw [withU32_narrow s k hnarrow]
    exact h _ (zext64_setWidth_of_narrow hnarrow).symm
  · rw [withU32_wide s k hwide]
    exact raise_startsWithin .arg

theorem start32_startsWithin {e : Engine} {max : Nat} {lo : U32}
    (h : ∀ x, x ≤ max → ResultIn i (zext64 (lo + BitVec.ofNat 32 x))) :
    StartsWithin i s (start (bounded32 e max) (zext64 lo) .w32 s) := by
  intro t ht _
  refine ⟨_, (Host.Outcome.next.inj ht).symm, max, bounded32_answersUpTo e max _ _, fun x hx => ?_⟩
  rw [resultBeat_w32 rfl rfl]
  exact h x hx

theorem start64_startsWithin {e : Engine} {max : Nat} {lo : Beat}
    (h : ∀ x, x ≤ max → ResultIn i (lo + BitVec.ofNat 64 x)) :
    StartsWithin i s (start (bounded64 s.cfg e max) lo .w64 s) := by
  intro t ht _
  refine ⟨_, (Host.Outcome.next.inj ht).symm, max, bounded64_answersUpTo s.cfg e max _ _, fun x hx => ?_⟩
  rw [resultBeat_w64 rfl]
  exact h x hx

end

/-- Every range command that starts the sampler starts one that answers within its bounds (R658, R659). -/
theorem exec_startsWithin {i : Instr} (hi : isRange i = true) (s : State) :
    StartsWithin i s (exec i s) := by
  cases i with
  | boundedU32 max =>
    refine withEngine_startsWithin fun e => withU32_startsWithin fun m hm =>
      start32_startsWithin (lo := 0) fun x hx => ?_
    have hle : (0 : U32).toNat + x ≤ m.toNat := by simpa using hx
    simp only [ResultIn, hm, zext64_toNat, toNat_add_ofNat_of_le hle]
    omega
  | boundedU64 max =>
    refine withEngine_startsWithin fun e => start64_startsWithin fun x hx => ?_
    have hle : (0 : Beat).toNat + x ≤ max.toNat := by simpa using hx
    simp only [ResultIn, toNat_add_ofNat_of_le hle]
    omega
  | rangeU32 min max =>
    refine withEngine_startsWithin fun e => withU32_startsWithin fun lo hlo =>
      withU32_startsWithin fun hi hhi => check_startsWithin fun horder =>
        start32_startsWithin fun x hx => ?_
    have hle : lo.toNat + x ≤ hi.toNat := by omega
    simp only [ResultIn, hlo, hhi, zext64_toNat, toNat_add_ofNat_of_le hle]
    exact ⟨Nat.le_add_right _ _, hle⟩
  | rangeU64 min max =>
    refine withEngine_startsWithin fun e => check_startsWithin fun horder =>
      start64_startsWithin fun x hx => ?_
    have hle : min.toNat + x ≤ max.toNat := by omega
    simp only [ResultIn, toNat_add_ofNat_of_le hle]
    exact ⟨Nat.le_add_right _ _, hle⟩
  | rangeI32 min max =>
    refine withEngine_startsWithin fun e => withU32_startsWithin fun lo hlo =>
      withU32_startsWithin fun hi hhi => check_startsWithin fun horder =>
        start32_startsWithin fun x hx => ?_
    rw [intOf_eq_toInt (by decide), intOf_eq_toInt (by decide)] at horder hx
    have hle : lo.toInt + x ≤ hi.toInt := by omega
    simp only [ResultIn, hlo, hhi, setWidth_zext64, toInt_add_ofNat_of_le (by decide) hle]
    exact ⟨zext64_toNat_lt _, by omega, hle⟩
  | rangeI64 min max =>
    refine withEngine_startsWithin fun e => check_startsWithin fun horder =>
      start64_startsWithin fun x hx => ?_
    rw [intOf_eq_toInt (by decide), intOf_eq_toInt (by decide)] at horder hx
    have hle : min.toInt + x ≤ max.toInt := by omega
    simp only [ResultIn, toInt_add_ofNat_of_le (by decide) hle]
    exact ⟨by omega, hle⟩
  | _ => exact absurd hi Bool.false_ne_true

/-! ### The run of a range command -/

theorem core_run_succ_next {k : Nat} {s u : State} (h : Sys2Proof.core.run (k + 1) s = .next u) :
    ∃ t, step s = .next t ∧ Sys2Proof.core.run k t = .next u := by
  cases hstep : step s with
  | next t => exact ⟨t, rfl, core_run_succ hstep k ▸ h⟩
  | fault f =>
    have hcore : Sys2Proof.core.step s = .fault f := hstep
    simp [Host.Core.run, hcore] at h
  | refused f =>
    have hcore : Sys2Proof.core.step s = .refused f := hstep
    simp [Host.Core.run, hcore] at h

/-- A sampler that answers within the bounds of command `i` is at work, with `queued` in CMDQ, `sent` in
RSPQ and no response under way. -/
structure Sampling (i : Instr) (queued sent : List Beat) (s : State) : Prop where
  cmdq : s.cmdq = queued
  rspq : s.rspq = sent
  rspPend : s.rspPend = []
  active : ∃ r, s.smp = .active r ∧ r.AnswersWithin i

/-- The sampler of command `i` has answered within the command's bounds, behind the beats `sent`. -/
structure Answered (i : Instr) (queued sent : List Beat) (s : State) : Prop where
  cmdq : s.cmdq = queued
  idle : s.smp = .idle
  response : ∃ x, s.rspq ++ s.rspPend = sent ++ [0, x] ∧ ResultIn i x

section
variable {i : Instr} {queued sent : List Beat} {s t u : State}

/-- A step of the active sampler draws and goes on, or answers (R670); a full RSPQ holds it (R212). -/
theorem Sampling.after_step (hs : Sampling i queued sent s) (hstep : step s = .next t) :
    Sampling i queued sent t ∨ Answered i queued sent t := by
  obtain ⟨hcmdq, hrspq, hpend, r, hactive, max, hup, hwithin⟩ := hs
  cases hfull : rspFull s with
  | true =>
    obtain rfl : s = t := Host.Outcome.next.inj ((step_full hfull).symm.trans hstep)
    exact .inl ⟨hcmdq, hrspq, hpend, r, hactive, max, hup, hwithin⟩
  | false =>
    have hfetch := fetch_sample hfull hpend hactive
    rw [step, hfetch] at hstep
    cases hslot : s.eng with
    | none => simp [samplerStep, hslot] at hstep
    | some e =>
      simp only [samplerStep, hslot] at hstep
      obtain rfl := Host.Outcome.next.inj hstep
      obtain ⟨x, hx, hfin⟩ | ⟨ph, hgo, hph⟩ := samplerDecide_answersUpTo hup
        (rawDraw s.cfg e).1.toNat { s with eng := some (rawDraw s.cfg e).2 }
      · rw [hfin]
        refine .inr ⟨hcmdq, finish_smp _ _ _, resultBeat r x, ?_, hwithin x hx⟩
        rw [finish, respond_stream, hrspq, hpend, List.append_nil, statusOk]
      · rw [hgo]
        exact .inl ⟨hcmdq, hrspq, hpend, _, goOn_smp _ _ _, max, hph, hwithin⟩

/-- With no packet queued, a unit that has answered can only send what waits of its response (R212). -/
theorem Answered.after_step (hs : Answered i [] sent s) (hstep : step s = .next t) : Answered i [] sent t := by
  obtain ⟨hcmdq, hidle, x, hstream, hx⟩ := hs
  obtain hfull | ⟨hfull, hpend⟩ | ⟨r, _, _, hactive⟩ | hready := port_cases s
  · obtain rfl : s = t := Host.Outcome.next.inj ((step_full hfull).symm.trans hstep)
    exact ⟨hcmdq, hidle, x, hstream, hx⟩
  · rw [step, fetch_pending hfull hpend] at hstep
    obtain rfl := Host.Outcome.next.inj hstep
    exact ⟨hcmdq, hidle, x, by rw [pushResponse_stream, List.append_nil, hstream], hx⟩
  · rw [hidle] at hactive
    contradiction
  · rw [step, fetch_ready hready, hcmdq] at hstep
    obtain rfl : s = t := Host.Outcome.next.inj hstep
    exact ⟨hcmdq, hidle, x, hstream, hx⟩

theorem Answered.after_run (k : Nat) (hs : Answered i [] sent s)
    (hrun : Sys2Proof.core.run k s = .next u) : Answered i [] sent u := by
  induction k generalizing s with
  | zero => exact Host.Outcome.next.inj hrun ▸ hs
  | succ k ih =>
    obtain ⟨t, hstep, hrest⟩ := core_run_succ_next hrun
    exact ih (hs.after_step hstep) hrest

/-- The first idle state of the run has the answer, and so has every later one while CMDQ is empty. -/
theorem Sampling.after_run (k : Nat) (hs : Sampling i queued sent s)
    (hrun : Sys2Proof.core.run k s = .next u) (hidle : u.smp = .idle)
    (honly : queued = [] ∨ ∀ j v, j < k → Sys2Proof.core.run j s = .next v → v.smp ≠ .idle) :
    Answered i queued sent u := by
  induction k generalizing s with
  | zero =>
    obtain rfl := Host.Outcome.next.inj hrun
    obtain ⟨r, hactive, _⟩ := hs.active
    rw [hidle] at hactive
    contradiction
  | succ k ih =>
    obtain ⟨t, hstep, hrest⟩ := core_run_succ_next hrun
    obtain hsampling | hanswered := hs.after_step hstep
    · refine ih hsampling hrest (honly.imp_right fun hfirst j v hj hv => ?_)
      exact hfirst (j + 1) v (Nat.succ_lt_succ hj) ((core_run_succ hstep j).trans hv)
    · obtain rfl | hfirst := honly
      · exact hanswered.after_run k hrest
      · cases k with
        | zero => exact Host.Outcome.next.inj hrest ▸ hanswered
        | succ k =>
          have hbusy := hfirst 1 t (Nat.succ_lt_succ (Nat.succ_pos k)) (core_run_succ hstep 0)
          exact absurd hanswered.idle hbusy

end

/-! ### The full range -/

theorem scalingOf_full (k : Nat) : scalingOf k (2 ^ k - 1) = 1 := by
  rw [scalingOf, Nat.sub_add_cancel Nat.one_le_two_pow, Nat.div_self (Nat.two_pow_pos k)]

theorem limitOf_full (k : Nat) : limitOf k (2 ^ k - 1) = 2 ^ k := by
  rw [limitOf, scalingOf_full, Nat.mul_one, Nat.sub_add_cancel Nat.one_le_two_pow]

/-- With offset 0 and a word of the result width, the result beat is that word. -/
theorem resultBeat_of_toNat {r : Sampler} {v : Beat} (hoff : r.off = 0)
    (hv : v.toNat < 2 ^ resultBits r.rw) : resultBeat r v.toNat = v := by
  have hzero : (0 : Beat).toNat = 0 := rfl
  rw [resultBeat, hoff, hzero, Nat.zero_add, Nat.mod_eq_of_lt hv, BitVec.ofNat_toNat, BitVec.setWidth_eq]

section
variable {s : State} {r : Sampler} {e : Engine} {v : Beat}

/-- A sampler that answers the word `v` leaves nothing but that word and the drawn engine in a unit whose
SMP was IDLE. -/
theorem finish_sampling (hidle : s.smp = .idle) (hoff : r.off = 0) (hv : v.toNat < 2 ^ resultBits r.rw)
    (slot : Option Engine) :
    finish r v.toNat { s.sampling r with eng := slot } = pushResponse { s with eng := slot } [0, v] := by
  rw [finish, resultBeat_of_toNat hoff hv, ← hidle]
  rfl

/-- The native loop accepts its first draw when no word reaches the limit. -/
theorem run_accepting_loop (hready : s.Ready) (hslot : s.eng = some e) (hph : r.ph = .nat)
    (hlim : r.lim = 2 ^ nativeWidth e) (hoff : r.off = 0) (hv : v.toNat < 2 ^ resultBits r.rw)
    (hquot : (rawDraw s.cfg e).1.toNat / r.sc = v.toNat) :
    Sys2Proof.core.run 1 (s.sampling r) =
      .next (pushResponse { s with eng := some (rawDraw s.cfg e).2 } [0, v]) := by
  obtain ⟨hfull, hpend, hidle⟩ := hready
  have haccept : (wordAt s.cfg 0 e).toNat < r.lim := hlim ▸ wordAt_toNat_lt s.cfg 0 e
  rw [← finish_sampling hidle hoff hv, ← hquot]
  exact run_native_loop (s := s.sampling r) hph 0 hfull hpend rfl hslot nofun haccept

/-- A sampler that goes on after its first draw and answers after its second ends in two steps. -/
theorem run_two_draws {ph : Phase} (hready : s.Ready) (hslot : s.eng = some e)
    (hoff : r.off = 0) (hv : v.toNat < 2 ^ resultBits r.rw)
    (hfirst : ∀ t, samplerDecide r (wordAt s.cfg 0 e).toNat t = goOn r ph t)
    (hsecond : ∀ t, samplerDecide { r with ph := ph } (wordAt s.cfg 1 e).toNat t =
      finish { r with ph := ph } v.toNat t) :
    Sys2Proof.core.run 2 (s.sampling r) =
      .next (pushResponse { s with eng := some (engineAfter s.cfg 2 e) } [0, v]) := by
  obtain ⟨hfull, hpend, hidle⟩ := hready
  have hstep1 := step_sampling (s := s.sampling r) hfull hpend rfl hslot
  have hstep2 := step_sampling (s := goOn r ph { s.sampling r with eng := some (rawDraw s.cfg e).2 })
    hfull hpend rfl rfl
  rw [show (rawDraw (s.sampling r).cfg e).1 = wordAt s.cfg 0 e from rfl, hfirst] at hstep1
  rw [goOn_cfg, show (rawDraw (s.sampling r).cfg (rawDraw s.cfg e).2).1 = wordAt s.cfg 1 e from rfl,
    hsecond] at hstep2
  rw [core_run_succ hstep1, ← finish_sampling hidle hoff hv]
  exact core_run_succ hstep2 0

/-- BOUNDED_U64 of `2 ^ 64 - 1` on a 64-bit engine: scaling 1 and limit `2 ^ 64` (R651). -/
theorem run_fullRange64_width64 (hready : s.Ready) (hslot : s.eng = some e) (hw : nativeWidth e = 64) :
    Sys2Proof.core.run 1 (s.sampling ((bounded64 s.cfg e (2 ^ 64 - 1)).sampler 0 .w64)) =
      exec .nextU64 s := by
  have hlim : limitOf 64 (2 ^ 64 - 1) = 2 ^ nativeWidth e := by rw [limitOf_full, hw]
  have hquot : (rawDraw s.cfg e).1.toNat / scalingOf 64 (2 ^ 64 - 1) = (rawDraw s.cfg e).1.toNat := by
    rw [scalingOf_full, Nat.div_one]
  rw [bounded64_of_width64 _ hw, exec_nextU64 hslot, nextWord64_of_width64 _ hw]
  exact run_accepting_loop hready hslot rfl hlim rfl (rawDraw s.cfg e).1.isLt hquot

/-- BOUNDED_U64 of `2 ^ 64 - 1` on a 32-bit engine: each construction accepts any two words, the first
high (R656, R657). -/
theorem run_fullRange64_width32 (hready : s.Ready) (hslot : s.eng = some e) (hw : nativeWidth e = 32) :
    Sys2Proof.core.run 2 (s.sampling ((bounded64 s.cfg e (2 ^ 64 - 1)).sampler 0 .w64)) =
      exec .nextU64 s := by
  have hfirst : (wordAt s.cfg 0 e).toNat < 2 ^ 32 := hw ▸ wordAt_toNat_lt s.cfg 0 e
  have hjoin := joinWords_toNat hfirst (hw ▸ wordAt_toNat_lt s.cfg 1 e)
  have hjoined := (joinWords (wordAt s.cfg 0 e) (wordAt s.cfg 1 e)).isLt
  rw [exec_nextU64 hslot, nextWord64_of_width32 _ hw]
  cases hmode : s.cfg.bounded64Mode with
  | split =>
    have hhigh : (2 ^ 64 - 1) / 2 ^ 32 = 2 ^ 32 - 1 := rfl
    rw [bounded64_split _ hw hmode, boundedSplit_large (by decide), hhigh, scalingOf_full, limitOf_full]
    refine run_two_draws (ph := .splLo (2 ^ 64 - 1) (wordAt s.cfg 0 e).toNat) hready hslot rfl hjoined
      (fun t => ?_) (fun t => ?_)
    · rw [samplerDecide_splHi _ t rfl, Bound.sampler, if_pos hfirst, Nat.div_one]
    · rw [Bound.sampler, samplerDecide_splLo _ t rfl, ← hjoin, if_pos (Nat.le_sub_one_of_lt hjoined)]
  | compose =>
    rw [bounded64_compose _ hw hmode, boundedCompose, scalingOf_full, limitOf_full]
    refine run_two_draws (ph := .cmpLo (wordAt s.cfg 0 e).toNat) hready hslot rfl hjoined
      (fun t => ?_) (fun t => ?_)
    · rw [samplerDecide_cmpHi _ t rfl]
    · rw [Bound.sampler, samplerDecide_cmpLo _ t rfl, ← hjoin, if_pos hjoined, Nat.div_one]

end

/-- The quotient of a raw word by the scaling of the full 32-bit range is NextU32's word (R454, R651). -/
theorem rawDraw_div_scalingOf (c : Config) (e : Engine) :
    (rawDraw c e).1.toNat / scalingOf (nativeWidth e) (2 ^ 32 - 1) = (nextWord32 c e).1.toNat := by
  rcases nativeWidth_cases e with hw | hw
  · rw [hw, scalingOf_full, Nat.div_one, nextWord32_of_width32 c hw]
  · rw [hw, nextWord32_of_width64 c hw]
    rfl

theorem limitOf_fullRange32 (e : Engine) : limitOf (nativeWidth e) (2 ^ 32 - 1) = 2 ^ nativeWidth e := by
  rcases nativeWidth_cases e with hw | hw
  · rw [hw, limitOf_full]
  · rw [hw]
    rfl

theorem nextWord32_toNat_lt (c : Config) (e : Engine) : (nextWord32 c e).1.toNat < 2 ^ 32 := by
  rcases nativeWidth_cases e with hw | hw
  · rw [nextWord32_of_width32 c hw]
    exact hw ▸ rawDraw_toNat_lt c e
  · rw [nextWord32_of_width64 c hw]
    omega

/-- BOUNDED_U32 of `2 ^ 32 - 1`, on an engine of either width (R651). -/
theorem run_fullRange32 {s : State} {e : Engine} (hready : s.Ready) (hslot : s.eng = some e) :
    Sys2Proof.core.run 1 (s.sampling ((bounded32 e (2 ^ 32 - 1)).sampler 0 .w32)) =
      exec .nextU32 s := by
  rw [exec_nextU32 hslot, nextWord32_snd]
  exact run_accepting_loop hready hslot rfl (limitOf_fullRange32 e) rfl (nextWord32_toNat_lt s.cfg e)
    (rawDraw_div_scalingOf s.cfg e)

end Sys2Proof.Machine

namespace Sys2Proof.Proofs

open Sys2Proof Sys2Proof.Machine

/-- Settles O46: the tail is a remainder, and the words below the limit fall into blocks of equal length. -/
theorem rejectionSchemeIsUnbiased : Obligations.RejectionSchemeIsUnbiased := by
  intro k max hmax
  have htail : 2 ^ k % (max + 1) < max + 1 := Nat.mod_lt _ (Nat.succ_pos max)
  have hsplit := limitOf_add_tail k max
  have hrange := range_le_limitOf hmax
  exact ⟨scalingOf_pos hmax, by omega, by omega, by omega, fun _ => div_le_of_lt_succ_mul,
    fun _ _ => lt_and_div_eq_iff (scalingOf_pos hmax)⟩

/-- Settles O47: the operands pass the checks, and `Bounded32` is the native loop. -/
theorem range32CommandsStartTheNativeLoop : Obligations.Range32CommandsStartTheNativeLoop :=
  fun _ _ _ _ he hmin hmax => ⟨exec_boundedU32 he hmax, fun _ => exec_rangeU32 he hmin hmax,
    fun _ => exec_rangeI32 he hmin hmax⟩

/-- Settles O48: the three commands start `Bounded64` of the span, which is then read off for each engine
width and construction. -/
theorem range64CommandsStartTheBoundedDraw : Obligations.Range64CommandsStartTheBoundedDraw := by
  intro s e min max off span i he hi
  have hstart : exec i s = .next (s.sampling ((bounded64 s.cfg e span).sampler off .w64)) := by
    obtain ⟨rfl, rfl, rfl⟩ | ⟨rfl, hspan, rfl⟩ | ⟨rfl, hspan, rfl⟩ := hi
    · exact exec_boundedU64 he
    · exact exec_rangeU64 he hspan
    · exact exec_rangeI64 he hspan
  rw [hstart]
  refine ⟨fun hw => ?_, fun hw hmode => ?_, fun hw hmode hsmall => ?_, fun hw hmode hlarge => ?_⟩
  · rw [bounded64_of_width64 span hw]
    rfl
  · rw [bounded64_compose span hw hmode]
    rfl
  · rw [bounded64_split span hw hmode, boundedSplit_small hsmall]
    rfl
  · rw [bounded64_split span hw hmode, boundedSplit_large hlarge]
    rfl

/-- Settles O51, by induction on the steps of the sampler that the command started. -/
theorem rangeResultsLieBetweenTheBounds : Obligations.RangeResultsLieBetweenTheBounds := by
  rintro i s t u k hi ⟨_, hpend, _⟩ hexec hactive hrun hidle honly
  obtain ⟨r, rfl, hwithin⟩ := exec_startsWithin hi s t hexec hactive
  have hsampling : Sampling i s.cmdq s.rspq (s.sampling r) := ⟨rfl, rfl, hpend, r, rfl, hwithin⟩
  exact (hsampling.after_run k hrun hidle honly).response

/-- Settles O52, by the engine's width: at full range no draw is rejected. -/
theorem fullRangeIdentity : Obligations.FullRangeIdentity := by
  refine fun s e hready he => ⟨⟨_, exec_boundedU64 he, ?_⟩, ⟨_, exec_boundedU32 he (by decide), ?_⟩⟩
  · rcases nativeWidth_cases e with hw | hw
    · rw [if_pos hw]
      exact run_fullRange64_width32 hready he hw
    · rw [if_neg (by rw [hw]; decide)]
      exact run_fullRange64_width64 hready he hw
  · exact run_fullRange32 hready he

end Sys2Proof.Proofs

/-! PROOFS. The family 46_control.md: which errors a command can raise, and from where: O19. -/

namespace Sys2Proof.Machine

/-! ### Errors told apart from each other and from success -/

theorem errCode_injective : Function.Injective errCode := by
  intro e e'
  cases e <;> cases e' <;> decide

theorem statusOk_ne_errCode (e : Err) : statusOk ≠ errCode e := by
  cases e <;> decide

section
variable {s : State}

/-- The status beat tells the errors apart, whatever STATUS held before (R750). -/
theorem raise_inj {e e' : Err} : raise e s = raise e' s ↔ e = e' := by
  refine ⟨fun h => errCode_injective ?_, fun h => h ▸ rfl⟩
  have hstream : s.rspq ++ s.rspPend ++ [errCode e] = s.rspq ++ s.rspPend ++ [errCode e'] := by
    rw [← raise_stream, h, raise_stream]
  exact List.singleton_inj.mp (List.append_cancel_left hstream)

/-- An OK response of a command, whatever it changed in the seed buffer and the engine slot, has another
status beat than an error (R306). -/
theorem respond_ne_raise (sb : List Beat) (eng : Option Engine) (rs : List Beat) (e : Err) :
    respond { s with sb := sb, eng := eng } rs ≠ raise e s := by
  intro h
  have hstream : s.rspq ++ s.rspPend ++ (statusOk :: rs) = s.rspq ++ s.rspPend ++ [errCode e] := by
    rw [← raise_stream, ← h, respond_stream]
  exact statusOk_ne_errCode e (List.cons.inj (List.append_cancel_left hstream)).1

/-- An error leaves the sampler idle (R752). -/
theorem sampling_ne_raise (r : Sampler) (e : Err) : s.sampling r ≠ raise e s := fun h => by
  have hsmp : Smp.active r = .idle := by rw [← sampling_smp s r, h, raise_smp]
  cases hsmp

theorem failWith_eq_raise_iff {e e' : Err} : failWith e s = .next (raise e' s) ↔ e = e' := by
  rw [failWith, Host.Outcome.next.injEq, raise_inj]

/-! ### The errors of the shared checks -/

/-- If the result is an error of `s`, it is one of those that the checks shared by the commands raise:
ArgumentError and NotConstructed (R755, R756). -/
def RaisesOnlyCheckErrors (s : State) (res : Result) : Prop :=
  ∀ e, res = .next (raise e s) → e = .arg ∨ e = .ncon

theorem failArg_checkErrors : RaisesOnlyCheckErrors s (failWith .arg s) :=
  fun _ h => .inl (failWith_eq_raise_iff.mp h).symm

theorem failNcon_checkErrors : RaisesOnlyCheckErrors s (failWith .ncon s) :=
  fun _ h => .inr (failWith_eq_raise_iff.mp h).symm

theorem respond_checkErrors (sb : List Beat) (eng : Option Engine) (rs : List Beat) :
    RaisesOnlyCheckErrors s (.next (respond { s with sb := sb, eng := eng } rs)) :=
  fun e h => absurd (Host.Outcome.next.inj h) (respond_ne_raise sb eng rs e)

theorem answer_checkErrors (rs : List Beat) : RaisesOnlyCheckErrors s (answer s rs) :=
  respond_checkErrors s.sb s.eng rs

theorem construct_checkErrors (e : Engine) : RaisesOnlyCheckErrors s (construct e s) :=
  respond_checkErrors s.sb (some e) []

theorem answerDraw_checkErrors (r : Beat) (e : Engine) : RaisesOnlyCheckErrors s (answerDraw s r e) :=
  respond_checkErrors s.sb (some e) [r]

theorem start_checkErrors (b : Bound) (off : Beat) (width : ResultWidth) :
    RaisesOnlyCheckErrors s (start b off width s) :=
  fun e h => absurd (Host.Outcome.next.inj h) (sampling_ne_raise _ e)

theorem check_checkErrors {p : Prop} [Decidable p] {res : Result} (h : RaisesOnlyCheckErrors s res) :
    RaisesOnlyCheckErrors s (if p then failWith .arg s else res) := by
  split
  · exact failArg_checkErrors
  · exact h

theorem withEngine_checkErrors {k : Engine → Result} (h : ∀ e, RaisesOnlyCheckErrors s (k e)) :
    RaisesOnlyCheckErrors s (withEngine s k) := by
  unfold withEngine
  split
  · exact failNcon_checkErrors
  · exact h _

theorem withU32_checkErrors {b : Beat} {k : U32 → Result} (h : ∀ v, RaisesOnlyCheckErrors s (k v)) :
    RaisesOnlyCheckErrors s (withU32 b s k) := by
  unfold withU32
  split
  · exact failArg_checkErrors
  · exact h _

theorem withKey32_checkErrors {k : List U32 → Result} (h : ∀ key, RaisesOnlyCheckErrors s (k key)) :
    RaisesOnlyCheckErrors s (withKey32 s k) := by
  refine check_checkErrors ?_
  split
  · exact failArg_checkErrors
  · exact h _

theorem withKey64_checkErrors {k : List U64 → Result} (h : ∀ key, RaisesOnlyCheckErrors s (k key)) :
    RaisesOnlyCheckErrors s (withKey64 s k) := check_checkErrors (h _)

theorem withLength_checkErrors {n : Beat} {k : Nat → Result} (h : ∀ len, RaisesOnlyCheckErrors s (k len)) :
    RaisesOnlyCheckErrors s (withLength n s k) := check_checkErrors (h _)

theorem withArrayLength_checkErrors {n : Beat} {k : Nat → Result}
    (h : ∀ len, RaisesOnlyCheckErrors s (k len)) :
    RaisesOnlyCheckErrors s (withArrayLength n s k) := check_checkErrors (h _)

theorem arrayAnswer_checkErrors (n : Nat) (out : List Beat) :
    RaisesOnlyCheckErrors s (if n = 0 then answer s [] else answer s out) := by
  split
  · exact answer_checkErrors _
  · exact answer_checkErrors _

/-! ### The errors of the commands -/

/-- SEED_PUSH fails only with SeedFull, and only over a full buffer (R401, R758). -/
theorem seedPush_raise_iff {v : Beat} {e : Err} :
    exec (.seedPush v) s = .next (raise e s) ↔ e = .sfull ∧ s.sb.length = s.cfg.seedCap := by
  rw [exec, execSeedPush]
  split
  · next hfull => rw [failWith_eq_raise_iff, eq_comm, and_iff_left hfull]
  · next hroom =>
    exact ⟨fun h => absurd (Host.Outcome.next.inj h) (respond_ne_raise (s.sb ++ [v]) s.eng [] e),
      fun ⟨_, hfull⟩ => absurd hfull hroom⟩

/-- The register map gives no value exactly for the numbers above 5 (R130). -/
theorem readRegister_eq_none_iff {reg : BitVec 8} : readRegister s reg = none ↔ 5 < reg.toNat := by
  refine ⟨fun h => Nat.lt_of_not_le fun hle => ?_, readRegister_unmapped s⟩
  unfold readRegister at h
  interval_cases reg.toNat
  all_goals cases h

/-- READ_REG fails only with IllegalCommand, and only outside the register map (R701, R757). -/
theorem readReg_raise_iff {reg : BitVec 8} {e : Err} :
    exec (.readReg reg) s = .next (raise e s) ↔ e = .ill ∧ 5 < reg.toNat := by
  rw [exec, execReadReg, ← readRegister_eq_none_iff (s := s)]
  split
  · next hnone => rw [failWith_eq_raise_iff, eq_comm, and_iff_left hnone]
  · next v hsome =>
    exact ⟨fun h => absurd (Host.Outcome.next.inj h) (respond_ne_raise s.sb s.eng [v] e),
      fun ⟨_, hnone⟩ => by rw [hnone] at hsome; cases hsome⟩

/-- Every command but SEED_PUSH and READ_REG consists of the shared checks and one of the ends that raise
nothing. -/
theorem exec_checkErrors {i : Instr} (hpush : ∀ v, i ≠ .seedPush v) (hread : ∀ reg, i ≠ .readReg reg) :
    RaisesOnlyCheckErrors s (exec i s) := by
  cases i with simp only [exec]
  | seedPush v => exact absurd rfl (hpush v)
  | readReg reg => exact absurd rfl (hread reg)
  | nop | normCanon w | normCanonInc w | normCanonSym w => exact answer_checkErrors _
  | seedClear => exact respond_checkErrors [] s.eng []
  | ssIgr32 seed n =>
    exact withU32_checkErrors fun v => withLength_checkErrors fun len => answer_checkErrors _
  | ssIgr64 seed n => exact withLength_checkErrors fun len => answer_checkErrors _
  | ssIba32 n =>
    exact withKey32_checkErrors fun key => withArrayLength_checkErrors fun len =>
      arrayAnswer_checkErrors _ _
  | ssIba64 n =>
    exact withKey64_checkErrors fun key => withArrayLength_checkErrors fun len =>
      arrayAnswer_checkErrors _ _
  | ssSseq32 n =>
    exact withKey32_checkErrors fun v => withLength_checkErrors fun len => answer_checkErrors _
  | mt32Seed seed => exact withU32_checkErrors fun v => construct_checkErrors _
  | mt32SeedArray | mt32SeedSeq => exact withKey32_checkErrors fun key => construct_checkErrors _
  | mt64SeedArray => exact withKey64_checkErrors fun key => construct_checkErrors _
  | mt64Seed seed | tf20Seed k0 k1 k2 k3 | tfrSeed k0 k1 k2 k3 => exact construct_checkErrors _
  | pcg32Seed initstate stream => exact check_checkErrors (construct_checkErrors _)
  | philoxSeed k0 k1 =>
    exact withU32_checkErrors fun a => withU32_checkErrors fun b => construct_checkErrors _
  | nextU32 | nextU64 | canon | canonInc | canonSym =>
    exact withEngine_checkErrors fun e => answerDraw_checkErrors _ _
  | boundedU32 max =>
    exact withEngine_checkErrors fun e => withU32_checkErrors fun m => start_checkErrors _ _ _
  | boundedU64 max => exact withEngine_checkErrors fun e => start_checkErrors _ _ _
  | rangeU32 min max | rangeI32 min max =>
    exact withEngine_checkErrors fun e => withU32_checkErrors fun lo => withU32_checkErrors fun hi =>
      check_checkErrors (start_checkErrors _ _ _)
  | rangeU64 min max | rangeI64 min max =>
    exact withEngine_checkErrors fun e => check_checkErrors (start_checkErrors _ _ _)

/-- Where an error of a command can come from: a shared check, SEED_PUSH into a full buffer, or READ_REG
outside the register map. -/
theorem exec_raise_cases {i : Instr} {e : Err} (h : exec i s = .next (raise e s)) :
    (e = .arg ∨ e = .ncon) ∨
    (e = .sfull ∧ ∃ v, i = .seedPush v ∧ s.sb.length = s.cfg.seedCap) ∨
    (e = .ill ∧ ∃ reg : BitVec 8, i = .readReg reg ∧ 5 < reg.toNat) := by
  by_cases hpush : ∃ v, i = .seedPush v
  · obtain ⟨v, rfl⟩ := hpush
    obtain ⟨he, hfull⟩ := seedPush_raise_iff.mp h
    exact .inr (.inl ⟨he, v, rfl, hfull⟩)
  by_cases hread : ∃ reg, i = .readReg reg
  · obtain ⟨reg, rfl⟩ := hread
    obtain ⟨he, hreg⟩ := readReg_raise_iff.mp h
    exact .inr (.inr ⟨he, reg, rfl, hreg⟩)
  · exact .inl (exec_checkErrors (not_exists.mp hpush) (not_exists.mp hread) e h)

end

end Sys2Proof.Machine

namespace Sys2Proof.Proofs

open Sys2Proof Sys2Proof.Machine

/-- Settles O19: of the places that an error can come from, only SEED_PUSH raises SeedFull and only
READ_REG raises IllegalCommand. -/
theorem seedFullAndIllegalCommandExactly : Obligations.SeedFullAndIllegalCommandExactly := by
  refine ⟨fun i s => ⟨fun h => ?_, ?_⟩, fun i s => ⟨fun h => ?_, ?_⟩⟩
  · obtain (he | he) | ⟨_, hcause⟩ | ⟨he, _⟩ := exec_raise_cases h
    · cases he
    · cases he
    · exact hcause
    · cases he
  · rintro ⟨v, rfl, hfull⟩
    exact seedPush_raise_iff.mpr ⟨rfl, hfull⟩
  · obtain (he | he) | ⟨he, _⟩ | ⟨_, hcause⟩ := exec_raise_cases h
    · cases he
    · cases he
    · cases he
    · exact hcause
  · rintro ⟨reg, rfl, hreg⟩
    exact readReg_raise_iff.mpr ⟨rfl, hreg⟩

end Sys2Proof.Proofs

/-! PROOFS. The families 60_exceptions.md and 70_reset_and_hazards.md: where exactly each command raises
ArgumentError and NotConstructed, the seed buffer's two commands, what never reads that buffer, and units
side by side: O13, O17, O18, O24 and O55. -/

namespace Sys2Proof.Machine

/-! ### ArgumentError: the checks, row by row of R756 -/

/-- The result is ArgumentError exactly where `cause` holds, and it is never NotConstructed. -/
structure ArgExactly (s : State) (cause : Prop) (res : Result) : Prop where
  arg_iff : res = .next (raise .arg s) ↔ cause
  not_ncon : res ≠ .next (raise .ncon s)

section
variable {s : State} {cause : Prop} {res : Result}

theorem failArg_argExactly (h : cause) : ArgExactly s cause (failWith .arg s) where
  arg_iff := iff_of_true rfl h
  not_ncon hncon := Err.noConfusion (failWith_eq_raise_iff.mp hncon)

/-- A result that is neither of the two errors, where there is no cause. -/
theorem ArgExactly.of_others (h : ∀ e, res = .next (raise e s) → e ≠ .arg ∧ e ≠ .ncon) (hno : ¬ cause) :
    ArgExactly s cause res where
  arg_iff := iff_of_false (fun harg => (h .arg harg).1 rfl) hno
  not_ncon hncon := (h .ncon hncon).2 rfl

theorem respond_argExactly (sb : List Beat) (eng : Option Engine) (rs : List Beat) (hno : ¬ cause) :
    ArgExactly s cause (.next (respond { s with sb := sb, eng := eng } rs)) :=
  .of_others (fun e h => absurd (Host.Outcome.next.inj h) (respond_ne_raise sb eng rs e)) hno

theorem answer_argExactly {rs : List Beat} (hno : ¬ cause) : ArgExactly s cause (answer s rs) :=
  respond_argExactly s.sb s.eng rs hno

theorem construct_argExactly {e : Engine} (hno : ¬ cause) : ArgExactly s cause (construct e s) :=
  respond_argExactly s.sb (some e) [] hno

theorem answerDraw_argExactly {r : Beat} {e : Engine} (hno : ¬ cause) :
    ArgExactly s cause (answerDraw s r e) :=
  respond_argExactly s.sb (some e) [r] hno

theorem start_argExactly {b : Bound} {off : Beat} {width : ResultWidth} (hno : ¬ cause) :
    ArgExactly s cause (start b off width s) :=
  .of_others (fun e h => absurd (Host.Outcome.next.inj h) (sampling_ne_raise _ e)) hno

/-- A check that refuses only for a cause, and passes on to what finds the other causes. -/
theorem check_argExactly {p : Prop} [Decidable p] (hbad : p → cause) (h : ¬ p → ArgExactly s cause res) :
    ArgExactly s cause (if p then failWith .arg s else res) := by
  split
  · next hp => exact failArg_argExactly (hbad hp)
  · next hp => exact h hp

theorem withU32_argExactly {b : Beat} {k : U32 → Result} (hwide : WideOperand b → cause)
    (h : ¬ WideOperand b → ArgExactly s cause (k (b.setWidth 32))) :
    ArgExactly s cause (withU32 b s k) := by
  by_cases hb : WideOperand b
  · rw [withU32_wide s k hb]
    exact failArg_argExactly (hwide hb)
  · rw [withU32_narrow s k (narrow_of_not_wideOperand hb)]
    exact h hb

theorem withKey32_argExactly {k : List U32 → Result} (hbad : s.sb = [] ∨ WideEntry s → cause)
    (h : ¬ (s.sb = [] ∨ WideEntry s) → ∀ key, ArgExactly s cause (k key)) :
    ArgExactly s cause (withKey32 s k) := by
  by_cases hkey : s.sb = [] ∨ WideEntry s
  · rw [withKey32_bad k hkey]
    exact failArg_argExactly (hbad hkey)
  · obtain ⟨hne, hentry⟩ := not_or.mp hkey
    rw [withKey32_narrow k hne (narrow_of_not_wideEntry hentry)]
    exact h hkey _

theorem withKey64_argExactly {k : List U64 → Result} (hempty : s.sb = [] → cause)
    (h : s.sb ≠ [] → ArgExactly s cause (k s.sb)) : ArgExactly s cause (withKey64 s k) :=
  check_argExactly hempty h

theorem withLength_argExactly {n : Beat} {k : Nat → Result} (hlong : s.cfg.ssMaxOut < n.toNat → cause)
    (h : ¬ s.cfg.ssMaxOut < n.toNat → ArgExactly s cause (k n.toNat)) :
    ArgExactly s cause (withLength n s k) :=
  check_argExactly hlong h

theorem withArrayLength_argExactly {n : Beat} {k : Nat → Result}
    (hbad : s.cfg.ssMaxOut < n.toNat ∨ n.toNat = 1 → cause)
    (h : ¬ (s.cfg.ssMaxOut < n.toNat ∨ n.toNat = 1) → ArgExactly s cause (k n.toNat)) :
    ArgExactly s cause (withArrayLength n s k) :=
  check_argExactly hbad h

/-- An InitByArray answer, the empty output included (R409). -/
theorem arrayAnswer_argExactly {n : Nat} {out : List Beat} (hno : ¬ cause) :
    ArgExactly s cause (if n = 0 then answer s [] else answer s out) := by
  split
  · exact answer_argExactly hno
  · exact answer_argExactly hno

end

/-! ### The errors of each command -/

section
variable {i : Instr} {s : State}

/-- A command that draws nothing raises ArgumentError exactly for its causes, and never NotConstructed
(R755, R756). -/
theorem exec_argExactly (hi : isDraw i = false) : ArgExactly s (ArgCause i s) (exec i s) := by
  cases i with
  | nop | normCanon | normCanonInc | normCanonSym => exact answer_argExactly not_false
  | seedClear => exact respond_argExactly [] s.eng [] not_false
  | seedPush v =>
    refine .of_others (fun e h => ?_) not_false
    obtain ⟨rfl, _⟩ := seedPush_raise_iff.mp h
    exact ⟨nofun, nofun⟩
  | readReg reg =>
    refine .of_others (fun e h => ?_) not_false
    obtain ⟨rfl, _⟩ := readReg_raise_iff.mp h
    exact ⟨nofun, nofun⟩
  | ssIgr32 seed n =>
    exact withU32_argExactly .inl fun hseed => withLength_argExactly .inr fun hlen =>
      answer_argExactly (not_or.mpr ⟨hseed, hlen⟩)
  | ssIgr64 seed n =>
    rw [exec, execSsIgr64]
    exact withLength_argExactly id answer_argExactly
  | ssIba32 n =>
    refine withKey32_argExactly (Or.imp_right .inl) fun hkey key =>
      withArrayLength_argExactly (.inr ∘ .inr) fun hlen => arrayAnswer_argExactly ?_
    exact fun hcause => (or_assoc.mpr hcause).elim hkey hlen
  | ssIba64 n =>
    rw [exec, execSsIba64]
    exact withKey64_argExactly .inl fun hne => withArrayLength_argExactly .inr fun hlen =>
      arrayAnswer_argExactly (not_or.mpr ⟨hne, hlen⟩)
  | ssSseq32 n =>
    refine withKey32_argExactly (Or.imp_right .inl) fun hkey key =>
      withLength_argExactly (.inr ∘ .inr) fun hlen => answer_argExactly ?_
    exact fun hcause => (or_assoc.mpr hcause).elim hkey hlen
  | mt32Seed seed => exact withU32_argExactly id construct_argExactly
  | mt32SeedArray | mt32SeedSeq =>
    exact withKey32_argExactly id fun hkey key => construct_argExactly hkey
  | mt64SeedArray =>
    rw [exec, execMt64SeedArray]
    exact withKey64_argExactly id construct_argExactly
  | mt64Seed | tf20Seed | tfrSeed => exact construct_argExactly not_false
  | pcg32Seed initstate stream => exact check_argExactly id construct_argExactly
  | philoxSeed k0 k1 =>
    exact withU32_argExactly .inl fun h0 => withU32_argExactly .inr fun h1 =>
      construct_argExactly (not_or.mpr ⟨h0, h1⟩)
  | _ => cases hi

/-- The errors of a draw command: NotConstructed exactly over an empty slot, and over an engine
ArgumentError exactly where `cause` holds (R755, R759). -/
structure DrawExactly (s : State) (cause : Prop) (res : Result) : Prop where
  arg_iff : res = .next (raise .arg s) ↔ cause
  ncon_iff : res = .next (raise .ncon s) ↔ s.eng = none

theorem withEngine_drawExactly {cause : Prop} {k : Engine → Result} (h : ∀ e, ArgExactly s cause (k e)) :
    DrawExactly s (s.eng ≠ none ∧ cause) (withEngine s k) := by
  cases hslot : s.eng with
  | none =>
    rw [withEngine_none k hslot]
    exact ⟨iff_of_false (fun harg => Err.noConfusion (failWith_eq_raise_iff.mp harg)) fun hc => hc.1 rfl,
      iff_of_true rfl hslot⟩
  | some e =>
    have hne : some e ≠ none := Option.some_ne_none e
    rw [withEngine_some k hslot]
    exact ⟨(h e).arg_iff.trans (and_iff_right hne).symm, iff_of_false (h e).not_ncon (hslot ▸ hne)⟩

/-- A draw command without operands to check. -/
theorem withEngine_drawExactly_unchecked {k : Engine → Result} (h : ∀ e, ArgExactly s False (k e)) :
    DrawExactly s False (withEngine s k) :=
  and_false (s.eng ≠ none) ▸ withEngine_drawExactly h

theorem exec_drawExactly (hi : isDraw i = true) : DrawExactly s (ArgCause i s) (exec i s) := by
  cases i with
  | nextU32 | nextU64 | canon | canonInc | canonSym =>
    exact withEngine_drawExactly_unchecked fun e => answerDraw_argExactly not_false
  | boundedU64 max => exact withEngine_drawExactly_unchecked fun e => start_argExactly not_false
  | boundedU32 max =>
    exact withEngine_drawExactly fun e => withU32_argExactly id start_argExactly
  | rangeU32 min max =>
    refine withEngine_drawExactly fun e => withU32_argExactly (.inr ∘ .inl) fun hmin =>
      withU32_argExactly (.inr ∘ .inr) fun hmax => ?_
    rw [toNat_setWidth_of_narrow (narrow_of_not_wideOperand hmin),
      toNat_setWidth_of_narrow (narrow_of_not_wideOperand hmax)]
    exact check_argExactly .inl fun hle =>
      start_argExactly (not_or.mpr ⟨hle, not_or.mpr ⟨hmin, hmax⟩⟩)
  | rangeU64 min max => exact withEngine_drawExactly fun e => check_argExactly id start_argExactly
  | rangeI32 min max =>
    refine withEngine_drawExactly fun e => withU32_argExactly .inl fun hmin =>
      withU32_argExactly (.inr ∘ .inl) fun hmax => ?_
    rw [intOf_eq_toInt (by decide), intOf_eq_toInt (by decide)]
    exact check_argExactly (.inr ∘ .inr) fun hle =>
      start_argExactly (not_or.mpr ⟨hmin, not_or.mpr ⟨hmax, hle⟩⟩)
  | rangeI64 min max =>
    refine withEngine_drawExactly fun e => ?_
    rw [intOf_eq_toInt (by decide), intOf_eq_toInt (by decide)]
    exact check_argExactly id start_argExactly
  | _ => cases hi

theorem exec_arg_iff : exec i s = .next (raise .arg s) ↔ ArgCause i s := by
  cases hdraw : isDraw i with
  | false => exact (exec_argExactly hdraw).arg_iff
  | true => exact (exec_drawExactly hdraw).arg_iff

theorem exec_ncon_iff : exec i s = .next (raise .ncon s) ↔ isDraw i = true ∧ s.eng = none := by
  cases hdraw : isDraw i with
  | false => exact iff_of_false (exec_argExactly hdraw).not_ncon fun h => Bool.noConfusion h.1
  | true => exact (exec_drawExactly hdraw).ncon_iff.trans (and_iff_right rfl).symm

end

/-! ### The slot stays filled -/

@[simp] theorem samplerDecide_eng (r : Sampler) (d : Nat) (s : State) :
    (samplerDecide r d s).eng = s.eng := by
  obtain ⟨x, hfin⟩ | ⟨ph, hgo, _⟩ := samplerDecide_cases r d s
  · rw [hfin, finish_eng]
  · rw [hgo, goOn_eng]

/-- A command leaves the slot as it was or with an engine in it. -/
theorem CommandEffect.eng_ne_none {i : Instr} {s t : State} (h : CommandEffect i s t)
    (hs : s.eng ≠ none) : t.eng ≠ none := by
  cases h with
  | failed | answered | cleared | pushed | started => exact hs
  | constructed e => exact Option.some_ne_none e
  | drew e e' => exact Option.some_ne_none e'

theorem step_eng_ne_none {s t : State} (h : step s = .next t) (hs : s.eng ≠ none) : t.eng ≠ none := by
  obtain ⟨_, rfl⟩ | ⟨_, rfl⟩ | ⟨r, e, _, _, rfl⟩ | ⟨n, _, rfl⟩ | ⟨i, n, _, hexec⟩ := step_next h
  · exact hs
  · exact hs
  · rw [samplerDecide_eng]
    exact Option.some_ne_none _
  · exact hs
  · exact (exec_next hexec).eng_ne_none hs

/-! ### What never reads the seed buffer -/

/-- `s` with the seed buffer's valid entries `sb` in place of its own. -/
def State.withSeeds (sb : List Beat) (s : State) : State := { s with sb := sb }

/-- The result with the seed buffer's entries `sb` in the next state, if there is one. -/
def resultWithSeeds (sb : List Beat) : Result → Result
  | .next t => .next (t.withSeeds sb)
  | .fault f => .fault f
  | .refused r => .refused r

section
variable {s : State} (sb : List Beat)

theorem check_withSeeds {p : Prop} [Decidable p] {e : Err} {res res' : Result}
    (h : res' = resultWithSeeds sb res) :
    (if p then failWith e (s.withSeeds sb) else res') =
      resultWithSeeds sb (if p then failWith e s else res) := by
  split
  · rfl
  · exact h

theorem withEngine_withSeeds {k k' : Engine → Result} (h : ∀ e, k' e = resultWithSeeds sb (k e)) :
    withEngine (s.withSeeds sb) k' = resultWithSeeds sb (withEngine s k) := by
  cases hslot : s.eng with
  | none =>
    rw [withEngine_none k hslot, withEngine_none (s := s.withSeeds sb) k' hslot]
    rfl
  | some e => rw [withEngine_some k hslot, withEngine_some (s := s.withSeeds sb) k' hslot, h]

theorem withU32_withSeeds {b : Beat} {k k' : U32 → Result} (h : ∀ v, k' v = resultWithSeeds sb (k v)) :
    withU32 b (s.withSeeds sb) k' = resultWithSeeds sb (withU32 b s k) := by
  unfold withU32
  split
  · rfl
  · exact h _

/-- A draw command carries the seed buffer through unread (R812). -/
theorem exec_draw_withSeeds {i : Instr} (hi : isDraw i = true) :
    exec i (s.withSeeds sb) = resultWithSeeds sb (exec i s) := by
  cases i with
  | nextU32 | nextU64 | canon | canonInc | canonSym | boundedU64 max =>
    exact withEngine_withSeeds sb fun e => rfl
  | boundedU32 max => exact withEngine_withSeeds sb fun e => withU32_withSeeds sb fun m => rfl
  | rangeU32 min max | rangeI32 min max =>
    exact withEngine_withSeeds sb fun e => withU32_withSeeds sb fun lo => withU32_withSeeds sb fun hi =>
      check_withSeeds sb rfl
  | rangeU64 min max | rangeI64 min max =>
    exact withEngine_withSeeds sb fun e => check_withSeeds sb rfl
  | _ => cases hi

theorem samplerDecide_withSeeds (r : Sampler) (d : Nat) (s : State) :
    samplerDecide r d (s.withSeeds sb) = (samplerDecide r d s).withSeeds sb := by
  have hfinish (x : Nat) : finish r x (s.withSeeds sb) = (finish r x s).withSeeds sb := rfl
  have hgoOn (ph : Phase) : goOn r ph (s.withSeeds sb) = (goOn r ph s).withSeeds sb := rfl
  unfold samplerDecide
  cases r.ph with
  | nat | splHi | splLo | cmpLo =>
    simp only [hfinish, hgoOn, apply_ite (State.withSeeds sb)]
  | cmpHi => rfl

theorem samplerStep_withSeeds (r : Sampler) (s : State) :
    samplerStep r (s.withSeeds sb) = resultWithSeeds sb (samplerStep r s) := by
  cases hslot : s.eng with
  | none => simp only [samplerStep, show (s.withSeeds sb).eng = none from hslot, hslot, resultWithSeeds]
  | some e =>
    simp only [samplerStep, show (s.withSeeds sb).eng = some e from hslot, hslot, resultWithSeeds]
    exact congrArg _ (samplerDecide_withSeeds sb r _ { s with eng := some (rawDraw s.cfg e).2 })

theorem fetch_withSeeds (s : State) : fetch (s.withSeeds sb) = fetch s := rfl

/-- While the sampler is active no command runs, and no other move reads the buffer (R812). -/
theorem step_withSeeds (hactive : s.smp ≠ .idle) :
    step (s.withSeeds sb) = resultWithSeeds sb (step s) := by
  unfold step
  rw [fetch_withSeeds]
  cases hfetch : fetch s with
  | wait | send | illegal => rfl
  | sample r => exact samplerStep_withSeeds sb r s
  | run i n =>
    obtain ⟨⟨_, _, hidle⟩, _⟩ := fetch_run_inv hfetch
    exact absurd hidle hactive

end

/-! ### Several units -/

/-- A step of unit `k` is that unit's own step, put back in its place (R771). -/
theorem stepUnit_eq_some {k : Nat} {units after : List State} (h : stepUnit k units = some after) :
    ∃ s t, units[k]? = some s ∧ step s = .next t ∧ after = units.set k t := by
  unfold stepUnit at h
  split at h
  · cases h
  · next s hunit =>
    split at h
    · next t hstep => exact ⟨s, t, hunit, hstep, (Option.some.inj h).symm⟩
    · cases h

end Sys2Proof.Machine

namespace Sys2Proof.Proofs

open Sys2Proof Sys2Proof.Machine

/-- Settles O18, by the checks of each command in their order. -/
theorem argumentErrorExactlyForItsCauses : Obligations.ArgumentErrorExactlyForItsCauses :=
  fun _ _ => exec_arg_iff

/-- Settles O17: the engine check comes first in every draw command and stands in no other, and the slot
is only ever written with an engine. -/
theorem notConstructedExactlyForDrawsOnEmptySlot :
    Obligations.NotConstructedExactlyForDrawsOnEmptySlot :=
  ⟨fun _ _ => exec_ncon_iff, fun _ _ => step_eng_ne_none⟩

/-- Settles O55: the seed buffer passes through a draw command, and through each move that is open while
the sampler is active. -/
theorem drawsDoNotReadTheSeedBuffer : Obligations.DrawsDoNotReadTheSeedBuffer := by
  refine fun s t entries => ⟨fun i hi hexec => ?_, fun hactive hstep => ?_⟩
  · exact (exec_draw_withSeeds entries hi).trans (congrArg _ hexec)
  · exact (step_withSeeds entries hactive).trans (congrArg _ hstep)

/-- Settles O13: the other places of the list stay as they were. -/
theorem unitsAreIndependent : Obligations.UnitsAreIndependent := by
  intro k j units after h
  obtain ⟨s, t, hunit, hstep, rfl⟩ := stepUnit_eq_some h
  obtain ⟨hk, _⟩ := List.getElem?_eq_some_iff.mp hunit
  exact ⟨List.length_set, fun hne => List.getElem?_set_ne hne.symm,
    s, t, hunit, hstep, List.getElem?_set_self hk⟩

/-- Settles O24, by the room in the buffer. -/
theorem seedBufferCommandsClearAndAppend : Obligations.SeedBufferCommandsClearAndAppend := by
  refine fun v s => ⟨rfl, fun hroom => ?_, fun hfull => seedPush_raise_iff.mpr ⟨rfl, hfull⟩⟩
  rw [exec, execSeedPush, if_neg hroom.ne]
  rfl

end Sys2Proof.Proofs
